-- ==== Sys2Proof/Word.lean ====
section
/-! DEFINITION. The widths of the machine (00_scope.md R5, R8): words, bytes, instruction units, register numbers. -/

namespace Sys2Proof

/-- A general register, an address or a 32-bit datum (R5: `XLEN` and `ALEN` are 32). -/
abbrev Word := BitVec 32

/-- "Bytes are octets (8 bits)" (R50). -/
abbrev Byte := BitVec 8

/-- One 16-bit instruction unit (R80). -/
abbrev InstrUnit := BitVec 16

/-- A 64-bit quantity held in a pair of general registers (R42, R220). -/
abbrev DWord := BitVec 64

/-- The number of a general register, a 4-bit field (R21). -/
abbrev RegNum := BitVec 4

/-- The number of addresses (R50: "Addresses are 32-bit"). -/
def addressSpace : Nat := 2 ^ 32

/-- Bytes in a line of the instruction cache, lines being aligned to their length (R5 `CACHE_LINE`, R63). -/
def lineBytes : Nat := 64

end Sys2Proof
end

