-- ==== Sys2Proof/Config.lean ====
section
/-! DEFINITION. What an implementation or a platform fixes (00_scope.md R6): the types of its parameters, which
State holds in its field `plat`, and the free values the spec leaves open (no body: nothing can be proved of them). -/

namespace Sys2Proof

/-- What a region of the platform's MEMORY_MAP holds (R6: "which addresses hold memory, which hold devices"). -/
inductive RegionKind where
  | memory
  | device
deriving DecidableEq, Repr

/-- One region of MEMORY_MAP: the addresses `base .. base + size - 1` (R60). -/
structure Region where
  base : Nat
  size : Nat
  kind : RegionKind
deriving DecidableEq, Repr

/-- MISALIGNED_DATA (R57): a 16- or 32-bit data access at an address that is no multiple of its width. `refuse` is
the default the rule names. `perform` is the one other value of the model (DESIGN CHOICE, log 6): the access is made
byte by byte as R52 says. -/
inductive MisalignedData where
  | refuse
  | perform
deriving DecidableEq, Repr

/-- SUBWORD_SHIFT_WRITE (R283), the two admissible values the rule names. -/
inductive SubwordShiftWrite where
  | extend
  | merge
deriving DecidableEq, Repr

/-- UNUSED_FIELD_POLICY (R105), the two values the rule names. -/
inductive UnusedFieldPolicy where
  | ignore
  | refuse
deriving DecidableEq, Repr

/-- The platform's and implementation's parameters (R6). No step changes them; State carries them so that a statement
about every state holds for every value of them. -/
structure Platform where
  memMap : List Region
  misaligned : MisalignedData
  subwordWrite : SubwordShiftWrite
  unusedFields : UnusedFieldPolicy
deriving DecidableEq, Repr

/-- RESET_PC (R41, D16: open). DESIGN CHOICE (log 2): the value the programs of 95_test_vectors.md section 3 assume. -/
def Config.resetPc : Word := 0x100#32

/-- MEMORY_MAP after reset. DESIGN CHOICE (log 4): all 2^32 addresses hold memory. -/
def Config.wholeSpace : List Region := [⟨0, addressSpace, .memory⟩]

/-- DIV_ZERO(32, signed, dividend) of R219: quotient and remainder of a division by zero. A FREE VALUE (log 9). -/
opaque Config.divZero32 (signed : Bool) (dividend : Word) : Word × Word

/-- DIV_ZERO(64, signed, dividend) of R219. A FREE VALUE (log 9). -/
opaque Config.divZero64 (signed : Bool) (dividend : DWord) : DWord × DWord

/-- DIV_OVERFLOW(32, dividend) of R219: quotient and remainder of -2^31 by -1. A FREE VALUE (log 9). -/
opaque Config.divOverflow32 (dividend : Word) : Word × Word

/-- DIV_OVERFLOW(64, dividend) of R219: quotient and remainder of -2^63 by -1. A FREE VALUE (log 9). -/
opaque Config.divOverflow64 (dividend : DWord) : DWord × DWord

end Sys2Proof
end

