-- ==== Sys2Proof/Syntax.lean ====
section
/-! DEFINITION. The syntax: one constructor of `Instr` per row of spec/opcode_table.json, in the table's order. Fields:
`a`, `b` the general registers or special-purpose registers of the fields of that name (30_encoding.md R100), `i` the
instruction's own immediate field or prefix constant (R95, R82, R83). A field an instruction does not use (R105) is no
argument. -/

namespace Sys2Proof

/-- The six special-purpose registers (10_state.md R24). Numbers 6..15 are reserved (R32) and name none. -/
inductive Spr where
  | flags
  | ids
  | ira
  | ie
  | ity
  | sty
deriving DecidableEq, Repr

/-- The instructions of the opcode table. -/
inductive Instr where
  /-- R121: `pre`, inserted by the assembler. -/
  | pre (i : BitVec 12)
  /-- R122: `lpre`, inserted by the assembler. -/
  | lpre (i : BitVec 27)
  /-- R129: `xchg rA, rB` (no index in effect). -/
  | xchg (a b : RegNum)
  /-- R130: `xchg.l [rA], rB` (no index in effect). -/
  | xchgL (a b : RegNum)
  /-- R131: `cmpxchg [rA], rC, rB` (index in effect; rC is the a field of the index prefix). -/
  | cmpxchg (a b : RegNum)
  /-- R132: `cmpxchg.l [rA], rC, rB` (index in effect; rC is the a field of the index prefix). -/
  | cmpxchgL (a b : RegNum)
  /-- R141: `add rA, #simm`. -/
  | addImm (a : RegNum) (i : BitVec 5)
  /-- R142: `add rA, pc, #simm`. -/
  | addPc (a : RegNum) (i : BitVec 5)
  /-- R143: `add rA, sp, #simm`. -/
  | addSp (a : RegNum) (i : BitVec 5)
  /-- R144: `add rA, fp, #simm`. -/
  | addFp (a : RegNum) (i : BitVec 5)
  /-- R145: `cmp rA, #simm`. -/
  | cmpImm (a : RegNum) (i : BitVec 5)
  /-- R146: `cpy rA, #simm`. -/
  | cpyImm (a : RegNum) (i : BitVec 5)
  /-- R147: `lsl rA, #imm`. -/
  | lslImm (a : RegNum) (i : BitVec 5)
  /-- R148: `lsr rA, #imm`. -/
  | lsrImm (a : RegNum) (i : BitVec 5)
  /-- R149: `asr rA, #imm`. -/
  | asrImm (a : RegNum) (i : BitVec 5)
  /-- R150: `and rA, #simm`. -/
  | andImm (a : RegNum) (i : BitVec 5)
  /-- R151: `orr rA, #simm`. -/
  | orrImm (a : RegNum) (i : BitVec 5)
  /-- R152: `xor rA, #simm`. -/
  | xorImm (a : RegNum) (i : BitVec 5)
  /-- R153: `ze rA, #imm`. -/
  | ze (a : RegNum) (i : BitVec 5)
  /-- R154: `se rA, #imm`. -/
  | se (a : RegNum) (i : BitVec 5)
  /-- R155: `swi rA, #simm`. -/
  | swiReg (a : RegNum) (i : BitVec 5)
  /-- R156: `swi #imm`. -/
  | swi (i : BitVec 5)
  /-- R161: `add rA, rB`. -/
  | add (a b : RegNum)
  /-- R161: `add.f rA, rB`. -/
  | addF (a b : RegNum)
  /-- R162: `sub rA, rB`. -/
  | sub (a b : RegNum)
  /-- R162: `sub.f rA, rB`. -/
  | subF (a b : RegNum)
  /-- R163: `add rA, sp, rB`. -/
  | addSpReg (a b : RegNum)
  /-- R163: `add.f rA, sp, rB`. -/
  | addSpRegF (a b : RegNum)
  /-- R164: `add rA, fp, rB`. -/
  | addFpReg (a b : RegNum)
  /-- R164: `add.f rA, fp, rB`. -/
  | addFpRegF (a b : RegNum)
  /-- R165: `cmp rA, rB`. -/
  | cmp (a b : RegNum)
  /-- R166: `cpy rA, rB`. -/
  | cpy (a b : RegNum)
  /-- R166: `cpy.f rA, rB`. -/
  | cpyF (a b : RegNum)
  /-- R167: `lsl rA, rB`. -/
  | lsl (a b : RegNum)
  /-- R167: `lsl.f rA, rB`. -/
  | lslF (a b : RegNum)
  /-- R168: `lsr rA, rB`. -/
  | lsr (a b : RegNum)
  /-- R168: `lsr.f rA, rB`. -/
  | lsrF (a b : RegNum)
  /-- R169: `asr rA, rB`. -/
  | asr (a b : RegNum)
  /-- R169: `asr.f rA, rB`. -/
  | asrF (a b : RegNum)
  /-- R170: `and rA, rB`. -/
  | and (a b : RegNum)
  /-- R170: `and.f rA, rB`. -/
  | andF (a b : RegNum)
  /-- R171: `orr rA, rB`. -/
  | orr (a b : RegNum)
  /-- R171: `orr.f rA, rB`. -/
  | orrF (a b : RegNum)
  /-- R172: `xor rA, rB`. -/
  | xor (a b : RegNum)
  /-- R172: `xor.f rA, rB`. -/
  | xorF (a b : RegNum)
  /-- R173: `adc rA, rB`. -/
  | adc (a b : RegNum)
  /-- R173: `adc.f rA, rB`. -/
  | adcF (a b : RegNum)
  /-- R174: `sbc rA, rB`. -/
  | sbc (a b : RegNum)
  /-- R174: `sbc.f rA, rB`. -/
  | sbcF (a b : RegNum)
  /-- R175: `cmpbc rA, rB`. -/
  | cmpbc (a b : RegNum)
  /-- R181: `bl simm`. -/
  | bl (i : BitVec 9)
  /-- R182: `bra simm`. -/
  | bra (i : BitVec 9)
  /-- R183: `beq simm`. -/
  | beq (i : BitVec 9)
  /-- R184: `bne simm`. -/
  | bne (i : BitVec 9)
  /-- R185: `bmi simm`. -/
  | bmi (i : BitVec 9)
  /-- R186: `bpl simm`. -/
  | bpl (i : BitVec 9)
  /-- R187: `bvs simm`. -/
  | bvs (i : BitVec 9)
  /-- R188: `bvc simm`. -/
  | bvc (i : BitVec 9)
  /-- R189: `bgeu simm`. -/
  | bgeu (i : BitVec 9)
  /-- R190: `bltu simm`. -/
  | bltu (i : BitVec 9)
  /-- R191: `bgtu simm`. -/
  | bgtu (i : BitVec 9)
  /-- R192: `bleu simm`. -/
  | bleu (i : BitVec 9)
  /-- R193: `bges simm`. -/
  | bges (i : BitVec 9)
  /-- R194: `blts simm`. -/
  | blts (i : BitVec 9)
  /-- R195: `bgts simm`. -/
  | bgts (i : BitVec 9)
  /-- R196: `bles simm`. -/
  | bles (i : BitVec 9)
  /-- R200: `jl rA`. -/
  | jl (a : RegNum)
  /-- R201: `jmp rA`. -/
  | jmp (a : RegNum)
  /-- R202: `jmp ira`. -/
  | jmpIra
  /-- R203: `reti`. -/
  | reti
  /-- R204: `ei`. -/
  | ei
  /-- R205: `di`. -/
  | di
  /-- R206: `push rA, rB`. -/
  | push (a b : RegNum)
  /-- R207: `push sA, rB`. -/
  | pushSpr (a : Spr) (b : RegNum)
  /-- R208: `pop rA, rB`. -/
  | pop (a b : RegNum)
  /-- R209: `pop sA, rB`. -/
  | popSpr (a : Spr) (b : RegNum)
  /-- R210: `pop pc, rB`. -/
  | popPc (b : RegNum)
  /-- R211: `mul rA, rB`. -/
  | mul (a b : RegNum)
  /-- R212: `udiv rA, rB | udivmod rA, rB, rC (after index rC, r0)`. -/
  | udiv (a b : RegNum)
  /-- R213: `sdiv rA, rB | sdivmod rA, rB, rC (after index rC, r0)`. -/
  | sdiv (a b : RegNum)
  /-- R214: `lumul rA, rB | lumul rC, rD, rA, rB (after index rC, rD)`. -/
  | lumul (a b : RegNum)
  /-- R215: `lsmul rA, rB | lsmul rC, rD, rA, rB (after index rC, rD)`. -/
  | lsmul (a b : RegNum)
  /-- R216: `udiv64 rA, rB | udivmod64 rA, rB, rC, rD (after index rC, rD)`. -/
  | udiv64 (a b : RegNum)
  /-- R217: `sdiv64 rA, rB | sdivmod64 rA, rB, rC, rD (after index rC, rD)`. -/
  | sdiv64 (a b : RegNum)
  /-- R231: `ldub rA, [rB]`. -/
  | ldub (a b : RegNum)
  /-- R232: `ldsb rA, [rB]`. -/
  | ldsb (a b : RegNum)
  /-- R233: `lduh rA, [rB]`. -/
  | lduh (a b : RegNum)
  /-- R234: `ldsh rA, [rB]`. -/
  | ldsh (a b : RegNum)
  /-- R235: `ldr rA, [rB]`. -/
  | ldr (a b : RegNum)
  /-- R236: `stb rA, [rB]`. -/
  | stb (a b : RegNum)
  /-- R237: `sth rA, [rB]`. -/
  | sth (a b : RegNum)
  /-- R238: `str rA, [rB]`. -/
  | str (a b : RegNum)
  /-- R239: `cpy rA, sB`. -/
  | cpyFromSpr (a : RegNum) (b : Spr)
  /-- R240: `cpy sA, rB`. -/
  | cpyToSpr (a : Spr) (b : RegNum)
  /-- R241: `cpy sA, sB`. -/
  | cpySprSpr (a b : Spr)
  /-- R260: `index rA, rB`. -/
  | indexReg (a b : RegNum)
  /-- R261: `index rA, #simm`. -/
  | indexImm (a : RegNum) (i : BitVec 7)
  /-- R270: `cmpb rA, rB`. -/
  | cmpb (a b : RegNum)
  /-- R272: `lsrb rA, rB`. -/
  | lsrb (a b : RegNum)
  /-- R274: `asrb rA, rB`. -/
  | asrb (a b : RegNum)
  /-- R271: `cmph rA, rB`. -/
  | cmph (a b : RegNum)
  /-- R273: `lsrh rA, rB`. -/
  | lsrh (a b : RegNum)
  /-- R275: `asrh rA, rB`. -/
  | asrh (a b : RegNum)
  /-- R276: `ldr sA, [rB]`. -/
  | ldrSpr (a : Spr) (b : RegNum)
  /-- R277: `ldr sA, [sB]`. -/
  | ldrSprSpr (a b : Spr)
  /-- R278: `str sA, [rB]`. -/
  | strSpr (a : Spr) (b : RegNum)
  /-- R279: `str sA, [sB]`. -/
  | strSprSpr (a b : Spr)
  /-- R280: `icreload [rA, #simm]`. -/
  | icreload (a : RegNum) (i : BitVec 5)
  /-- R281: `icflush`. -/
  | icflush
deriving DecidableEq, Repr

end Sys2Proof
end

