-- ==== Sys2Proof/Machine/State.lean ====
section
/-! DEFINITION. The state of the machine (10_state.md), the reasons a step can stop, and the state after reset. -/

namespace Sys2Proof.Machine

/-- The four bits of the special-purpose register `flags` (R25): Z bit 0, C bit 1, V bit 2, N bit 3. Reserved bits
carry no state (R31, D18). -/
structure Flags where
  z : Bool
  c : Bool
  v : Bool
  n : Bool
deriving DecidableEq, Repr

/-- `idxLast` (R37): which kind of `index` executed last, so whether `indexRegB` holds a register (RR) or an immediate
(RI). -/
inductive IdxKind where
  | rr
  | ri
deriving DecidableEq, Repr

/-- The prefix state (R37), which no instruction reads or writes directly and no interrupt saves. -/
structure PrefixState where
  /-- `pre.haveIt`. -/
  preHave : Bool
  /-- `pre.data`. -/
  preData : BitVec 12
  /-- `lpre.haveIt`. -/
  lpreHave : Bool
  /-- `lpre.data`. -/
  lpreData : BitVec 27
  /-- `indexRaRb.haveIt`. -/
  rrHave : Bool
  /-- `indexRaSimm.haveIt`. -/
  riHave : Bool
  /-- `indexRegSum`. -/
  regSum : Word
  /-- `idxA`, the register number of `indexRegA`. -/
  idxA : RegNum
  /-- `idxAval`, the value of `indexRegA`. -/
  idxAval : Word
  /-- `idxB`, the register number of `indexRegB` (after `index rA, rB`). -/
  idxB : RegNum
  /-- `indexRegB` as a value: the register's value after `index rA, rB`, the immediate after `index rA, #simm`. -/
  regB : Word
  /-- `idxLast`. -/
  idxLast : IdxKind
  /-- `prefixUsedByIndex`. -/
  usedByIndex : Bool
deriving DecidableEq, Repr

/-- What the platform and the choice of D37 present at one step boundary (R303, R304): `irq`, the level of the request
input, and `serve`, whether the CPU takes an eligible request there. The MODEL'S OWN, and that the
samples end is its choice (log 5). -/
structure IrqSample where
  irq : Bool
  serve : Bool
deriving DecidableEq, Repr

/-- The state of the machine. `regs` to `mem` are the spec's; `irqLine` and `plat` are the MODEL'S OWN: the inputs of the
boundaries to come (log 5) and the parameters of R6 (logs 4, 6, 7, 8), which no step changes. -/
structure State where
  /-- r0..r12, lr, fp, sp (R20, R21). -/
  regs : Vector Word 16
  /-- The program counter (R23). -/
  pc : Word
  /-- Special-purpose register 0 (R25). -/
  flags : Flags
  /-- Special-purpose register 1 (R26). -/
  ids : Word
  /-- Special-purpose register 2 (R27). -/
  ira : Word
  /-- Special-purpose register 3 (R28). -/
  ie : Bool
  /-- Special-purpose register 4 (R29): true for a `swi`. -/
  ity : Bool
  /-- Special-purpose register 5 (R30). -/
  sty : Word
  /-- The prefix state (R37). -/
  pfx : PrefixState
  /-- The numbers (address / 64) of the possibly stale instruction-cache lines (R63), strictly rising. -/
  stale : List Nat
  /-- Memory (R40, R50): address and byte, addresses strictly rising, no byte equal to what an unlisted address reads. -/
  mem : List Host.Cell
  /-- The samples of the step boundaries to come, a finite list (R39, R303). DESIGN CHOICE (log 5): after the last one `irq`
  is 0 for ever. -/
  irqLine : List IrqSample
  /-- The parameters of R6. -/
  plat : Platform
deriving DecidableEq, Repr

/-- The accesses to an address that does not exist. Both are safe: the machine stops where hardware would do something
the spec does not state. -/
inductive Fault where
  /-- `refuse(AccessWraps)`, R50: raised by a data access whose bytes run past 0xFFFFFFFF. Safe. -/
  | accessWraps
  /-- `refuse(UnbackedAddress)`, R60: raised by a data access, an instruction fetch or a line reload at an address that
  no region of MEMORY_MAP holds. Safe. -/
  | unbackedAddress
deriving DecidableEq, Repr

/-- The other situations to which the spec gives no next state (`refuse(reason)`, R9). -/
inductive Refusal where
  /-- Raised by an arm of `exec` whose instruction has no meaning yet; no arm is such. Safe. -/
  | notModelled (mnemonic : String)
  /-- `refuse(ReservedEncoding)`, R103: raised by the step on a unit the source does not define. Safe. -/
  | reservedEncoding
  /-- `refuse(ReservedSpr)`, R32: raised by the step on an `sA` or `sB` field of 6..15. Safe. -/
  | reservedSpr
  /-- `refuse(MisalignedPc)`, R55: raised by a control transfer or interrupt entry to an odd address, and by a fetch at an
  odd `pc`. Safe. -/
  | misalignedPc
  /-- `refuse(MisalignedData)`, R57: raised by a data access at no multiple of its width under the default of
  MISALIGNED_DATA. Safe. -/
  | misalignedData
  /-- R6, R59: raised by an access to a region that MEMORY_MAP gives to a device, whose behaviour is platform matter.
  Safe. -/
  | deviceAccess
  /-- `refuse(StaleFetch)`, R63: raised by an instruction fetch from a possibly stale line. Safe. -/
  | staleFetch
  /-- `refuse(PrefixUsedTwice)`, R99: raised by an instruction with an immediate field when the same `pre` or `lpre`
  has expanded an index immediate. Safe. -/
  | prefixUsedTwice
  /-- `refuse(BitIndexOutOfRange)`, R153, R154: raised by `ze` and `se` when the expanded immediate is not in 0..31. Safe. -/
  | bitIndexOutOfRange
  /-- `refuse(NoIndexRegB)`, R214 to R217: raised by `lumul`, `lsmul`, `udiv64`, `sdiv64` when the later index is
  `index rA, #simm`. Safe. -/
  | noIndexRegB
  /-- `refuse(DestinationOverlap)`, R220: raised by a divide or multiply whose two results name one register. Safe. -/
  | destinationOverlap
deriving DecidableEq, Repr

/-- No prefix in effect (R41), and the latched data at the values of log 10. -/
def PrefixState.reset : PrefixState where
  preHave := false
  preData := 0#12
  lpreHave := false
  lpreData := 0#27
  rrHave := false
  riHave := false
  regSum := 0#32
  idxA := 0#4
  idxAval := 0#32
  idxB := 0#4
  regB := 0#32
  idxLast := .rr
  usedByIndex := false

/-- The parameters at their default values (R57, R283), the others at the values of logs 4 and 8. -/
def Platform.reset : Platform where
  memMap := Config.wholeSpace
  misaligned := .refuse
  subwordWrite := .extend
  unusedFields := .ignore

/-- The machine right after reset (R41, R330): `ie` = 0, no prefix in effect, no stale line; every register the spec
leaves unspecified at the value of log 1, `pc` at the RESET_PC of log 2. -/
def State.reset : State where
  regs := Vector.replicate 16 0#32
  pc := Config.resetPc
  flags := ⟨false, false, false, false⟩
  ids := 0#32
  ira := 0#32
  ie := false
  ity := false
  sty := 0#32
  pfx := PrefixState.reset
  stale := []
  mem := []
  irqLine := []
  plat := Platform.reset

end Sys2Proof.Machine
end

