-- ==== Sys2Proof/Machine/Flags.lean ====
section
/-! DEFINITION. The flags: their place in the 32-bit view of `flags` (R25, R31), how additions and subtractions compute
them (R33), how the Z, N instructions do (R34), and the branch conditions that read them (R183 to R196). -/

namespace Sys2Proof.Machine

/-- The 32-bit value of one held bit (R31: "reads the held bits zero-extended to 32 bits"). -/
def bitWord (b : Bool) : Word := if b then 1#32 else 0#32

/-- `flags` as a 32-bit value: 28 zero bits, N, V, C, Z (R25). -/
def Flags.toWord (f : Flags) : Word :=
  bitWord f.n <<< 3 ||| bitWord f.v <<< 2 ||| bitWord f.c <<< 1 ||| bitWord f.z

/-- A write of `flags` takes bits 3:0 and discards bits 31:4 (R25). -/
def Flags.ofWord (w : Word) : Flags :=
  ⟨w.getLsbD 0, w.getLsbD 1, w.getLsbD 2, w.getLsbD 3⟩

/-- AddWithCarry_N of R33: the result and the four flags of `a + b + cin` at width `w`. -/
def addWithCarry {w : Nat} (a b : BitVec w) (cin : Bool) : BitVec w × Flags :=
  let usum := a.toNat + b.toNat + cin.toNat
  let result := BitVec.ofNat w usum
  (result,
    { z := result == 0#w
      c := decide (2 ^ w ≤ usum)
      v := a.msb == b.msb && result.msb != a.msb
      n := result.msb })

/-- `a - b`, which is AddWithCarry_N(a, ~b, 1) (R33). -/
def subtract {w : Nat} (a b : BitVec w) : BitVec w × Flags := addWithCarry a (~~~b) true

/-- The flags after an instruction that may affect only Z and N (R34): C and V keep their values. -/
def Flags.withZN (f : Flags) (result : Word) : Flags :=
  { f with z := result == 0#32, n := result.msb }

/-- The flags after `cmpbc` (R175): Z is the old Z and the result being zero. -/
def Flags.compareWithBorrow (f : Flags) (a b : Word) : Flags :=
  let r := addWithCarry a (~~~b) f.c
  { r.2 with z := f.z && r.2.z }

/-! ## Branch conditions -/

/-- R191: `flags.C and !flags.Z`. -/
def Flags.higher (f : Flags) : Bool := f.c && !f.z

/-- R194: `flags.N xor flags.V`. -/
def Flags.less (f : Flags) : Bool := f.n ^^ f.v

/-- R195: `!(flags.N xor flags.V) and !flags.Z`. -/
def Flags.greater (f : Flags) : Bool := !f.less && !f.z

end Sys2Proof.Machine
end

