-- ==== Sys2Proof/Machine/Ops.lean ====
section
/-! DEFINITION. The named operations: registers (R9, R31), memory and the instruction cache (R52, R57, R60, R63), ending an
instruction (R120, R125), the prefixes' own ending (R123), and taking an interrupt and returning from one (R306, R307). -/

namespace Sys2Proof.Machine

/-- The outcome of one step of this machine. -/
abbrev Outcome := Host.Outcome State Fault Refusal

/-- Why an operation inside an instruction stops. -/
inductive Stop where
  | fault (r : Fault)
  | refused (r : Refusal)
deriving DecidableEq, Repr

/-- A stop as the outcome of the step. -/
def Stop.outcome : Stop → Outcome
  | .fault r => .fault r
  | .refused r => .refused r

/-- Go on with the value of an operation, or stop as it did. -/
def andThen {α : Type} (x : Except Stop α) (k : α → Outcome) : Outcome :=
  match x with
  | .ok v => k v
  | .error e => e.outcome

/-! ## Registers -/

/-- `lr` (R21). -/
def lr : RegNum := 13#4

/-- `fp` (R21). -/
def fp : RegNum := 14#4

/-- `sp` (R21). -/
def sp : RegNum := 15#4

/-- `x[r]` (R9). -/
def State.reg (s : State) (r : RegNum) : Word := s.regs[r.toNat]

/-- `x[r] <- v` (R9). -/
def State.setReg (s : State) (r : RegNum) (v : Word) : State := { s with regs := s.regs.set r.toNat v }

/-- `s[r]` (R9, R31): the held bits zero-extended to 32 bits. -/
def State.spr (s : State) : Spr → Word
  | .flags => s.flags.toWord
  | .ids => s.ids
  | .ira => s.ira
  | .ie => bitWord s.ie
  | .ity => bitWord s.ity
  | .sty => s.sty

/-- `s[r] <- v` (R9, R31): the low bits of `v` up to the held width. -/
def State.setSpr (s : State) (r : Spr) (v : Word) : State :=
  match r with
  | .flags => { s with flags := Flags.ofWord v }
  | .ids => { s with ids := v }
  | .ira => { s with ira := v }
  | .ie => { s with ie := v.getLsbD 0 }
  | .ity => { s with ity := v.getLsbD 0 }
  | .sty => { s with sty := v }

/-- `flags <- f`. -/
def State.setFlags (s : State) (f : Flags) : State := { s with flags := f }

/-- `ie <- b` (R28). -/
def State.setIe (s : State) (b : Bool) : State := { s with ie := b }

/-! ## The bytes of memory -/

/-- What an address that memory does not list reads as. DESIGN CHOICE, unsafe (log 3): R41 leaves the contents after
reset to the platform. -/
def Memory.unlisted : Byte := 0#8

/-- The byte at an address (R50). -/
def Memory.read : List Host.Cell → Nat → Byte
  | [], _ => Memory.unlisted
  | (k, v) :: rest, a => if k = a then v else Memory.read rest a

/-- Write the byte at an address, keeping the canonical form. -/
def Memory.write : List Host.Cell → Nat → Byte → List Host.Cell
  | [], a, v => if v = Memory.unlisted then [] else [(a, v)]
  | (k, w) :: rest, a, v =>
    if a < k then (if v = Memory.unlisted then (k, w) :: rest else (a, v) :: (k, w) :: rest)
    else if a = k then (if v = Memory.unlisted then rest else (a, v) :: rest)
    else (k, w) :: Memory.write rest a v

/-- The canonical form from address `lo` on: addresses strictly rising and below 2^32, no byte equal to the unlisted
one. -/
def Memory.wfFrom (lo : Nat) : List Host.Cell → Bool
  | [] => true
  | (k, v) :: rest => decide (lo ≤ k) && decide (k < addressSpace) && v != Memory.unlisted && Memory.wfFrom (k + 1) rest

/-- The canonical form of memory. -/
def Memory.wf (m : List Host.Cell) : Bool := Memory.wfFrom 0 m

/-- MemRead(a, n) of R52 for `n` up to 4, zero-extended to 32 bits: the byte at `a` is the least significant. -/
def Memory.readLE (m : List Host.Cell) (a : Nat) : Nat → Word
  | 0 => 0#32
  | n + 1 => Memory.readLE m (a + 1) n <<< 8 ||| (Memory.read m a).setWidth 32

/-- MemWrite(a, n, v) of R52: byte `k` of `v` goes to address `a + k`. -/
def Memory.writeLE (m : List Host.Cell) (a : Nat) (v : Word) : Nat → List Host.Cell
  | 0 => m
  | n + 1 => Memory.writeLE (Memory.write m a (v.setWidth 8)) (a + 1) (v >>> 8) n

/-! ## The possibly stale lines of the instruction cache (R63) -/

/-- Put a line's number into the rising list of stale lines. -/
def Stale.mark : List Nat → Nat → List Nat
  | [], l => [l]
  | k :: rest, l => if l < k then l :: k :: rest else if l = k then k :: rest else k :: Stale.mark rest l

/-- Take a line's number out of the list of stale lines. -/
def Stale.clear (ls : List Nat) (l : Nat) : List Nat := ls.filter fun k => k != l

/-- The canonical form from line `lo` on: numbers strictly rising and lines of the address space. -/
def Stale.wfFrom (lo : Nat) : List Nat → Bool
  | [] => true
  | k :: rest => decide (lo ≤ k) && decide (k < addressSpace / lineBytes) && Stale.wfFrom (k + 1) rest

/-- The canonical form of the list of stale lines. -/
def Stale.wf (ls : List Nat) : Bool := Stale.wfFrom 0 ls

/-! ## Accesses -/

/-- What MEMORY_MAP holds at an address: the first region that contains it. -/
def kindAt : List Region → Nat → Option RegionKind
  | [], _ => none
  | r :: rest, a => if r.base ≤ a ∧ a < r.base + r.size then some r.kind else kindAt rest a

/-- The `n` bytes from `a` on are backed by memory (R60); a device's behaviour is platform matter (R59). -/
def checkBacked (map : List Region) (a : Nat) : Nat → Except Stop Unit
  | 0 => .ok ()
  | n + 1 =>
    match kindAt map a with
    | some .memory => checkBacked map (a + 1) n
    | some .device => .error (.refused .deviceAccess)
    | none => .error (.fault .unbackedAddress)

/-- The conditions of a data access of `n` bytes at `a`: alignment (R57), no wrap (R50), backed memory (R60). -/
def State.checkData (s : State) (a : Word) (n : Nat) : Except Stop Unit :=
  if s.plat.misaligned = .refuse ∧ a.toNat % n ≠ 0 then .error (.refused .misalignedData)
  else if addressSpace < a.toNat + n then .error (.fault .accessWraps)
  else checkBacked s.plat.memMap a.toNat n

/-- MemRead(a, n) (R52), zero-extended to 32 bits. -/
def State.load (s : State) (a : Word) (n : Nat) : Except Stop Word :=
  match s.checkData a n with
  | .ok _ => .ok (Memory.readLE s.mem a.toNat n)
  | .error e => .error e

/-- The state after the bytes of MemWrite(a, n, v): memory, and the line or both lines touched marked stale (R52, R63). -/
def State.stored (s : State) (a : Word) (n : Nat) (v : Word) : State :=
  { s with
    mem := Memory.writeLE s.mem a.toNat v n
    stale := Stale.mark (Stale.mark s.stale (a.toNat / lineBytes)) ((a.toNat + n - 1) / lineBytes) }

/-- MemWrite(a, n, v) (R52). -/
def State.store (s : State) (a : Word) (n : Nat) (v : Word) : Except Stop State :=
  match s.checkData a n with
  | .ok _ => .ok (s.stored a n v)
  | .error e => .error e

/-- The byte at an address, as statements read memory. -/
def State.byte (s : State) (a : Nat) : Byte := Memory.read s.mem a

/-- MemRead(a, 2) through the instruction cache (R53): an even address (R55) of backed memory (R60) in a line that is not
possibly stale (R63). -/
def State.fetchUnit (s : State) (a : Word) : Except Stop InstrUnit :=
  if a.getLsbD 0 then .error (.refused .misalignedPc)
  else
    match checkBacked s.plat.memMap a.toNat 2 with
    | .error e => .error e
    | .ok _ =>
      if s.stale.contains (a.toNat / lineBytes) then .error (.refused .staleFetch)
      else .ok ((Memory.readLE s.mem a.toNat 2).setWidth 16)

/-! ## The prefix state -/

/-- A `pre` or `lpre` is in effect. -/
def PrefixState.immInEffect (p : PrefixState) : Bool := p.preHave || p.lpreHave

/-- IndexInEffect (R37). -/
def PrefixState.indexInEffect (p : PrefixState) : Bool := p.rrHave || p.riHave

/-- PrefixInEffect (R120). -/
def PrefixState.inEffect (p : PrefixState) : Bool := p.immInEffect || p.indexInEffect

/-- No prefix in effect any more (R125); the latched data keeps its values and is dead (R37). -/
def PrefixState.cleared (p : PrefixState) : PrefixState :=
  { p with preHave := false, lpreHave := false, rrHave := false, riHave := false, usedByIndex := false }

/-- The pseudocode's IRQ gate, in this spec a function of the other bits (R37, R126). -/
def State.canServiceIrq (s : State) : Bool := !s.pfx.inEffect

/-! ## Ending an instruction -/

/-- The state at the next unit after an instruction that did not write `pc`: `pc + 2`, no prefix in effect (R120, R125). -/
def State.retired (s : State) : State := { s with pc := s.pc + 2#32, pfx := s.pfx.cleared }

/-- End an instruction that did not write `pc` (R120 step 4). -/
def retire (s : State) : Outcome := .next s.retired

/-- The state at `target` after an instruction that wrote `pc`. -/
def State.jumped (s : State) (target : Word) : State := { s with pc := target, pfx := s.pfx.cleared }

/-- End an instruction by a control transfer (R120 step 4, R125), refused when the target is odd (R55). -/
def jumpTo (target : Word) (s : State) : Outcome :=
  if target.getLsbD 0 then .refused .misalignedPc else .next (s.jumped target)

/-- End a valid prefix: the new prefix state, and `pc` past its units (R121, R122, R124). -/
def latch (p : PrefixState) (bytes : Word) (s : State) : Outcome := .next { s with pfx := p, pc := s.pc + bytes }

/-- An invalid prefix acts as a NOP that ends every prefix; one unit is consumed (R123). -/
def invalidPrefix (s : State) : Outcome := .next s.retired

/-- R99: an instruction that has an immediate field has no meaning when the `pre` or `lpre` in effect has already
expanded an index immediate. -/
def withImmediate (s : State) (k : Outcome) : Outcome :=
  if s.pfx.usedByIndex then .refused .prefixUsedTwice else k

/-! ## Interrupts -/

/-- The two causes of R301; a `swi` carries its number. -/
inductive Interrupt where
  | irq
  | swi (number : Word)
deriving DecidableEq, Repr

/-- The state after interrupt entry (R306): `ity`, `sty` for a `swi`, `ira`, `ie`, `pc`, and no prefix in effect. -/
def State.interrupted (s : State) (cause : Interrupt) (ret : Word) : State :=
  { s with
    ity := match cause with | .irq => false | .swi _ => true
    sty := match cause with | .irq => s.sty | .swi n => n
    ira := ret
    ie := false
    pc := s.ids
    pfx := s.pfx.cleared }

/-- TakeInterrupt(kind, n, ret) of R306, refused when `ids` is odd. -/
def takeInterrupt (cause : Interrupt) (ret : Word) (s : State) : Outcome :=
  if s.ids.getLsbD 0 then .refused .misalignedPc else .next (s.interrupted cause ret)

/-- Return from interrupt (R307): `ie <- 1; pc <- ira`, nothing else restored. -/
def returnFromInterrupt (s : State) : Outcome := jumpTo s.ira (s.setIe true)

/-! ## Step boundaries -/

/-- The sample of the present boundary. DESIGN CHOICE, unsafe for endless runs (log 5): IRQ_LINE (R6, R303) is open, a
function of time; here it is a finite list, and after the last listed sample `irq` is 0 for ever. Every finite run under
any IRQ_LINE is covered; a request that recurs or is held high without end is no state. -/
def State.irqSample (s : State) : IrqSample :=
  match s.irqLine with
  | [] => ⟨false, false⟩
  | x :: _ => x

/-- R120 step 1, R304: an IRQ may be taken at this boundary. -/
def State.irqEligible (s : State) : Bool := s.irqSample.irq && s.ie && s.canServiceIrq

/-- The IRQ is taken at this boundary: it is eligible and the choice of D37 is to serve it. -/
def State.irqTaken (s : State) : Bool := s.irqEligible && s.irqSample.serve

/-- The state past this boundary: its sample is consumed. -/
def State.pastBoundary (s : State) : State := { s with irqLine := s.irqLine.tail }

end Sys2Proof.Machine
end

