-- ==== Sys2Proof/Machine/Operands.lean ====
section
/-! DEFINITION. Operand forms: immediates and their expansion by a prefix (R95 to R98), effective addresses (R230, R280),
register pairs (R216, R220), the destinations named by an index (R212 to R217), the write of a sub-word shift (R283). -/

namespace Sys2Proof.Machine

/-! ## Immediates -/

/-- The immediate under `lpre` (R97): the low bits of `lpre.data` are every bit above the field, its own
high bits beyond bit 31 dropped. -/
def PrefixState.immLpre {w : Nat} (p : PrefixState) (i : BitVec w) : Word :=
  p.lpreData.setWidth 32 <<< w ||| i.setWidth 32

/-- The immediate under `pre` (R96): `pre.data` directly above the field, sign-extended. -/
def PrefixState.immPre {w : Nat} (p : PrefixState) (i : BitVec w) : Word := (p.preData ++ i).signExtend 32

/-- ImmS(w) of R98, of an operand written `simm`. -/
def State.immS {w : Nat} (s : State) (i : BitVec w) : Word :=
  if s.pfx.lpreHave then s.pfx.immLpre i
  else if s.pfx.preHave then s.pfx.immPre i
  else i.signExtend 32

/-- ImmU(w) of R98, of an operand written `imm`: zero-extended without a prefix, as ImmS with one. -/
def State.immU {w : Nat} (s : State) (i : BitVec w) : Word :=
  if s.pfx.lpreHave then s.pfx.immLpre i
  else if s.pfx.preHave then s.pfx.immPre i
  else i.setWidth 32

/-! ## Addresses -/

/-- EA of R230: `indexRegSum` when an index is in effect, else `x[b]`. -/
def State.ea (s : State) (b : RegNum) : Word := if s.pfx.indexInEffect then s.pfx.regSum else s.reg b

/-- The target of a branch (R180): `pc + simm + 2`. -/
def State.branchTarget (s : State) (i : BitVec 9) : Word := s.pc + s.immS i + 2#32

/-- The number of the line that `icreload` acts on: of EA' = (the indexed address or `x[a]`) + simm, bits 5:0 cleared
(R280). -/
def State.reloadLine (s : State) (a : RegNum) (i : BitVec 5) : Nat := (s.ea a + s.immS i).toNat / lineBytes

/-! ## Register pairs -/

/-- The even register of the pair a field selects: bit 0 of the field is ignored (R216). -/
def pairHigh (r : RegNum) : RegNum := r &&& 0xE#4

/-- The odd register of the pair a field selects (R216). -/
def pairLow (r : RegNum) : RegNum := pairHigh r + 1#4

/-- The 64-bit value of a pair, its even register holding bits 63:32 (R220). -/
def State.pair (s : State) (r : RegNum) : DWord :=
  (s.reg (pairHigh r)).setWidth 64 <<< 32 ||| (s.reg (pairLow r)).setWidth 64

/-- Bits 63:32 to `hi`, bits 31:0 to `lo` (R220). -/
def State.setPair (s : State) (hi lo : RegNum) (v : DWord) : State :=
  (s.setReg hi (v.extractLsb' 32 32)).setReg lo (v.extractLsb' 0 32)

/-! ## The destinations of multiply and divide -/

/-- End a 32-bit divide (R212, R213): the quotient to `a` and, with an index in effect, the remainder to `idxA`. -/
def divideResult (a : RegNum) (qr : Word × Word) (s : State) : Outcome :=
  if s.pfx.indexInEffect then
    if s.pfx.idxA = a then .refused .destinationOverlap
    else retire ((s.setReg s.pfx.idxA qr.2).setReg a qr.1)
  else retire (s.setReg a qr.1)

/-- End a 64-bit multiply (R214, R215): the product to `r0`, `r1` or, with an index in effect, to `idxA`, `idxB`. -/
def multiplyResult (p : DWord) (s : State) : Outcome :=
  if s.pfx.indexInEffect then
    if s.pfx.idxLast = .ri then .refused .noIndexRegB
    else if s.pfx.idxA = s.pfx.idxB then .refused .destinationOverlap
    else retire (s.setPair s.pfx.idxA s.pfx.idxB p)
  else retire (s.setPair 0#4 1#4 p)

/-- The remainder pair of a 64-bit divide overlaps itself or the quotient pair (R216). -/
def PrefixState.pairOverlap (p : PrefixState) (a : RegNum) : Bool :=
  p.idxA == p.idxB || p.idxA == pairHigh a || p.idxA == pairLow a || p.idxB == pairHigh a || p.idxB == pairLow a

/-- End a 64-bit divide (R216, R217): the quotient to the pair of `a` and, with an index in effect, the remainder to
`idxA`, `idxB`. -/
def divide64Result (a : RegNum) (qr : DWord × DWord) (s : State) : Outcome :=
  if s.pfx.indexInEffect then
    if s.pfx.idxLast = .ri then .refused .noIndexRegB
    else if s.pfx.pairOverlap a then .refused .destinationOverlap
    else retire ((s.setPair s.pfx.idxA s.pfx.idxB qr.2).setPair (pairHigh a) (pairLow a) qr.1)
  else retire (s.setPair (pairHigh a) (pairLow a) qr.1)

/-! ## Sub-word results -/

/-- The word whose low `n` bits are ones. -/
def lowMask (n : Nat) : Word := BitVec.ofNat 32 (2 ^ n - 1)

/-- What a sub-word shift of width `n` with result `t` writes over `old` (R283). -/
def subwordValue (p : SubwordShiftWrite) (n : Nat) (old t : Word) : Word :=
  match p with
  | .extend => t
  | .merge => old &&& ~~~lowMask n ||| t &&& lowMask n

end Sys2Proof.Machine
end

