-- ==== Sys2Proof/Machine/Control.lean ====
section
/-! DEFINITION. Group 4, opcodes 0x00 to 0x0a: jumps, interrupt control and the stack (R200 to R210, R218). An index in
effect is ignored by all of them (R218, R263). -/

namespace Sys2Proof.Machine

/-- `jl rA` (R200): both right-hand sides are old values. -/
def execJl (a : RegNum) (s : State) : Outcome := jumpTo (s.reg a) (s.setReg lr (s.pc + 2#32))

/-- `jmp rA` (R201). -/
def execJmp (a : RegNum) (s : State) : Outcome := jumpTo (s.reg a) s

/-- `jmp ira` (R202, R308): `ie` is not changed. -/
def execJmpIra (s : State) : Outcome := jumpTo s.ira s

/-- `reti` (R203, R307). -/
def execReti (s : State) : Outcome := returnFromInterrupt s

/-- `ei` (R204). -/
def execEi (s : State) : Outcome := retire (s.setIe true)

/-- `di` (R205). -/
def execDi (s : State) : Outcome := retire (s.setIe false)

/-- Push a word (R206, R207): stored at the old `x[b]`, which is then decremented by 4. -/
def pushWord (v : Word) (b : RegNum) (s : State) : Outcome :=
  andThen (s.store (s.reg b) 4 v) fun t => retire (t.setReg b (s.reg b - 4#32))

/-- Pop a word (R208 to R210): `x[b]` is incremented by 4, and the word there is handed on with that state. -/
def popWord (b : RegNum) (s : State) (k : Word → State → Outcome) : Outcome :=
  andThen (s.load (s.reg b + 4#32) 4) fun v => k v (s.setReg b (s.reg b + 4#32))

/-- `push rA, rB` (R206): "does nothing when rA is the same register as rB". -/
def execPush (a b : RegNum) (s : State) : Outcome := if a = b then retire s else pushWord (s.reg a) b s

/-- `push sA, rB` (R207). -/
def execPushSpr (a : Spr) (b : RegNum) (s : State) : Outcome := pushWord (s.spr a) b s

/-- `pop rA, rB` (R208): "does nothing when rA is the same register as rB". -/
def execPop (a b : RegNum) (s : State) : Outcome :=
  if a = b then retire s else popWord b s fun v t => retire (t.setReg a v)

/-- `pop sA, rB` (R209). -/
def execPopSpr (a : Spr) (b : RegNum) (s : State) : Outcome := popWord b s fun v t => retire (t.setSpr a v)

/-- `pop pc, rB` (R210). -/
def execPopPc (b : RegNum) (s : State) : Outcome := popWord b s fun v t => jumpTo v t

end Sys2Proof.Machine
end

