-- ==== Sys2Proof/Machine/Group0.lean ====
section
/-! DEFINITION. Groups 0 and 5: the prefixes `pre`, `lpre` (R121 to R123) and `index` (R260 to R264), and the atomics
(R129 to R133). One CPU is the only agent, so the lock bit makes no difference (R133, log 14). -/

namespace Sys2Proof.Machine

/-- `pre` (R121). -/
def execPre (i : BitVec 12) (s : State) : Outcome :=
  if s.pfx.immInEffect then invalidPrefix s
  else latch { s.pfx with preHave := true, preData := i } 2#32 s

/-- `lpre` (R122). An invalid one consumes only its first unit (R123). -/
def execLpre (i : BitVec 27) (s : State) : Outcome :=
  if s.pfx.immInEffect then invalidPrefix s
  else latch { s.pfx with lpreHave := true, lpreData := i } 4#32 s

/-- `index rA, rB` (R260). -/
def execIndexReg (a b : RegNum) (s : State) : Outcome :=
  if s.pfx.rrHave then invalidPrefix s
  else
    latch { s.pfx with
      regSum := (if s.pfx.riHave then s.pfx.regSum else s.reg a) + s.reg b
      idxA := a
      idxAval := s.reg a
      idxB := b
      regB := s.reg b
      idxLast := .rr
      rrHave := true } 2#32 s

/-- `index rA, #simm` (R261). The 7-bit immediate is expanded by a `pre` or `lpre` in effect, which stays in effect. -/
def execIndexImm (a : RegNum) (i : BitVec 7) (s : State) : Outcome :=
  if s.pfx.riHave then invalidPrefix s
  else
    latch { s.pfx with
      usedByIndex := s.pfx.usedByIndex || s.pfx.immInEffect
      regSum := (if s.pfx.rrHave then s.pfx.regSum else s.reg a) + s.immS i
      idxA := a
      idxAval := s.reg a
      regB := s.immS i
      idxLast := .ri
      riHave := true } 2#32 s

/-- `xchg rA, rB` (R129): both right-hand sides are old values. -/
def execXchg (a b : RegNum) (s : State) : Outcome := retire ((s.setReg a (s.reg b)).setReg b (s.reg a))

/-- The exchange of `x[b]` with the word at `x[a]` (R130). -/
def exchangeWord (a b : RegNum) (s : State) : Outcome :=
  andThen (s.load (s.reg a) 4) fun old =>
    andThen (s.store (s.reg a) 4 (s.reg b)) fun t => retire (t.setReg b old)

/-- The compare and exchange of R131: on equality with the expected value `idxAval` the word at `x[a]` becomes `x[b]`;
Z says which; no register is written. -/
def compareExchangeWord (a b : RegNum) (s : State) : Outcome :=
  andThen (s.load (s.reg a) 4) fun old =>
    if old = s.pfx.idxAval then
      andThen (s.store (s.reg a) 4 (s.reg b)) fun t => retire (t.setFlags { s.flags with z := true })
    else retire (s.setFlags { s.flags with z := false })

/-- `xchg.l [rA], rB` (R130). -/
def execXchgL (a b : RegNum) (s : State) : Outcome := exchangeWord a b s

/-- `cmpxchg [rA], rC, rB` (R131). -/
def execCmpxchg (a b : RegNum) (s : State) : Outcome := compareExchangeWord a b s

/-- `cmpxchg.l [rA], rC, rB` (R132). -/
def execCmpxchgL (a b : RegNum) (s : State) : Outcome := compareExchangeWord a b s

end Sys2Proof.Machine
end

