-- ==== Sys2Proof/Machine/Arith.lean ====
section
/-! DEFINITION. The arithmetic the instructions share: shifts (R157), bit ranges (R153, R154), multiplication (R214, R215)
and division (R219). -/

namespace Sys2Proof.Machine

/-! ## Shifts -/

/-- LSL32 of R157; the amount is the whole word, unsigned. -/
def lsl32 (v n : Word) : Word := if 32 ≤ n.toNat then 0#32 else v <<< n.toNat

/-- LSR32 of R157. -/
def lsr32 (v n : Word) : Word := if 32 ≤ n.toNat then 0#32 else v >>> n.toNat

/-- ASR32 of R157: from an amount of 32 on, copies of the sign bit. -/
def asr32 (v n : Word) : Word :=
  if 32 ≤ n.toNat then (if v.msb then BitVec.allOnes 32 else 0#32) else v.sshiftRight n.toNat

/-! ## Bit ranges -/

/-- `ze` (R153): bits `k-1:0` kept, bits `31:k` cleared. -/
def zeroFrom (v : Word) (k : Nat) : Word := v &&& BitVec.ofNat 32 (2 ^ k - 1)

/-- `se` (R154): bits `k:0` kept, bit `k` copied into bits `31:k+1`. -/
def signFrom (v : Word) (k : Nat) : Word := (v.setWidth (k + 1)).signExtend 32

/-! ## Multiplication -/

/-- The exact unsigned product (R214). -/
def unsignedProduct (a b : Word) : DWord := BitVec.ofNat 64 (a.toNat * b.toNat)

/-- The exact signed product as a 64-bit two's-complement value (R215). -/
def signedProduct (a b : Word) : DWord := BitVec.ofInt 64 (a.toInt * b.toInt)

/-! ## Division: quotient and remainder -/

/-- Unsigned division rounds down (R219); a zero divisor gives the free value DIV_ZERO. -/
def unsignedDivide (n d : Word) : Word × Word :=
  if d = 0#32 then Config.divZero32 false n
  else (BitVec.ofNat 32 (n.toNat / d.toNat), BitVec.ofNat 32 (n.toNat % d.toNat))

/-- Signed division truncates toward zero, the remainder is `n - q * d` (R213, R219); a zero divisor and -2^31 by -1 give
the free values DIV_ZERO and DIV_OVERFLOW. -/
def signedDivide (n d : Word) : Word × Word :=
  if d = 0#32 then Config.divZero32 true n
  else if n = BitVec.intMin 32 ∧ d = BitVec.allOnes 32 then Config.divOverflow32 n
  else
    let q := n.toInt.tdiv d.toInt
    (BitVec.ofInt 32 q, BitVec.ofInt 32 (n.toInt - q * d.toInt))

/-- The 64-bit unsigned division of R216. -/
def unsignedDivide64 (n d : DWord) : DWord × DWord :=
  if d = 0#64 then Config.divZero64 false n
  else (BitVec.ofNat 64 (n.toNat / d.toNat), BitVec.ofNat 64 (n.toNat % d.toNat))

/-- The 64-bit signed division of R217. -/
def signedDivide64 (n d : DWord) : DWord × DWord :=
  if d = 0#64 then Config.divZero64 true n
  else if n = BitVec.intMin 64 ∧ d = BitVec.allOnes 64 then Config.divOverflow64 n
  else
    let q := n.toInt.tdiv d.toInt
    (BitVec.ofInt 64 q, BitVec.ofInt 64 (n.toInt - q * d.toInt))

end Sys2Proof.Machine
end

