-- ==== Sys2Proof/Machine/Group1.lean ====
section
/-! DEFINITION. Group 1, register with 5-bit immediate (R140 to R156). An index in effect is ignored; a prefix that has
already expanded an index immediate makes the instruction refused (R140, R99). -/

namespace Sys2Proof.Machine

/-- Write `rA` from the expanded `simm` and end the instruction (R140). -/
def immediateResult (a : RegNum) (v : Word) (s : State) : Outcome := withImmediate s (retire (s.setReg a v))

/-- `add rA, #simm` (R141). -/
def execAddImm (a : RegNum) (i : BitVec 5) (s : State) : Outcome := immediateResult a (s.reg a + s.immS i) s

/-- `add rA, pc, #simm` (R142). -/
def execAddPc (a : RegNum) (i : BitVec 5) (s : State) : Outcome := immediateResult a (s.pc + s.immS i + 2#32) s

/-- `add rA, sp, #simm` (R143). -/
def execAddSp (a : RegNum) (i : BitVec 5) (s : State) : Outcome := immediateResult a (s.reg sp + s.immS i) s

/-- `add rA, fp, #simm` (R144). -/
def execAddFp (a : RegNum) (i : BitVec 5) (s : State) : Outcome := immediateResult a (s.reg fp + s.immS i) s

/-- `cmp rA, #simm` (R145): the flags of `x[a] - simm`, no register written. -/
def execCmpImm (a : RegNum) (i : BitVec 5) (s : State) : Outcome :=
  withImmediate s (retire (s.setFlags (subtract (s.reg a) (s.immS i)).2))

/-- `cpy rA, #simm` (R146). -/
def execCpyImm (a : RegNum) (i : BitVec 5) (s : State) : Outcome := immediateResult a (s.immS i) s

/-- `lsl rA, #imm` (R147). -/
def execLslImm (a : RegNum) (i : BitVec 5) (s : State) : Outcome := immediateResult a (lsl32 (s.reg a) (s.immU i)) s

/-- `lsr rA, #imm` (R148). -/
def execLsrImm (a : RegNum) (i : BitVec 5) (s : State) : Outcome := immediateResult a (lsr32 (s.reg a) (s.immU i)) s

/-- `asr rA, #imm` (R149). -/
def execAsrImm (a : RegNum) (i : BitVec 5) (s : State) : Outcome := immediateResult a (asr32 (s.reg a) (s.immU i)) s

/-- `and rA, #simm` (R150). -/
def execAndImm (a : RegNum) (i : BitVec 5) (s : State) : Outcome := immediateResult a (s.reg a &&& s.immS i) s

/-- `orr rA, #simm` (R151). -/
def execOrrImm (a : RegNum) (i : BitVec 5) (s : State) : Outcome := immediateResult a (s.reg a ||| s.immS i) s

/-- `xor rA, #simm` (R152). -/
def execXorImm (a : RegNum) (i : BitVec 5) (s : State) : Outcome := immediateResult a (s.reg a ^^^ s.immS i) s

/-- R153, R154: an expanded immediate that names no bit of the register is refused. -/
def withBitIndex (k : Word) (s : State) (go : Nat → Outcome) : Outcome :=
  withImmediate s (if k.toNat < 32 then go k.toNat else .refused .bitIndexOutOfRange)

/-- `ze rA, #imm` (R153). -/
def execZe (a : RegNum) (i : BitVec 5) (s : State) : Outcome :=
  withBitIndex (s.immU i) s fun k => retire (s.setReg a (zeroFrom (s.reg a) k))

/-- `se rA, #imm` (R154). -/
def execSe (a : RegNum) (i : BitVec 5) (s : State) : Outcome :=
  withBitIndex (s.immU i) s fun k => retire (s.setReg a (signFrom (s.reg a) k))

/-- `swi rA, #simm` (R155): the software interrupt number `x[a] + simm`, returning to the unit after this one. -/
def execSwiReg (a : RegNum) (i : BitVec 5) (s : State) : Outcome :=
  withImmediate s (takeInterrupt (.swi (s.reg a + s.immS i)) (s.pc + 2#32) s)

/-- `swi #imm` (R156). -/
def execSwi (i : BitVec 5) (s : State) : Outcome :=
  withImmediate s (takeInterrupt (.swi (s.immU i)) (s.pc + 2#32) s)

end Sys2Proof.Machine
end

