-- ==== Sys2Proof/Machine/Group2.lean ====
section
/-! DEFINITION. Group 2, register with register (R160 to R175). A plain mnemonic leaves `flags`, its `.f` form writes the
flags its rule lists; `cmp` and `cmpbc` always write them. Prefixes in effect are ignored and cleared (R160). -/

namespace Sys2Proof.Machine

/-- Write a sum or difference to `rA` and, when `f` is set, all four flags (R160, R161). -/
def sumResult (f : Bool) (a : RegNum) (r : Word × Flags) (s : State) : Outcome :=
  retire (if f then (s.setReg a r.1).setFlags r.2 else s.setReg a r.1)

/-- Write a copy, shift or bitwise result to `rA` and, when `f` is set, Z and N (R160, R34). -/
def bitsResult (f : Bool) (a : RegNum) (r : Word) (s : State) : Outcome :=
  retire (if f then (s.setReg a r).setFlags (s.flags.withZN r) else s.setReg a r)

/-- Write only the four flags (R165, R175, R270, R271). -/
def compareResult (f : Flags) (s : State) : Outcome := retire (s.setFlags f)

/-- `add rA, rB` (R161). -/
def execAdd (a b : RegNum) (s : State) : Outcome := sumResult false a (addWithCarry (s.reg a) (s.reg b) false) s

/-- `add.f rA, rB` (R161). -/
def execAddF (a b : RegNum) (s : State) : Outcome := sumResult true a (addWithCarry (s.reg a) (s.reg b) false) s

/-- `sub rA, rB` (R162). -/
def execSub (a b : RegNum) (s : State) : Outcome := sumResult false a (subtract (s.reg a) (s.reg b)) s

/-- `sub.f rA, rB` (R162). -/
def execSubF (a b : RegNum) (s : State) : Outcome := sumResult true a (subtract (s.reg a) (s.reg b)) s

/-- `add rA, sp, rB` (R163). -/
def execAddSpReg (a b : RegNum) (s : State) : Outcome := sumResult false a (addWithCarry (s.reg sp) (s.reg b) false) s

/-- `add.f rA, sp, rB` (R163). -/
def execAddSpRegF (a b : RegNum) (s : State) : Outcome := sumResult true a (addWithCarry (s.reg sp) (s.reg b) false) s

/-- `add rA, fp, rB` (R164). -/
def execAddFpReg (a b : RegNum) (s : State) : Outcome := sumResult false a (addWithCarry (s.reg fp) (s.reg b) false) s

/-- `add.f rA, fp, rB` (R164). -/
def execAddFpRegF (a b : RegNum) (s : State) : Outcome := sumResult true a (addWithCarry (s.reg fp) (s.reg b) false) s

/-- `cmp rA, rB` (R165). -/
def execCmp (a b : RegNum) (s : State) : Outcome := compareResult (subtract (s.reg a) (s.reg b)).2 s

/-- `cpy rA, rB` (R166). -/
def execCpy (a b : RegNum) (s : State) : Outcome := bitsResult false a (s.reg b) s

/-- `cpy.f rA, rB` (R166). -/
def execCpyF (a b : RegNum) (s : State) : Outcome := bitsResult true a (s.reg b) s

/-- `lsl rA, rB` (R167). -/
def execLsl (a b : RegNum) (s : State) : Outcome := bitsResult false a (lsl32 (s.reg a) (s.reg b)) s

/-- `lsl.f rA, rB` (R167). -/
def execLslF (a b : RegNum) (s : State) : Outcome := bitsResult true a (lsl32 (s.reg a) (s.reg b)) s

/-- `lsr rA, rB` (R168). -/
def execLsr (a b : RegNum) (s : State) : Outcome := bitsResult false a (lsr32 (s.reg a) (s.reg b)) s

/-- `lsr.f rA, rB` (R168). -/
def execLsrF (a b : RegNum) (s : State) : Outcome := bitsResult true a (lsr32 (s.reg a) (s.reg b)) s

/-- `asr rA, rB` (R169). -/
def execAsr (a b : RegNum) (s : State) : Outcome := bitsResult false a (asr32 (s.reg a) (s.reg b)) s

/-- `asr.f rA, rB` (R169). -/
def execAsrF (a b : RegNum) (s : State) : Outcome := bitsResult true a (asr32 (s.reg a) (s.reg b)) s

/-- `and rA, rB` (R170). -/
def execAnd (a b : RegNum) (s : State) : Outcome := bitsResult false a (s.reg a &&& s.reg b) s

/-- `and.f rA, rB` (R170). -/
def execAndF (a b : RegNum) (s : State) : Outcome := bitsResult true a (s.reg a &&& s.reg b) s

/-- `orr rA, rB` (R171). -/
def execOrr (a b : RegNum) (s : State) : Outcome := bitsResult false a (s.reg a ||| s.reg b) s

/-- `orr.f rA, rB` (R171). -/
def execOrrF (a b : RegNum) (s : State) : Outcome := bitsResult true a (s.reg a ||| s.reg b) s

/-- `xor rA, rB` (R172). -/
def execXor (a b : RegNum) (s : State) : Outcome := bitsResult false a (s.reg a ^^^ s.reg b) s

/-- `xor.f rA, rB` (R172). -/
def execXorF (a b : RegNum) (s : State) : Outcome := bitsResult true a (s.reg a ^^^ s.reg b) s

/-- `adc rA, rB` (R173). -/
def execAdc (a b : RegNum) (s : State) : Outcome := sumResult false a (addWithCarry (s.reg a) (s.reg b) s.flags.c) s

/-- `adc.f rA, rB` (R173). -/
def execAdcF (a b : RegNum) (s : State) : Outcome := sumResult true a (addWithCarry (s.reg a) (s.reg b) s.flags.c) s

/-- `sbc rA, rB` (R174). -/
def execSbc (a b : RegNum) (s : State) : Outcome := sumResult false a (addWithCarry (s.reg a) (~~~s.reg b) s.flags.c) s

/-- `sbc.f rA, rB` (R174). -/
def execSbcF (a b : RegNum) (s : State) : Outcome := sumResult true a (addWithCarry (s.reg a) (~~~s.reg b) s.flags.c) s

/-- `cmpbc rA, rB` (R175). -/
def execCmpbc (a b : RegNum) (s : State) : Outcome :=
  compareResult (s.flags.compareWithBorrow (s.reg a) (s.reg b)) s

end Sys2Proof.Machine
end

