-- ==== Sys2Proof/Machine/Group3.lean ====
section
/-! DEFINITION. Group 3, relative branches (R180 to R197). They read `flags` and never write them; an untaken branch goes
on at `pc + 2` whatever its offset; a prefix that has already expanded an index immediate refuses it (R180, R99). -/

namespace Sys2Proof.Machine

/-- Branch when the condition holds (R180). -/
def branchIf (cond : Bool) (i : BitVec 9) (s : State) : Outcome :=
  withImmediate s (if cond then jumpTo (s.branchTarget i) s else retire s)

/-- `bl simm` (R181): `lr` receives the address of the next unit. -/
def execBl (i : BitVec 9) (s : State) : Outcome :=
  withImmediate s (jumpTo (s.branchTarget i) (s.setReg lr (s.pc + 2#32)))

/-- `bra simm` (R182). -/
def execBra (i : BitVec 9) (s : State) : Outcome := branchIf true i s

/-- `beq simm` (R183). -/
def execBeq (i : BitVec 9) (s : State) : Outcome := branchIf s.flags.z i s

/-- `bne simm` (R184). -/
def execBne (i : BitVec 9) (s : State) : Outcome := branchIf (!s.flags.z) i s

/-- `bmi simm` (R185). -/
def execBmi (i : BitVec 9) (s : State) : Outcome := branchIf s.flags.n i s

/-- `bpl simm` (R186). -/
def execBpl (i : BitVec 9) (s : State) : Outcome := branchIf (!s.flags.n) i s

/-- `bvs simm` (R187). -/
def execBvs (i : BitVec 9) (s : State) : Outcome := branchIf s.flags.v i s

/-- `bvc simm` (R188). -/
def execBvc (i : BitVec 9) (s : State) : Outcome := branchIf (!s.flags.v) i s

/-- `bgeu simm` (R189). -/
def execBgeu (i : BitVec 9) (s : State) : Outcome := branchIf s.flags.c i s

/-- `bltu simm` (R190). -/
def execBltu (i : BitVec 9) (s : State) : Outcome := branchIf (!s.flags.c) i s

/-- `bgtu simm` (R191). -/
def execBgtu (i : BitVec 9) (s : State) : Outcome := branchIf s.flags.higher i s

/-- `bleu simm` (R192). -/
def execBleu (i : BitVec 9) (s : State) : Outcome := branchIf (!s.flags.c || s.flags.z) i s

/-- `bges simm` (R193). -/
def execBges (i : BitVec 9) (s : State) : Outcome := branchIf (!s.flags.less) i s

/-- `blts simm` (R194). -/
def execBlts (i : BitVec 9) (s : State) : Outcome := branchIf s.flags.less i s

/-- `bgts simm` (R195). -/
def execBgts (i : BitVec 9) (s : State) : Outcome := branchIf s.flags.greater i s

/-- `bles simm` (R196). -/
def execBles (i : BitVec 9) (s : State) : Outcome := branchIf (s.flags.less || s.flags.z) i s

end Sys2Proof.Machine
end

