-- ==== Sys2Proof/Machine/Group7.lean ====
section
/-! DEFINITION. Group 7: sub-word compares and shifts (R270 to R275, R283), special-purpose register loads and stores
(R276 to R279), and the instruction-cache operations (R280, R281). -/

namespace Sys2Proof.Machine

/-- `cmpb rA, rB` (R270). -/
def execCmpb (a b : RegNum) (s : State) : Outcome :=
  compareResult (subtract ((s.reg a).setWidth 8) ((s.reg b).setWidth 8)).2 s

/-- `cmph rA, rB` (R271). -/
def execCmph (a b : RegNum) (s : State) : Outcome :=
  compareResult (subtract ((s.reg a).setWidth 16) ((s.reg b).setWidth 16)).2 s

/-- Write the result `t` of a sub-word shift of width `n` to `rA` (R283). -/
def subwordResult (a : RegNum) (n : Nat) (t : Word) (s : State) : Outcome :=
  retire (s.setReg a (subwordValue s.plat.subwordWrite n (s.reg a) t))

/-- `lsrb rA, rB` (R272). -/
def execLsrb (a b : RegNum) (s : State) : Outcome :=
  subwordResult a 8 (lsr32 (((s.reg a).setWidth 8).setWidth 32) (s.reg b)) s

/-- `lsrh rA, rB` (R273). -/
def execLsrh (a b : RegNum) (s : State) : Outcome :=
  subwordResult a 16 (lsr32 (((s.reg a).setWidth 16).setWidth 32) (s.reg b)) s

/-- `asrb rA, rB` (R274). -/
def execAsrb (a b : RegNum) (s : State) : Outcome :=
  subwordResult a 8 (asr32 (((s.reg a).setWidth 8).signExtend 32) (s.reg b)) s

/-- `asrh rA, rB` (R275). -/
def execAsrh (a b : RegNum) (s : State) : Outcome :=
  subwordResult a 16 (asr32 (((s.reg a).setWidth 16).signExtend 32) (s.reg b)) s

/-- Load the special-purpose register `sA` from a word of memory (R276, R277); no index is used. -/
def loadSpr (a : Spr) (addr : Word) (s : State) : Outcome :=
  andThen (s.load addr 4) fun v => retire (s.setSpr a v)

/-- Store the special-purpose register `sA` to a word of memory (R278, R279); no index is used. -/
def storeSpr (a : Spr) (addr : Word) (s : State) : Outcome :=
  andThen (s.store addr 4 (s.spr a)) fun t => retire t

/-- `ldr sA, [rB]` (R276). -/
def execLdrSpr (a : Spr) (b : RegNum) (s : State) : Outcome := loadSpr a (s.reg b) s

/-- `ldr sA, [sB]` (R277). -/
def execLdrSprSpr (a b : Spr) (s : State) : Outcome := loadSpr a (s.spr b) s

/-- `str sA, [rB]` (R278). -/
def execStrSpr (a : Spr) (b : RegNum) (s : State) : Outcome := storeSpr a (s.reg b) s

/-- `str sA, [sB]` (R279). -/
def execStrSprSpr (a b : Spr) (s : State) : Outcome := storeSpr a (s.spr b) s

/-- `icreload [rA, #simm]` (R280): the line's fetches now see the data side; the fill reads the line's 64 bytes, which
the platform must back (R56, R60, log 13). -/
def execIcreload (a : RegNum) (i : BitVec 5) (s : State) : Outcome :=
  let line := s.reloadLine a i
  withImmediate s
    (andThen (checkBacked s.plat.memMap (line * lineBytes) lineBytes) fun _ =>
      retire { s with stale := Stale.clear s.stale line })

/-- `icflush` (R281): every line is invalid, so no line is stale. -/
def execIcflush (s : State) : Outcome := retire { s with stale := [] }

end Sys2Proof.Machine
end

