-- ==== Sys2Proof/Machine/LoadStore.lean ====
section
/-! DEFINITION. Group 4, opcodes 0x12 to 0x1e: loads, stores and special-purpose register copies (R230 to R241). -/

namespace Sys2Proof.Machine

/-- Load `n` bytes at the effective address into `rA`, extended by `ext` (R230, R56). -/
def loadInto (a b : RegNum) (n : Nat) (ext : Word → Word) (s : State) : Outcome :=
  andThen (s.load (s.ea b) n) fun v => retire (s.setReg a (ext v))

/-- Store the low `n` bytes of `x[a]` at the effective address (R230, R56). -/
def storeFrom (a b : RegNum) (n : Nat) (s : State) : Outcome :=
  andThen (s.store (s.ea b) n (s.reg a)) fun t => retire t

/-- `ldub rA, [rB]` (R231). -/
def execLdub (a b : RegNum) (s : State) : Outcome := loadInto a b 1 (fun v => (v.setWidth 8).setWidth 32) s

/-- `ldsb rA, [rB]` (R232). -/
def execLdsb (a b : RegNum) (s : State) : Outcome := loadInto a b 1 (fun v => (v.setWidth 8).signExtend 32) s

/-- `lduh rA, [rB]` (R233). -/
def execLduh (a b : RegNum) (s : State) : Outcome := loadInto a b 2 (fun v => (v.setWidth 16).setWidth 32) s

/-- `ldsh rA, [rB]` (R234). -/
def execLdsh (a b : RegNum) (s : State) : Outcome := loadInto a b 2 (fun v => (v.setWidth 16).signExtend 32) s

/-- `ldr rA, [rB]` (R235). -/
def execLdr (a b : RegNum) (s : State) : Outcome := loadInto a b 4 (fun v => v) s

/-- `stb rA, [rB]` (R236). -/
def execStb (a b : RegNum) (s : State) : Outcome := storeFrom a b 1 s

/-- `sth rA, [rB]` (R237). -/
def execSth (a b : RegNum) (s : State) : Outcome := storeFrom a b 2 s

/-- `str rA, [rB]` (R238). -/
def execStr (a b : RegNum) (s : State) : Outcome := storeFrom a b 4 s

/-- `cpy rA, sB` (R239). -/
def execCpyFromSpr (a : RegNum) (b : Spr) (s : State) : Outcome := retire (s.setReg a (s.spr b))

/-- `cpy sA, rB` (R240). -/
def execCpyToSpr (a : Spr) (b : RegNum) (s : State) : Outcome := retire (s.setSpr a (s.reg b))

/-- `cpy sA, sB` (R241). -/
def execCpySprSpr (a b : Spr) (s : State) : Outcome := retire (s.setSpr a (s.spr b))

end Sys2Proof.Machine
end

