-- ==== Sys2Proof/Machine/MulDiv.lean ====
section
/-! DEFINITION. Group 4, opcodes 0x0b to 0x11: multiply and divide (R211 to R217, R219, R220). No flag changes and none of
them traps (R218, R219). -/

namespace Sys2Proof.Machine

/-- `mul rA, rB` (R211). -/
def execMul (a b : RegNum) (s : State) : Outcome := retire (s.setReg a (s.reg a * s.reg b))

/-- `udiv rA, rB`, and `udivmod rA, rB, rC` with an index in effect (R212). -/
def execUdiv (a b : RegNum) (s : State) : Outcome := divideResult a (unsignedDivide (s.reg a) (s.reg b)) s

/-- `sdiv rA, rB`, and `sdivmod rA, rB, rC` with an index in effect (R213). -/
def execSdiv (a b : RegNum) (s : State) : Outcome := divideResult a (signedDivide (s.reg a) (s.reg b)) s

/-- `lumul rA, rB`, and `lumul rC, rD, rA, rB` with an index in effect (R214). -/
def execLumul (a b : RegNum) (s : State) : Outcome := multiplyResult (unsignedProduct (s.reg a) (s.reg b)) s

/-- `lsmul rA, rB`, and `lsmul rC, rD, rA, rB` with an index in effect (R215). -/
def execLsmul (a b : RegNum) (s : State) : Outcome := multiplyResult (signedProduct (s.reg a) (s.reg b)) s

/-- `udiv64 rA, rB`, and `udivmod64 rA, rB, rC, rD` with an index in effect (R216). -/
def execUdiv64 (a b : RegNum) (s : State) : Outcome := divide64Result a (unsignedDivide64 (s.pair a) (s.pair b)) s

/-- `sdiv64 rA, rB`, and `sdivmod64 rA, rB, rC, rD` with an index in effect (R217). -/
def execSdiv64 (a b : RegNum) (s : State) : Outcome := divide64Result a (signedDivide64 (s.pair a) (s.pair b)) s

end Sys2Proof.Machine
end

