-- ==== Sys2Proof/Machine/Dispatch.lean ====
section
/-! DEFINITION. The dispatch: one arm per constructor of `Instr`, each one direct call of the instruction's meaning. -/

namespace Sys2Proof.Machine

def exec (i : Instr) (s : State) : Host.Outcome State Fault Refusal :=
  match i with
  | .pre imm => Sys2Proof.Machine.execPre imm s
  | .lpre imm => Sys2Proof.Machine.execLpre imm s
  | .xchg a b => Sys2Proof.Machine.execXchg a b s
  | .xchgL a b => Sys2Proof.Machine.execXchgL a b s
  | .cmpxchg a b => Sys2Proof.Machine.execCmpxchg a b s
  | .cmpxchgL a b => Sys2Proof.Machine.execCmpxchgL a b s
  | .addImm a imm => Sys2Proof.Machine.execAddImm a imm s
  | .addPc a imm => Sys2Proof.Machine.execAddPc a imm s
  | .addSp a imm => Sys2Proof.Machine.execAddSp a imm s
  | .addFp a imm => Sys2Proof.Machine.execAddFp a imm s
  | .cmpImm a imm => Sys2Proof.Machine.execCmpImm a imm s
  | .cpyImm a imm => Sys2Proof.Machine.execCpyImm a imm s
  | .lslImm a imm => Sys2Proof.Machine.execLslImm a imm s
  | .lsrImm a imm => Sys2Proof.Machine.execLsrImm a imm s
  | .asrImm a imm => Sys2Proof.Machine.execAsrImm a imm s
  | .andImm a imm => Sys2Proof.Machine.execAndImm a imm s
  | .orrImm a imm => Sys2Proof.Machine.execOrrImm a imm s
  | .xorImm a imm => Sys2Proof.Machine.execXorImm a imm s
  | .ze a imm => Sys2Proof.Machine.execZe a imm s
  | .se a imm => Sys2Proof.Machine.execSe a imm s
  | .swiReg a imm => Sys2Proof.Machine.execSwiReg a imm s
  | .swi imm => Sys2Proof.Machine.execSwi imm s
  | .add a b => Sys2Proof.Machine.execAdd a b s
  | .addF a b => Sys2Proof.Machine.execAddF a b s
  | .sub a b => Sys2Proof.Machine.execSub a b s
  | .subF a b => Sys2Proof.Machine.execSubF a b s
  | .addSpReg a b => Sys2Proof.Machine.execAddSpReg a b s
  | .addSpRegF a b => Sys2Proof.Machine.execAddSpRegF a b s
  | .addFpReg a b => Sys2Proof.Machine.execAddFpReg a b s
  | .addFpRegF a b => Sys2Proof.Machine.execAddFpRegF a b s
  | .cmp a b => Sys2Proof.Machine.execCmp a b s
  | .cpy a b => Sys2Proof.Machine.execCpy a b s
  | .cpyF a b => Sys2Proof.Machine.execCpyF a b s
  | .lsl a b => Sys2Proof.Machine.execLsl a b s
  | .lslF a b => Sys2Proof.Machine.execLslF a b s
  | .lsr a b => Sys2Proof.Machine.execLsr a b s
  | .lsrF a b => Sys2Proof.Machine.execLsrF a b s
  | .asr a b => Sys2Proof.Machine.execAsr a b s
  | .asrF a b => Sys2Proof.Machine.execAsrF a b s
  | .and a b => Sys2Proof.Machine.execAnd a b s
  | .andF a b => Sys2Proof.Machine.execAndF a b s
  | .orr a b => Sys2Proof.Machine.execOrr a b s
  | .orrF a b => Sys2Proof.Machine.execOrrF a b s
  | .xor a b => Sys2Proof.Machine.execXor a b s
  | .xorF a b => Sys2Proof.Machine.execXorF a b s
  | .adc a b => Sys2Proof.Machine.execAdc a b s
  | .adcF a b => Sys2Proof.Machine.execAdcF a b s
  | .sbc a b => Sys2Proof.Machine.execSbc a b s
  | .sbcF a b => Sys2Proof.Machine.execSbcF a b s
  | .cmpbc a b => Sys2Proof.Machine.execCmpbc a b s
  | .bl imm => Sys2Proof.Machine.execBl imm s
  | .bra imm => Sys2Proof.Machine.execBra imm s
  | .beq imm => Sys2Proof.Machine.execBeq imm s
  | .bne imm => Sys2Proof.Machine.execBne imm s
  | .bmi imm => Sys2Proof.Machine.execBmi imm s
  | .bpl imm => Sys2Proof.Machine.execBpl imm s
  | .bvs imm => Sys2Proof.Machine.execBvs imm s
  | .bvc imm => Sys2Proof.Machine.execBvc imm s
  | .bgeu imm => Sys2Proof.Machine.execBgeu imm s
  | .bltu imm => Sys2Proof.Machine.execBltu imm s
  | .bgtu imm => Sys2Proof.Machine.execBgtu imm s
  | .bleu imm => Sys2Proof.Machine.execBleu imm s
  | .bges imm => Sys2Proof.Machine.execBges imm s
  | .blts imm => Sys2Proof.Machine.execBlts imm s
  | .bgts imm => Sys2Proof.Machine.execBgts imm s
  | .bles imm => Sys2Proof.Machine.execBles imm s
  | .jl a => Sys2Proof.Machine.execJl a s
  | .jmp a => Sys2Proof.Machine.execJmp a s
  | .jmpIra => Sys2Proof.Machine.execJmpIra s
  | .reti => Sys2Proof.Machine.execReti s
  | .ei => Sys2Proof.Machine.execEi s
  | .di => Sys2Proof.Machine.execDi s
  | .push a b => Sys2Proof.Machine.execPush a b s
  | .pushSpr a b => Sys2Proof.Machine.execPushSpr a b s
  | .pop a b => Sys2Proof.Machine.execPop a b s
  | .popSpr a b => Sys2Proof.Machine.execPopSpr a b s
  | .popPc b => Sys2Proof.Machine.execPopPc b s
  | .mul a b => Sys2Proof.Machine.execMul a b s
  | .udiv a b => Sys2Proof.Machine.execUdiv a b s
  | .sdiv a b => Sys2Proof.Machine.execSdiv a b s
  | .lumul a b => Sys2Proof.Machine.execLumul a b s
  | .lsmul a b => Sys2Proof.Machine.execLsmul a b s
  | .udiv64 a b => Sys2Proof.Machine.execUdiv64 a b s
  | .sdiv64 a b => Sys2Proof.Machine.execSdiv64 a b s
  | .ldub a b => Sys2Proof.Machine.execLdub a b s
  | .ldsb a b => Sys2Proof.Machine.execLdsb a b s
  | .lduh a b => Sys2Proof.Machine.execLduh a b s
  | .ldsh a b => Sys2Proof.Machine.execLdsh a b s
  | .ldr a b => Sys2Proof.Machine.execLdr a b s
  | .stb a b => Sys2Proof.Machine.execStb a b s
  | .sth a b => Sys2Proof.Machine.execSth a b s
  | .str a b => Sys2Proof.Machine.execStr a b s
  | .cpyFromSpr a b => Sys2Proof.Machine.execCpyFromSpr a b s
  | .cpyToSpr a b => Sys2Proof.Machine.execCpyToSpr a b s
  | .cpySprSpr a b => Sys2Proof.Machine.execCpySprSpr a b s
  | .indexReg a b => Sys2Proof.Machine.execIndexReg a b s
  | .indexImm a imm => Sys2Proof.Machine.execIndexImm a imm s
  | .cmpb a b => Sys2Proof.Machine.execCmpb a b s
  | .lsrb a b => Sys2Proof.Machine.execLsrb a b s
  | .asrb a b => Sys2Proof.Machine.execAsrb a b s
  | .cmph a b => Sys2Proof.Machine.execCmph a b s
  | .lsrh a b => Sys2Proof.Machine.execLsrh a b s
  | .asrh a b => Sys2Proof.Machine.execAsrh a b s
  | .ldrSpr a b => Sys2Proof.Machine.execLdrSpr a b s
  | .ldrSprSpr a b => Sys2Proof.Machine.execLdrSprSpr a b s
  | .strSpr a b => Sys2Proof.Machine.execStrSpr a b s
  | .strSprSpr a b => Sys2Proof.Machine.execStrSprSpr a b s
  | .icreload a imm => Sys2Proof.Machine.execIcreload a imm s
  | .icflush => Sys2Proof.Machine.execIcflush s

end Sys2Proof.Machine
end

