-- ==== Sys2Proof/WellFormed.lean ====
section
/-! DEFINITION. Well-formed instructions. Every field has exactly the width of its encoding and a special-purpose
register operand names one of the six registers, so the one condition left is R54's on branch offsets. An ill-formed
branch still decodes, and is refused when it is taken (R55, R180). -/

namespace Sys2Proof

/-- R54: "Branch offsets encoded into instructions must be 16-bit aligned, or in other words bit 0 of the branch offset
must be 0b0". Bit 0 of the offset is bit 0 of the instruction's own field, whatever prefix expands it (R98). -/
def evenOffset (i : BitVec 9) : Bool := !i.getLsbD 0

/-- What an assembler may emit: a branch has an even offset (R54); nothing else can be ill-formed. -/
def Instr.wellFormed : Instr → Bool
  | .bl i | .bra i | .beq i | .bne i | .bmi i | .bpl i | .bvs i | .bvc i | .bgeu i | .bltu i | .bgtu i | .bleu i
  | .bges i | .blts i | .bgts i | .bles i => evenOffset i
  | .pre _ | .lpre _ | .xchg _ _ | .xchgL _ _ | .cmpxchg _ _ | .cmpxchgL _ _ | .addImm _ _ | .addPc _ _ | .addSp _ _
  | .addFp _ _ | .cmpImm _ _ | .cpyImm _ _ | .lslImm _ _ | .lsrImm _ _ | .asrImm _ _ | .andImm _ _ | .orrImm _ _
  | .xorImm _ _ | .ze _ _ | .se _ _ | .swiReg _ _ | .swi _ | .add _ _ | .addF _ _ | .sub _ _ | .subF _ _
  | .addSpReg _ _ | .addSpRegF _ _ | .addFpReg _ _ | .addFpRegF _ _ | .cmp _ _ | .cpy _ _ | .cpyF _ _ | .lsl _ _
  | .lslF _ _ | .lsr _ _ | .lsrF _ _ | .asr _ _ | .asrF _ _ | .and _ _ | .andF _ _ | .orr _ _ | .orrF _ _ | .xor _ _
  | .xorF _ _ | .adc _ _ | .adcF _ _ | .sbc _ _ | .sbcF _ _ | .cmpbc _ _ | .jl _ | .jmp _ | .jmpIra | .reti | .ei
  | .di | .push _ _ | .pushSpr _ _ | .pop _ _ | .popSpr _ _ | .popPc _ | .mul _ _ | .udiv _ _ | .sdiv _ _
  | .lumul _ _ | .lsmul _ _ | .udiv64 _ _ | .sdiv64 _ _ | .ldub _ _ | .ldsb _ _ | .lduh _ _ | .ldsh _ _ | .ldr _ _
  | .stb _ _ | .sth _ _ | .str _ _ | .cpyFromSpr _ _ | .cpyToSpr _ _ | .cpySprSpr _ _ | .indexReg _ _
  | .indexImm _ _ | .cmpb _ _ | .lsrb _ _ | .asrb _ _ | .cmph _ _ | .lsrh _ _ | .asrh _ _ | .ldrSpr _ _
  | .ldrSprSpr _ _ | .strSpr _ _ | .strSprSpr _ _ | .icreload _ _ | .icflush => true

end Sys2Proof
end

