-- ==== Sys2Proof/Decode.lean ====
section
/-! DEFINITION. Decoding (30_encoding.md R80 to R105) and, after it, encoding. Decoding is total: on any unit it answers
an instruction or the name of the reason there is none. -/

namespace Sys2Proof

/-- Why a unit is no instruction: `reservedEncoding` (R103: the source does not define it), `reservedSpr` (R32: an `sA` or
`sB` field of 6..15). -/
inductive DecodeError where
  | reservedEncoding
  | reservedSpr
deriving DecidableEq, Repr

/-- Why a list of bytes is no instruction: `truncated` when it ends inside a unit (R80), or the unit's own reason. -/
inductive BytesError where
  | truncated
  | undecodable (e : DecodeError)
deriving DecidableEq, Repr

/-! ## Fields -/

/-- `u[15:13]`, the instruction group (R81). -/
def fieldGroup (u : InstrUnit) : BitVec 3 := u.extractLsb' 13 3

/-- `u[3:0]`, the `a` field (R100). -/
def fieldA (u : InstrUnit) : RegNum := u.extractLsb' 0 4

/-- `u[7:4]`, the `b` field (R100). -/
def fieldB (u : InstrUnit) : RegNum := u.extractLsb' 4 4

/-- The special-purpose register a 4-bit field selects (R24), or the refusal of R32. -/
def Spr.ofField (n : BitVec 4) : Except DecodeError Spr :=
  match n with
  | 0x0#4 => .ok .flags
  | 0x1#4 => .ok .ids
  | 0x2#4 => .ok .ira
  | 0x3#4 => .ok .ie
  | 0x4#4 => .ok .ity
  | 0x5#4 => .ok .sty
  | _ => .error .reservedSpr

/-- The instruction made of the special-purpose register that the field `n` selects (R32, R100). -/
def withSpr (n : BitVec 4) (mk : Spr → Instr) : Except DecodeError Instr :=
  match Spr.ofField n with
  | .ok r => .ok (mk r)
  | .error e => .error e

/-- The instruction made of the two special-purpose registers that the fields `m` and `n` select (R32, R100). -/
def withSprs (m n : BitVec 4) (mk : Spr → Spr → Instr) : Except DecodeError Instr :=
  match Spr.ofField m with
  | .ok r => withSpr n (mk r)
  | .error e => .error e

/-- R80: the unit is the first of the two units of an `lpre`. -/
def isLpre (u : InstrUnit) : Bool := u.extractLsb' 11 5 == 0b00010#5

/-! ## The decoder of R101, group by group -/

/-- Group 0 (R82, R83, R84). `idx` says whether an index is in effect, which decides what a format AT unit is (R102);
`u2` is the second unit, used by `lpre` alone. -/
def decodeGroup0 (idx : Bool) (u u2 : InstrUnit) : Except DecodeError Instr :=
  if u.getLsbD 12 = false then .ok (.pre (u.extractLsb' 0 12))
  else if u.getLsbD 11 = false then .ok (.lpre ((u.extractLsb' 0 11).setWidth 27 <<< 16 ||| u2.setWidth 27))
  else
    match u.extractLsb' 8 3 with
    | 0b000#3 => .ok (if idx then .cmpxchg (fieldA u) (fieldB u) else .xchg (fieldA u) (fieldB u))
    | 0b001#3 => .ok (if idx then .cmpxchgL (fieldA u) (fieldB u) else .xchgL (fieldA u) (fieldB u))
    | _ => .error .reservedEncoding

/-- Group 1 (R85): all sixteen opcodes `u[7:4]` are defined. -/
def decodeGroup1 (u : InstrUnit) : Instr :=
  let a := fieldA u
  let i : BitVec 5 := u.extractLsb' 8 5
  match fieldB u with
  | 0x0#4 => .addImm a i
  | 0x1#4 => .addPc a i
  | 0x2#4 => .addSp a i
  | 0x3#4 => .addFp a i
  | 0x4#4 => .cmpImm a i
  | 0x5#4 => .cpyImm a i
  | 0x6#4 => .lslImm a i
  | 0x7#4 => .lsrImm a i
  | 0x8#4 => .asrImm a i
  | 0x9#4 => .andImm a i
  | 0xa#4 => .orrImm a i
  | 0xb#4 => .xorImm a i
  | 0xc#4 => .ze a i
  | 0xd#4 => .se a i
  | 0xe#4 => .swiReg a i
  | _ => .swi i  -- 0xf

/-- Group 2 (R86): opcode `u[11:8]`, `f = u[12]`; opcode 0xf is reserved, `cmp` and `cmpbc` ignore `f` (R160). -/
def decodeGroup2 (u : InstrUnit) : Except DecodeError Instr :=
  let a := fieldA u
  let b := fieldB u
  let f := u.getLsbD 12
  match u.extractLsb' 8 4 with
  | 0x0#4 => .ok (if f then .addF a b else .add a b)
  | 0x1#4 => .ok (if f then .subF a b else .sub a b)
  | 0x2#4 => .ok (if f then .addSpRegF a b else .addSpReg a b)
  | 0x3#4 => .ok (if f then .addFpRegF a b else .addFpReg a b)
  | 0x4#4 => .ok (.cmp a b)
  | 0x5#4 => .ok (if f then .cpyF a b else .cpy a b)
  | 0x6#4 => .ok (if f then .lslF a b else .lsl a b)
  | 0x7#4 => .ok (if f then .lsrF a b else .lsr a b)
  | 0x8#4 => .ok (if f then .asrF a b else .asr a b)
  | 0x9#4 => .ok (if f then .andF a b else .and a b)
  | 0xa#4 => .ok (if f then .orrF a b else .orr a b)
  | 0xb#4 => .ok (if f then .xorF a b else .xor a b)
  | 0xc#4 => .ok (if f then .adcF a b else .adc a b)
  | 0xd#4 => .ok (if f then .sbcF a b else .sbc a b)
  | 0xe#4 => .ok (.cmpbc a b)
  | _ => .error .reservedEncoding

/-- Group 3 (R87): all sixteen opcodes `u[3:0]` are defined. -/
def decodeGroup3 (u : InstrUnit) : Instr :=
  let i : BitVec 9 := u.extractLsb' 4 9
  match fieldA u with
  | 0x0#4 => .bl i
  | 0x1#4 => .bra i
  | 0x2#4 => .beq i
  | 0x3#4 => .bne i
  | 0x4#4 => .bmi i
  | 0x5#4 => .bpl i
  | 0x6#4 => .bvs i
  | 0x7#4 => .bvc i
  | 0x8#4 => .bgeu i
  | 0x9#4 => .bltu i
  | 0xa#4 => .bgtu i
  | 0xb#4 => .bleu i
  | 0xc#4 => .bges i
  | 0xd#4 => .blts i
  | 0xe#4 => .bgts i
  | _ => .bles i  -- 0xf

/-- Group 4 (R88): opcode `u[12:8]`; 0x17, 0x1b and 0x1f are reserved (R242). -/
def decodeGroup4 (u : InstrUnit) : Except DecodeError Instr :=
  let a := fieldA u
  let b := fieldB u
  match u.extractLsb' 8 5 with
  | 0x00#5 => .ok (.jl a)
  | 0x01#5 => .ok (.jmp a)
  | 0x02#5 => .ok .jmpIra
  | 0x03#5 => .ok .reti
  | 0x04#5 => .ok .ei
  | 0x05#5 => .ok .di
  | 0x06#5 => .ok (.push a b)
  | 0x07#5 => withSpr a fun r => .pushSpr r b
  | 0x08#5 => .ok (.pop a b)
  | 0x09#5 => withSpr a fun r => .popSpr r b
  | 0x0a#5 => .ok (.popPc b)
  | 0x0b#5 => .ok (.mul a b)
  | 0x0c#5 => .ok (.udiv a b)
  | 0x0d#5 => .ok (.sdiv a b)
  | 0x0e#5 => .ok (.lumul a b)
  | 0x0f#5 => .ok (.lsmul a b)
  | 0x10#5 => .ok (.udiv64 a b)
  | 0x11#5 => .ok (.sdiv64 a b)
  | 0x12#5 => .ok (.ldub a b)
  | 0x13#5 => .ok (.ldsb a b)
  | 0x14#5 => .ok (.lduh a b)
  | 0x15#5 => .ok (.ldsh a b)
  | 0x16#5 => .ok (.ldr a b)
  | 0x18#5 => .ok (.stb a b)
  | 0x19#5 => .ok (.sth a b)
  | 0x1a#5 => .ok (.str a b)
  | 0x1c#5 => withSpr b fun r => .cpyFromSpr a r
  | 0x1d#5 => withSpr a fun r => .cpyToSpr r b
  | 0x1e#5 => withSprs a b .cpySprSpr
  | _ => .error .reservedEncoding

/-- Group 5 (R89, R90): the bits 11:8 of `index rA, rB` and bit 11 of `index rA, #simm` must be zero (R104). -/
def decodeGroup5 (u : InstrUnit) : Except DecodeError Instr :=
  if u.getLsbD 12 = false then
    match u.extractLsb' 8 4 with
    | 0b0000#4 => .ok (.indexReg (fieldA u) (fieldB u))
    | _ => .error .reservedEncoding
  else if u.getLsbD 11 = false then .ok (.indexImm (fieldA u) (u.extractLsb' 4 7))
  else .error .reservedEncoding

/-- Group 7 (R91 to R94): the subgroups 00, 010, 0110 and 01110 below bits 15:13. -/
def decodeGroup7 (u : InstrUnit) : Except DecodeError Instr :=
  let a := fieldA u
  let b := fieldB u
  match u.extractLsb' 8 5 with
  | 0b00000#5 => .ok (.cmpb a b)
  | 0b00001#5 => .ok (.lsrb a b)
  | 0b00010#5 => .ok (.asrb a b)
  | 0b00100#5 => .ok (.cmph a b)
  | 0b00101#5 => .ok (.lsrh a b)
  | 0b00110#5 => .ok (.asrh a b)
  | 0b01000#5 => withSpr a fun r => .ldrSpr r b
  | 0b01001#5 => withSprs a b .ldrSprSpr
  | 0b01010#5 => withSpr a fun r => .strSpr r b
  | 0b01011#5 => withSprs a b .strSprSpr
  | 0b01100#5 => .ok (.icreload a (u.extractLsb' 4 5))
  | 0b01101#5 => .ok (.icreload a (u.extractLsb' 4 5))
  | 0b01110#5 =>
    match u.extractLsb' 0 8 with
    | 0x00#8 => .ok .icflush
    | _ => .error .reservedEncoding
  | _ => .error .reservedEncoding

/-- The decoder of R101 on the units `u` and (for `lpre`) `u2`, where `idx` says whether an index is in effect (R102).
Fields an instruction does not use are ignored here. -/
def decodeBase (idx : Bool) (u u2 : InstrUnit) : Except DecodeError Instr :=
  match fieldGroup u with
  | 0b000#3 => decodeGroup0 idx u u2
  | 0b001#3 => .ok (decodeGroup1 u)
  | 0b010#3 => decodeGroup2 u
  | 0b011#3 => .ok (decodeGroup3 u)
  | 0b100#3 => decodeGroup4 u
  | 0b101#3 => decodeGroup5 u
  | 0b111#3 => decodeGroup7 u
  | _ => .error .reservedEncoding

/-- The bits of an instruction's unit that it does not use (R105, U6): the `unused` masks of opcode_table.json and the
`f` bit of `cmp` and `cmpbc`. -/
def unusedMask : Instr → InstrUnit
  | .cmp _ _ | .cmpbc _ _ => 0x1000#16
  | .jmpIra | .reti | .ei | .di => 0x00FF#16
  | .jl _ | .jmp _ => 0x00F0#16
  | .swi _ | .popPc _ => 0x000F#16
  | .pre _ | .lpre _ | .xchg _ _ | .xchgL _ _ | .cmpxchg _ _ | .cmpxchgL _ _ | .addImm _ _ | .addPc _ _ | .addSp _ _
  | .addFp _ _ | .cmpImm _ _ | .cpyImm _ _ | .lslImm _ _ | .lsrImm _ _ | .asrImm _ _ | .andImm _ _ | .orrImm _ _
  | .xorImm _ _ | .ze _ _ | .se _ _ | .swiReg _ _ | .add _ _ | .addF _ _ | .sub _ _ | .subF _ _ | .addSpReg _ _
  | .addSpRegF _ _ | .addFpReg _ _ | .addFpRegF _ _ | .cpy _ _ | .cpyF _ _ | .lsl _ _ | .lslF _ _ | .lsr _ _
  | .lsrF _ _ | .asr _ _ | .asrF _ _ | .and _ _ | .andF _ _ | .orr _ _ | .orrF _ _ | .xor _ _ | .xorF _ _ | .adc _ _
  | .adcF _ _ | .sbc _ _ | .sbcF _ _ | .bl _ | .bra _ | .beq _ | .bne _ | .bmi _ | .bpl _ | .bvs _ | .bvc _
  | .bgeu _ | .bltu _ | .bgtu _ | .bleu _ | .bges _ | .blts _ | .bgts _ | .bles _ | .push _ _ | .pushSpr _ _
  | .pop _ _ | .popSpr _ _ | .mul _ _ | .udiv _ _ | .sdiv _ _ | .lumul _ _ | .lsmul _ _ | .udiv64 _ _ | .sdiv64 _ _
  | .ldub _ _ | .ldsb _ _ | .lduh _ _ | .ldsh _ _ | .ldr _ _ | .stb _ _ | .sth _ _ | .str _ _ | .cpyFromSpr _ _
  | .cpyToSpr _ _ | .cpySprSpr _ _ | .indexReg _ _ | .indexImm _ _ | .cmpb _ _ | .lsrb _ _ | .asrb _ _ | .cmph _ _
  | .lsrh _ _ | .asrh _ _ | .ldrSpr _ _ | .ldrSprSpr _ _ | .strSpr _ _ | .strSprSpr _ _ | .icreload _ _ | .icflush => 0x0000#16

/-- R105: the decoder with its parameter UNUSED_FIELD_POLICY. -/
def decodeUnits (policy : UnusedFieldPolicy) (idx : Bool) (u u2 : InstrUnit) : Except DecodeError Instr :=
  match decodeBase idx u u2 with
  | .error e => .error e
  | .ok i => if policy = .refuse ∧ u &&& unusedMask i ≠ 0#16 then .error .reservedEncoding else .ok i

/-! ## Bytes -/

/-- A unit from its two bytes, the one at the lower address first (R51, R53). -/
def unitOfBytes (lo hi : Byte) : InstrUnit := hi.setWidth 16 <<< 8 ||| lo.setWidth 16

/-- The two bytes of a unit, the one at the lower address first (R51, R53). -/
def bytesOfUnit (u : InstrUnit) : List Byte := [u.extractLsb' 0 8, u.extractLsb' 8 8]

/-- The instruction at the head of a list of bytes, and the bytes after it. -/
def decodeBytes (policy : UnusedFieldPolicy) (idx : Bool) : List Byte → Except BytesError (Instr × List Byte)
  | b0 :: b1 :: rest =>
    let u := unitOfBytes b0 b1
    if isLpre u then
      match rest with
      | b2 :: b3 :: rest' =>
        match decodeUnits policy idx u (unitOfBytes b2 b3) with
        | .ok i => .ok (i, rest')
        | .error e => .error (.undecodable e)
      | _ => .error .truncated
    else
      match decodeUnits policy idx u 0#16 with
      | .ok i => .ok (i, rest)
      | .error e => .error (.undecodable e)
  | _ => .error .truncated

/-- The two units of a table word: bit 0 is the least significant bit of the first unit, bits from `nbits` up are 0. -/
def tableUnits (nbits w : Nat) : InstrUnit × InstrUnit :=
  let v := w % 2 ^ nbits
  (BitVec.ofNat 16 v, BitVec.ofNat 16 (v >>> 16))

/-- The instruction the decoder reads from a word of the opcode table, laid out as memory holds it. No index is in
effect, as after reset, so a format AT unit is an `xchg` (R102, log 11). -/
def decodeTableWord (nbits w : Nat) : Option Instr :=
  let us := tableUnits nbits w
  match decodeBytes .ignore false (bytesOfUnit us.1 ++ bytesOfUnit us.2) with
  | .ok (i, _) => some i
  | .error _ => none

/-! ## Encoding -/

/-- The 4-bit number of a special-purpose register (R24). -/
def Spr.toField : Spr → BitVec 4
  | .flags => 0x0#4
  | .ids => 0x1#4
  | .ira => 0x2#4
  | .ie => 0x3#4
  | .ity => 0x4#4
  | .sty => 0x5#4

/-- A unit with the fixed bits `base` and the fields `b` in 7:4 and `a` in 3:0 (formats AT, G2, G4, G5RR, G7A, G7B). -/
def unitAB (base : InstrUnit) (a b : BitVec 4) : InstrUnit :=
  base ||| b.setWidth 16 <<< 4 ||| a.setWidth 16

/-- Format G1 (R85): `001i iiii oooo aaaa`. -/
def unitG1 (o : BitVec 4) (a : RegNum) (i : BitVec 5) : InstrUnit :=
  0x2000#16 ||| i.setWidth 16 <<< 8 ||| o.setWidth 16 <<< 4 ||| a.setWidth 16

/-- Format G3 (R87): `011i iiii iiii oooo`. -/
def unitG3 (o : BitVec 4) (i : BitVec 9) : InstrUnit :=
  0x6000#16 ||| i.setWidth 16 <<< 4 ||| o.setWidth 16

/-- Format G5RI (R90): `1011 0iii iiii aaaa`. -/
def unitG5RI (a : RegNum) (i : BitVec 7) : InstrUnit :=
  0xB000#16 ||| i.setWidth 16 <<< 4 ||| a.setWidth 16

/-- Format G7C (R93): `1110 110i iiii aaaa`. -/
def unitG7C (a : RegNum) (i : BitVec 5) : InstrUnit :=
  0xEC00#16 ||| i.setWidth 16 <<< 4 ||| a.setWidth 16

/-- The units of an instruction, unused fields written as zero (R105). -/
def encode : Instr → List InstrUnit
  | .pre i => [i.setWidth 16]
  | .lpre i => [0x1000#16 ||| (i.extractLsb' 16 11).setWidth 16, i.extractLsb' 0 16]
  | .xchg a b => [unitAB 0x1800#16 a b]
  | .xchgL a b => [unitAB 0x1900#16 a b]
  | .cmpxchg a b => [unitAB 0x1800#16 a b]
  | .cmpxchgL a b => [unitAB 0x1900#16 a b]
  | .addImm a i => [unitG1 0x0#4 a i]
  | .addPc a i => [unitG1 0x1#4 a i]
  | .addSp a i => [unitG1 0x2#4 a i]
  | .addFp a i => [unitG1 0x3#4 a i]
  | .cmpImm a i => [unitG1 0x4#4 a i]
  | .cpyImm a i => [unitG1 0x5#4 a i]
  | .lslImm a i => [unitG1 0x6#4 a i]
  | .lsrImm a i => [unitG1 0x7#4 a i]
  | .asrImm a i => [unitG1 0x8#4 a i]
  | .andImm a i => [unitG1 0x9#4 a i]
  | .orrImm a i => [unitG1 0xa#4 a i]
  | .xorImm a i => [unitG1 0xb#4 a i]
  | .ze a i => [unitG1 0xc#4 a i]
  | .se a i => [unitG1 0xd#4 a i]
  | .swiReg a i => [unitG1 0xe#4 a i]
  | .swi i => [unitG1 0xf#4 0#4 i]
  | .add a b => [unitAB 0x4000#16 a b]
  | .addF a b => [unitAB 0x5000#16 a b]
  | .sub a b => [unitAB 0x4100#16 a b]
  | .subF a b => [unitAB 0x5100#16 a b]
  | .addSpReg a b => [unitAB 0x4200#16 a b]
  | .addSpRegF a b => [unitAB 0x5200#16 a b]
  | .addFpReg a b => [unitAB 0x4300#16 a b]
  | .addFpRegF a b => [unitAB 0x5300#16 a b]
  | .cmp a b => [unitAB 0x4400#16 a b]
  | .cpy a b => [unitAB 0x4500#16 a b]
  | .cpyF a b => [unitAB 0x5500#16 a b]
  | .lsl a b => [unitAB 0x4600#16 a b]
  | .lslF a b => [unitAB 0x5600#16 a b]
  | .lsr a b => [unitAB 0x4700#16 a b]
  | .lsrF a b => [unitAB 0x5700#16 a b]
  | .asr a b => [unitAB 0x4800#16 a b]
  | .asrF a b => [unitAB 0x5800#16 a b]
  | .and a b => [unitAB 0x4900#16 a b]
  | .andF a b => [unitAB 0x5900#16 a b]
  | .orr a b => [unitAB 0x4A00#16 a b]
  | .orrF a b => [unitAB 0x5A00#16 a b]
  | .xor a b => [unitAB 0x4B00#16 a b]
  | .xorF a b => [unitAB 0x5B00#16 a b]
  | .adc a b => [unitAB 0x4C00#16 a b]
  | .adcF a b => [unitAB 0x5C00#16 a b]
  | .sbc a b => [unitAB 0x4D00#16 a b]
  | .sbcF a b => [unitAB 0x5D00#16 a b]
  | .cmpbc a b => [unitAB 0x4E00#16 a b]
  | .bl i => [unitG3 0x0#4 i]
  | .bra i => [unitG3 0x1#4 i]
  | .beq i => [unitG3 0x2#4 i]
  | .bne i => [unitG3 0x3#4 i]
  | .bmi i => [unitG3 0x4#4 i]
  | .bpl i => [unitG3 0x5#4 i]
  | .bvs i => [unitG3 0x6#4 i]
  | .bvc i => [unitG3 0x7#4 i]
  | .bgeu i => [unitG3 0x8#4 i]
  | .bltu i => [unitG3 0x9#4 i]
  | .bgtu i => [unitG3 0xa#4 i]
  | .bleu i => [unitG3 0xb#4 i]
  | .bges i => [unitG3 0xc#4 i]
  | .blts i => [unitG3 0xd#4 i]
  | .bgts i => [unitG3 0xe#4 i]
  | .bles i => [unitG3 0xf#4 i]
  | .jl a => [unitAB 0x8000#16 a 0#4]
  | .jmp a => [unitAB 0x8100#16 a 0#4]
  | .jmpIra => [unitAB 0x8200#16 0#4 0#4]
  | .reti => [unitAB 0x8300#16 0#4 0#4]
  | .ei => [unitAB 0x8400#16 0#4 0#4]
  | .di => [unitAB 0x8500#16 0#4 0#4]
  | .push a b => [unitAB 0x8600#16 a b]
  | .pushSpr a b => [unitAB 0x8700#16 a.toField b]
  | .pop a b => [unitAB 0x8800#16 a b]
  | .popSpr a b => [unitAB 0x8900#16 a.toField b]
  | .popPc b => [unitAB 0x8A00#16 0#4 b]
  | .mul a b => [unitAB 0x8B00#16 a b]
  | .udiv a b => [unitAB 0x8C00#16 a b]
  | .sdiv a b => [unitAB 0x8D00#16 a b]
  | .lumul a b => [unitAB 0x8E00#16 a b]
  | .lsmul a b => [unitAB 0x8F00#16 a b]
  | .udiv64 a b => [unitAB 0x9000#16 a b]
  | .sdiv64 a b => [unitAB 0x9100#16 a b]
  | .ldub a b => [unitAB 0x9200#16 a b]
  | .ldsb a b => [unitAB 0x9300#16 a b]
  | .lduh a b => [unitAB 0x9400#16 a b]
  | .ldsh a b => [unitAB 0x9500#16 a b]
  | .ldr a b => [unitAB 0x9600#16 a b]
  | .stb a b => [unitAB 0x9800#16 a b]
  | .sth a b => [unitAB 0x9900#16 a b]
  | .str a b => [unitAB 0x9A00#16 a b]
  | .cpyFromSpr a b => [unitAB 0x9C00#16 a b.toField]
  | .cpyToSpr a b => [unitAB 0x9D00#16 a.toField b]
  | .cpySprSpr a b => [unitAB 0x9E00#16 a.toField b.toField]
  | .indexReg a b => [unitAB 0xA000#16 a b]
  | .indexImm a i => [unitG5RI a i]
  | .cmpb a b => [unitAB 0xE000#16 a b]
  | .lsrb a b => [unitAB 0xE100#16 a b]
  | .asrb a b => [unitAB 0xE200#16 a b]
  | .cmph a b => [unitAB 0xE400#16 a b]
  | .lsrh a b => [unitAB 0xE500#16 a b]
  | .asrh a b => [unitAB 0xE600#16 a b]
  | .ldrSpr a b => [unitAB 0xE800#16 a.toField b]
  | .ldrSprSpr a b => [unitAB 0xE900#16 a.toField b.toField]
  | .strSpr a b => [unitAB 0xEA00#16 a.toField b]
  | .strSprSpr a b => [unitAB 0xEB00#16 a.toField b.toField]
  | .icreload a i => [unitG7C a i]
  | .icflush => [0xEE00#16]

/-- The bytes of an instruction as memory holds them (R51, R53). -/
def encodeBytes (i : Instr) : List Byte := (encode i).flatMap bytesOfUnit

/-- The first unit of an instruction's encoding. -/
def encodeUnit (i : Instr) : InstrUnit := (encode i).getD 0 0#16

/-- The second unit of an instruction's encoding, 0 for an instruction of one unit. -/
def encodeUnit2 (i : Instr) : InstrUnit := (encode i).getD 1 0#16

/-- R102: the index state under which an instruction's word decodes to it. Only the atomics depend on it. -/
def Instr.readWhen (idx : Bool) : Instr → Bool
  | .xchg _ _ | .xchgL _ _ => !idx
  | .cmpxchg _ _ | .cmpxchgL _ _ => idx
  | .pre _ | .lpre _ | .addImm _ _ | .addPc _ _ | .addSp _ _ | .addFp _ _ | .cmpImm _ _ | .cpyImm _ _ | .lslImm _ _
  | .lsrImm _ _ | .asrImm _ _ | .andImm _ _ | .orrImm _ _ | .xorImm _ _ | .ze _ _ | .se _ _ | .swiReg _ _ | .swi _
  | .add _ _ | .addF _ _ | .sub _ _ | .subF _ _ | .addSpReg _ _ | .addSpRegF _ _ | .addFpReg _ _ | .addFpRegF _ _
  | .cmp _ _ | .cpy _ _ | .cpyF _ _ | .lsl _ _ | .lslF _ _ | .lsr _ _ | .lsrF _ _ | .asr _ _ | .asrF _ _ | .and _ _
  | .andF _ _ | .orr _ _ | .orrF _ _ | .xor _ _ | .xorF _ _ | .adc _ _ | .adcF _ _ | .sbc _ _ | .sbcF _ _
  | .cmpbc _ _ | .bl _ | .bra _ | .beq _ | .bne _ | .bmi _ | .bpl _ | .bvs _ | .bvc _ | .bgeu _ | .bltu _ | .bgtu _
  | .bleu _ | .bges _ | .blts _ | .bgts _ | .bles _ | .jl _ | .jmp _ | .jmpIra | .reti | .ei | .di | .push _ _
  | .pushSpr _ _ | .pop _ _ | .popSpr _ _ | .popPc _ | .mul _ _ | .udiv _ _ | .sdiv _ _ | .lumul _ _ | .lsmul _ _
  | .udiv64 _ _ | .sdiv64 _ _ | .ldub _ _ | .ldsb _ _ | .lduh _ _ | .ldsh _ _ | .ldr _ _ | .stb _ _ | .sth _ _
  | .str _ _ | .cpyFromSpr _ _ | .cpyToSpr _ _ | .cpySprSpr _ _ | .indexReg _ _ | .indexImm _ _ | .cmpb _ _
  | .lsrb _ _ | .asrb _ _ | .cmph _ _ | .lsrh _ _ | .asrh _ _ | .ldrSpr _ _ | .ldrSprSpr _ _ | .strSpr _ _
  | .strSprSpr _ _ | .icreload _ _ | .icflush => true

end Sys2Proof
end

