-- ==== Sys2Proof/Machine/Fetch.lean ====
section
/-! DEFINITION. Fetching the instruction at `pc` (R120 steps 2 and 3, R53, R122) and placing one there. -/

namespace Sys2Proof.Machine

/-- The refusal of a unit that is no instruction (R103, R32). -/
def decodeRefusal : DecodeError → Refusal
  | .reservedEncoding => .reservedEncoding
  | .reservedSpr => .reservedSpr

/-- The unit after `u`, which only a valid `lpre` fetches (R122: an invalid one consumes its first unit alone). Where it
is not fetched its value plays no part, and 0 stands for it. -/
def State.fetchSecond (s : State) (u : InstrUnit) : Except Stop InstrUnit :=
  if isLpre u && !s.pfx.immInEffect then s.fetchUnit (s.pc + 2#32) else .ok 0#16

/-- The instruction at `pc` (R120 steps 2 and 3); what a format AT unit is depends on the index state (R102). -/
def State.fetchInstr (s : State) : Except Stop Instr :=
  match s.fetchUnit s.pc with
  | .error e => .error e
  | .ok u =>
    match s.fetchSecond u with
    | .error e => .error e
    | .ok u2 =>
      match decodeUnits s.plat.unusedFields s.pfx.indexInEffect u u2 with
      | .ok i => .ok i
      | .error e => .error (.refused (decodeRefusal e))

/-- The state with the unit `u` at `a` and `a`'s line not stale, as after a load of the program by the platform. -/
def State.placeUnit (s : State) (a : Word) (u : InstrUnit) : State :=
  { s with
    mem := Memory.writeLE s.mem a.toNat (u.setWidth 32) 2
    stale := Stale.clear s.stale (a.toNat / lineBytes) }

/-- The state whose present boundary takes no IRQ. -/
def State.withoutIrqNow (s : State) : State :=
  { s with irqLine := match s.irqLine with | [] => [] | x :: rest => { x with serve := false } :: rest }

end Sys2Proof.Machine
end

