-- ==== Sys2Proof/Machine/Step.lean ====
section
/-! DEFINITION. The step (R120). -/

namespace Sys2Proof.Machine

/-- One step (R120): at the boundary an eligible IRQ may be taken (R304), with `pc` as the return address (R306);
otherwise the instruction at `pc` is fetched and executed. -/
def step (s : State) : Host.Outcome State Fault Refusal :=
  let t := s.pastBoundary
  if s.irqTaken then takeInterrupt .irq t.pc t
  else andThen t.fetchInstr fun i => exec i t

/-- `s` with a word of the opcode table, and zeros up to 32 bits, at `pc`, where the step fetches its next instruction:
the two units in memory, their lines not stale, and no IRQ taken at the present boundary. It stands for the platform's
load of a program (R41, log 2). -/
def State.withFetchWord (s : State) (nbits w : Nat) : State :=
  let us := tableUnits nbits w
  ((s.placeUnit s.pc us.1).placeUnit (s.pc + 2#32) us.2).withoutIrqNow

end Sys2Proof.Machine
end

