-- ==== Sys2Proof/Safety.lean ====
section
/-! DEFINITION. What counts as a safe state and run, and the words the statements use: the invariant of the machine, what
an instruction keeps, the end of a run (R340). -/

namespace Sys2Proof

/-- The bits a special-purpose register holds (R24, R31). -/
def Spr.heldBits : Spr → Word
  | .flags => 0xF#32
  | .ids => 0xFFFFFFFF#32
  | .ira => 0xFFFFFFFF#32
  | .ie => 0x1#32
  | .ity => 0x1#32
  | .sty => 0xFFFFFFFF#32

/-! ## Which instructions may do what -/

/-- R35: the instructions that write `flags`. -/
def Instr.writesFlags : Instr → Bool
  | .cmpxchg _ _ | .cmpxchgL _ _ | .cmpImm _ _ | .addF _ _ | .subF _ _ | .addSpRegF _ _ | .addFpRegF _ _
  | .cmp _ _ | .cpyF _ _ | .lslF _ _ | .lsrF _ _ | .asrF _ _ | .andF _ _ | .orrF _ _ | .xorF _ _ | .adcF _ _
  | .sbcF _ _ | .cmpbc _ _ | .cmpb _ _ | .cmph _ _ => true
  | .popSpr a _ => a == .flags
  | .cpyToSpr a _ => a == .flags
  | .cpySprSpr a _ => a == .flags
  | .ldrSpr a _ => a == .flags
  | .ldrSprSpr a _ => a == .flags
  | .pre _ | .lpre _ | .xchg _ _ | .xchgL _ _ | .addImm _ _ | .addPc _ _ | .addSp _ _ | .addFp _ _ | .cpyImm _ _
  | .lslImm _ _ | .lsrImm _ _ | .asrImm _ _ | .andImm _ _ | .orrImm _ _ | .xorImm _ _ | .ze _ _ | .se _ _
  | .swiReg _ _ | .swi _ | .add _ _ | .sub _ _ | .addSpReg _ _ | .addFpReg _ _ | .cpy _ _ | .lsl _ _ | .lsr _ _
  | .asr _ _ | .and _ _ | .orr _ _ | .xor _ _ | .adc _ _ | .sbc _ _ | .bl _ | .bra _ | .beq _ | .bne _
  | .bmi _ | .bpl _ | .bvs _ | .bvc _ | .bgeu _ | .bltu _ | .bgtu _ | .bleu _ | .bges _ | .blts _ | .bgts _
  | .bles _ | .jl _ | .jmp _ | .jmpIra | .reti | .ei | .di | .push _ _ | .pushSpr _ _ | .pop _ _ | .popPc _
  | .mul _ _ | .udiv _ _ | .sdiv _ _ | .lumul _ _ | .lsmul _ _ | .udiv64 _ _ | .sdiv64 _ _ | .ldub _ _
  | .ldsb _ _ | .lduh _ _ | .ldsh _ _ | .ldr _ _ | .stb _ _ | .sth _ _ | .str _ _ | .cpyFromSpr _ _
  | .indexReg _ _ | .indexImm _ _ | .lsrb _ _ | .asrb _ _ | .lsrh _ _ | .asrh _ _ | .strSpr _ _ | .strSprSpr _ _
  | .icreload _ _ | .icflush => false

/-- R56: the instructions that write data memory. -/
def Instr.storesMemory : Instr → Bool
  | .xchgL _ _ | .cmpxchg _ _ | .cmpxchgL _ _ | .push _ _ | .pushSpr _ _ | .stb _ _ | .sth _ _ | .str _ _
  | .strSpr _ _ | .strSprSpr _ _ => true
  | .pre _ | .lpre _ | .xchg _ _ | .addImm _ _ | .addPc _ _ | .addSp _ _ | .addFp _ _ | .cmpImm _ _
  | .cpyImm _ _ | .lslImm _ _ | .lsrImm _ _ | .asrImm _ _ | .andImm _ _ | .orrImm _ _ | .xorImm _ _ | .ze _ _
  | .se _ _ | .swiReg _ _ | .swi _ | .add _ _ | .addF _ _ | .sub _ _ | .subF _ _ | .addSpReg _ _
  | .addSpRegF _ _ | .addFpReg _ _ | .addFpRegF _ _ | .cmp _ _ | .cpy _ _ | .cpyF _ _ | .lsl _ _ | .lslF _ _
  | .lsr _ _ | .lsrF _ _ | .asr _ _ | .asrF _ _ | .and _ _ | .andF _ _ | .orr _ _ | .orrF _ _ | .xor _ _
  | .xorF _ _ | .adc _ _ | .adcF _ _ | .sbc _ _ | .sbcF _ _ | .cmpbc _ _ | .bl _ | .bra _ | .beq _ | .bne _
  | .bmi _ | .bpl _ | .bvs _ | .bvc _ | .bgeu _ | .bltu _ | .bgtu _ | .bleu _ | .bges _ | .blts _ | .bgts _
  | .bles _ | .jl _ | .jmp _ | .jmpIra | .reti | .ei | .di | .pop _ _ | .popSpr _ _ | .popPc _ | .mul _ _
  | .udiv _ _ | .sdiv _ _ | .lumul _ _ | .lsmul _ _ | .udiv64 _ _ | .sdiv64 _ _ | .ldub _ _ | .ldsb _ _
  | .lduh _ _ | .ldsh _ _ | .ldr _ _ | .cpyFromSpr _ _ | .cpyToSpr _ _ | .cpySprSpr _ _ | .indexReg _ _
  | .indexImm _ _ | .cmpb _ _ | .lsrb _ _ | .asrb _ _ | .cmph _ _ | .lsrh _ _ | .asrh _ _ | .ldrSpr _ _
  | .ldrSprSpr _ _ | .icreload _ _ | .icflush => false

/-- R125: the prefixes. -/
def Instr.isPrefix : Instr → Bool
  | .pre _ | .lpre _ | .indexReg _ _ | .indexImm _ _ => true
  | .xchg _ _ | .xchgL _ _ | .cmpxchg _ _ | .cmpxchgL _ _ | .addImm _ _ | .addPc _ _ | .addSp _ _ | .addFp _ _
  | .cmpImm _ _ | .cpyImm _ _ | .lslImm _ _ | .lsrImm _ _ | .asrImm _ _ | .andImm _ _ | .orrImm _ _
  | .xorImm _ _ | .ze _ _ | .se _ _ | .swiReg _ _ | .swi _ | .add _ _ | .addF _ _ | .sub _ _ | .subF _ _
  | .addSpReg _ _ | .addSpRegF _ _ | .addFpReg _ _ | .addFpRegF _ _ | .cmp _ _ | .cpy _ _ | .cpyF _ _ | .lsl _ _
  | .lslF _ _ | .lsr _ _ | .lsrF _ _ | .asr _ _ | .asrF _ _ | .and _ _ | .andF _ _ | .orr _ _ | .orrF _ _
  | .xor _ _ | .xorF _ _ | .adc _ _ | .adcF _ _ | .sbc _ _ | .sbcF _ _ | .cmpbc _ _ | .bl _ | .bra _ | .beq _
  | .bne _ | .bmi _ | .bpl _ | .bvs _ | .bvc _ | .bgeu _ | .bltu _ | .bgtu _ | .bleu _ | .bges _ | .blts _
  | .bgts _ | .bles _ | .jl _ | .jmp _ | .jmpIra | .reti | .ei | .di | .push _ _ | .pushSpr _ _ | .pop _ _
  | .popSpr _ _ | .popPc _ | .mul _ _ | .udiv _ _ | .sdiv _ _ | .lumul _ _ | .lsmul _ _ | .udiv64 _ _
  | .sdiv64 _ _ | .ldub _ _ | .ldsb _ _ | .lduh _ _ | .ldsh _ _ | .ldr _ _ | .stb _ _ | .sth _ _ | .str _ _
  | .cpyFromSpr _ _ | .cpyToSpr _ _ | .cpySprSpr _ _ | .cmpb _ _ | .lsrb _ _ | .asrb _ _ | .cmph _ _ | .lsrh _ _
  | .asrh _ _ | .ldrSpr _ _ | .ldrSprSpr _ _ | .strSpr _ _ | .strSprSpr _ _ | .icreload _ _ | .icflush => false

end Sys2Proof

namespace Sys2Proof.Machine

/-! ## The invariant -/

/-- The prefix state's own invariant: `pre` and `lpre` are never both in effect (R98); `prefixUsedByIndex` is set only
while the prefix and the index immediate it expanded are in effect (R37, R261); with one index in effect `idxLast` is
its kind (R260, R261). -/
def PrefixState.wf (p : PrefixState) : Bool :=
  !(p.preHave && p.lpreHave)
    && (!p.usedByIndex || (p.riHave && p.immInEffect))
    && (!(p.rrHave && !p.riHave) || p.idxLast == .rr)
    && (!(p.riHave && !p.rrHave) || p.idxLast == .ri)

/-- The invariant of the machine: memory and the stale lines in canonical form, `pc` even (R54), the prefix state well
formed. -/
def State.inv (s : State) : Bool :=
  Memory.wf s.mem && Stale.wf s.stale && !s.pc.getLsbD 0 && s.pfx.wf

/-! ## What an instruction keeps -/

/-- Every general register outside `ds` is unchanged. -/
def KeepsRegs (ds : List RegNum) (s t : State) : Prop := ∀ r, r ∉ ds → t.reg r = s.reg r

/-- Every special-purpose register outside `ds` is unchanged; `flags` is one of them (R24). -/
def KeepsSprs (ds : List Spr) (s t : State) : Prop := ∀ r, r ∉ ds → t.spr r = s.spr r

/-- Every byte of memory and every stale mark is unchanged. -/
def KeepsMemory (s t : State) : Prop := (∀ a, t.byte a = s.byte a) ∧ t.stale = s.stale

/-- Every byte of memory outside the `n` bytes from `a` is unchanged (R52). -/
def KeepsMemoryOutside (a : Word) (n : Nat) (s t : State) : Prop :=
  ∀ k, k < a.toNat ∨ a.toNat + n ≤ k → t.byte k = s.byte k

/-- The inputs to come and the parameters are unchanged. -/
def KeepsInputs (s t : State) : Prop := t.irqLine = s.irqLine ∧ t.plat = s.plat

/-- The frame of an instruction that stores nothing: general registers outside `rs`, special-purpose registers outside
`qs`, memory, inputs and parameters are unchanged. -/
def Frame (rs : List RegNum) (qs : List Spr) (s t : State) : Prop :=
  KeepsRegs rs s t ∧ KeepsSprs qs s t ∧ KeepsMemory s t ∧ KeepsInputs s t

/-- The frame of an instruction that stores the `n` bytes from `a`. -/
def FrameStore (rs : List RegNum) (qs : List Spr) (a : Word) (n : Nat) (s t : State) : Prop :=
  KeepsRegs rs s t ∧ KeepsSprs qs s t ∧ KeepsMemoryOutside a n s t ∧ KeepsInputs s t

/-- The `n` bytes from `a` hold the low `n` bytes of `v`, the lowest address the least significant (R52). -/
def HoldsBytes (t : State) (a : Word) (n : Nat) (v : Word) : Prop :=
  ∀ k, k < n → t.byte (a.toNat + k) = v.extractLsb' (8 * k) 8

/-- The lines of the `n` bytes from `a` are possibly stale, every other line is as before (R63). -/
def MarksLines (a : Word) (n : Nat) (s t : State) : Prop :=
  ∀ l, l ∈ t.stale ↔ l = a.toNat / lineBytes ∨ l = (a.toNat + n - 1) / lineBytes ∨ l ∈ s.stale

/-- No prefix is in effect (R125). -/
def NoPrefix (t : State) : Prop := t.pfx.inEffect = false ∧ t.pfx.usedByIndex = false

/-- The instruction ended at the next unit with no prefix in effect (R120, R125). -/
def EndsAtNext (s t : State) : Prop := t.pc = s.pc + 2#32 ∧ NoPrefix t

/-! ## What memory holds -/

/-- MemRead(a, 2) of R52 from its bytes. -/
def State.halfAt (s : State) (a : Word) : BitVec 16 := s.byte (a.toNat + 1) ++ s.byte a.toNat

/-- MemRead(a, 4) of R52 from its bytes. -/
def State.wordAt (s : State) (a : Word) : Word :=
  s.byte (a.toNat + 3) ++ s.byte (a.toNat + 2) ++ s.byte (a.toNat + 1) ++ s.byte a.toNat

/-- The access of `n` bytes at `a` is one the machine performs: aligned (R57), not wrapping (R50), backed (R60). -/
def State.canAccess (s : State) (a : Word) (n : Nat) : Prop := s.checkData a n = .ok ()

/-- The unit at `a` can be fetched: `a` is even (R54), memory backs both bytes (R60), its line is not stale (R63). -/
def State.canFetch (s : State) (a : Word) : Prop :=
  a.getLsbD 0 = false ∧ kindAt s.plat.memMap a.toNat = some .memory ∧ kindAt s.plat.memMap (a.toNat + 1) = some .memory
    ∧ a.toNat / lineBytes ∉ s.stale

/-! ## Runs -/

/-- The machine goes on from this state: its step is neither a fault nor a refusal. -/
def State.goesOn (s : State) : Prop := ∃ t, step s = .next t

/-- No IRQ arrives any more: none of the listed samples raises `irq`, and after the last one it is 0 by the model's
choice (log 5). -/
def State.irqQuiet (s : State) : Bool := s.irqLine.all fun x => !x.irq

/-- END_OF_RUN as R340 recommends it: the CPU executes a `bra` to its own address, with `ie` = 0 or `irq` never raised
from here on. A `bra` that R99 refuses, its prefix already used by an index, is not executed and ends no run so. -/
def State.endOfRun (s : State) : Bool :=
  match s.fetchInstr with
  | .ok (.bra i) => !s.pfx.usedByIndex && s.branchTarget i == s.pc && (!s.ie || s.irqQuiet)
  | _ => false

end Sys2Proof.Machine
end

