-- ==== Sys2Proof/Certificates/Slice0/Obligations.lean ====
section
/-! DEFINITION. The statements for the provers. Words used: Safety.lean (`Frame`, `FrameStore`, `HoldsBytes`, `EndsAtNext`
...). A statement that rests on a decision or inference of the spec, or on a choice of the model, says so and names
it (D<n>: spec/92_eei_decisions.md; log <n>: notes/assumptions). -/

open Sys2Proof Sys2Proof.Machine

/-! ## Encoding and decoding -/

/-- R80 to R105: every instruction, with every operand its encoding admits, is read back from its own bytes whatever
follows them, under both unused-field policies, in the index state that gives its word this meaning (R102). -/
def Obligations.DecodeOfEncode : Prop :=
  ∀ (p : UnusedFieldPolicy) (idx : Bool) (i : Instr) (rest : List Byte), i.readWhen idx = true →
    decodeBytes p idx (encodeBytes i ++ rest) = .ok (i, rest)

/-- R101, R102, R105: where unused fields must be zero, each unit (each pair of units for `lpre`) that decodes is the
encoding of what it decodes to, so no two words mean one instruction. -/
def Obligations.EncodeOfDecode : Prop :=
  ∀ (idx : Bool) (u u2 : InstrUnit) (i : Instr), decodeUnits .refuse idx u u2 = .ok i →
    i.readWhen idx = true ∧ encodeUnit i = u ∧ (isLpre u = true → encodeUnit2 i = u2)

/-- R103 (D20): the units the source does not define, by their high byte, are refused as reserved encodings under both
policies; where unused fields are ignored no other unit is. -/
def Obligations.ReservedEncodings : Prop :=
  ∀ (p : UnusedFieldPolicy) (idx : Bool) (u u2 : InstrUnit),
    let h := (u.extractLsb' 8 8).toNat
    let undefinedUnit : Prop :=
      (0x1A ≤ h ∧ h ≤ 0x1F) ∨ h = 0x4F ∨ h = 0x5F ∨ h = 0x97 ∨ h = 0x9B ∨ h = 0x9F ∨ (0xA1 ≤ h ∧ h ≤ 0xAF)
        ∨ (0xB8 ≤ h ∧ h ≤ 0xDF) ∨ h = 0xE3 ∨ h = 0xE7 ∨ (h = 0xEE ∧ u.extractLsb' 0 8 ≠ 0x00#8) ∨ 0xEF ≤ h
    (undefinedUnit → decodeUnits p idx u u2 = .error .reservedEncoding)
      ∧ (decodeUnits .ignore idx u u2 = .error .reservedEncoding → undefinedUnit)

/-- R24, R32 (D19): a unit is refused for its special-purpose register exactly when an `sA` or `sB` field of an
instruction that has one holds 6..15. -/
def Obligations.ReservedSprFields : Prop :=
  ∀ (p : UnusedFieldPolicy) (idx : Bool) (u u2 : InstrUnit),
    let h := (u.extractLsb' 8 8).toNat
    let a := (fieldA u).toNat
    let b := (fieldB u).toNat
    decodeUnits p idx u u2 = .error .reservedSpr ↔
      ((h = 0x87 ∨ h = 0x89 ∨ h = 0x9D ∨ h = 0xE8 ∨ h = 0xEA) ∧ 6 ≤ a)
        ∨ (h = 0x9C ∧ 6 ≤ b)
        ∨ ((h = 0x9E ∨ h = 0xE9 ∨ h = 0xEB) ∧ (6 ≤ a ∨ 6 ≤ b))

/-- Words of the examples of R121, R122, R129, R131, R154, R161, R182, R207, R239, R261, R278 and R280 decode to the
instructions the examples name. -/
def Obligations.WrittenWordsDecode : Prop :=
  decodeTableWord 16 0x0123 = some (.pre 0x123#12)
    ∧ decodeTableWord 32 0xA2B31091 = some (.lpre 0x091A2B3#27)
    ∧ decodeTableWord 16 0x1821 = some (.xchg 1#4 2#4)
    ∧ decodeUnits .ignore true 0x1821#16 0#16 = .ok (.cmpxchg 1#4 2#4)
    ∧ decodeTableWord 16 0x27D1 = some (.se 1#4 7#5)
    ∧ decodeTableWord 16 0x5021 = some (.addF 1#4 2#4)
    ∧ decodeTableWord 16 0x7FE1 = some (.bra 0x1FE#9)
    ∧ decodeTableWord 16 0x87F0 = some (.pushSpr .flags 15#4)
    ∧ decodeTableWord 16 0x9C21 = some (.cpyFromSpr 1#4 .ira)
    ∧ decodeTableWord 16 0xB7C2 = some (.indexImm 2#4 0x7C#7)
    ∧ decodeTableWord 16 0xEA32 = some (.strSpr .ira 3#4)
    ∧ decodeTableWord 16 0xED01 = some (.icreload 1#4 0x10#5)

/-! ## The step -/

/-- R120, R53, R122: at a boundary that takes no IRQ, when the two bytes at `pc` (four for a valid `lpre`) can be fetched
and decode to an instruction, the step is that instruction's meaning, on the state whose boundary sample is used
up (the sample is the model's own, log 5). -/
def Obligations.StepRunsDecoded : Prop :=
  ∀ (s : State) (i : Instr),
    let u := unitOfBytes (s.byte s.pc.toNat) (s.byte (s.pc.toNat + 1))
    let next := s.pc + 2#32
    let u2 := unitOfBytes (s.byte next.toNat) (s.byte (next.toNat + 1))
    s.irqTaken = false → s.canFetch s.pc → (isLpre u = true → s.pfx.immInEffect = false → s.canFetch next) →
      decodeUnits s.plat.unusedFields s.pfx.indexInEffect u u2 = .ok i →
        step s = exec i s.pastBoundary

/-- Where a fetch stops (R55 D15, R60 D22, R63 D23, R103 D20, R32 D19): an odd `pc`; an unbacked or device byte or
a possibly stale line at `pc`, or after a valid `lpre` unit at `pc + 2`; a unit that is no instruction. The model's choice:
a device byte is refused as `deviceAccess` (log 4), an unbacked one is a fault and not a refusal, and a byte that is not
backed by memory is reported before a stale line (log 12). -/
def Obligations.StepRefusesFetch : Prop :=
  ∀ (s : State), s.irqTaken = false →
    let kind := kindAt s.plat.memMap
    let u := unitOfBytes (s.byte s.pc.toNat) (s.byte (s.pc.toNat + 1))
    let next := s.pc + 2#32
    let stopsAt (x : Word) : Prop :=
      (kind x.toNat = none → step s = .fault .unbackedAddress)
      ∧ (kind x.toNat = some .device → step s = .refused .deviceAccess)
      ∧ (kind x.toNat = some .memory → kind (x.toNat + 1) = none → step s = .fault .unbackedAddress)
      ∧ (kind x.toNat = some .memory → kind (x.toNat + 1) = some .device → step s = .refused .deviceAccess)
      ∧ (kind x.toNat = some .memory → kind (x.toNat + 1) = some .memory → x.toNat / lineBytes ∈ s.stale →
          step s = .refused .staleFetch)
    (s.pc.getLsbD 0 = true → step s = .refused .misalignedPc)
      ∧ (s.pc.getLsbD 0 = false → stopsAt s.pc)
      ∧ (s.canFetch s.pc → isLpre u = true → s.pfx.immInEffect = false → stopsAt next)
      ∧ (s.canFetch s.pc → isLpre u = false →
          (decodeUnits s.plat.unusedFields s.pfx.indexInEffect u 0#16 = .error .reservedEncoding →
            step s = .refused .reservedEncoding)
          ∧ (decodeUnits s.plat.unusedFields s.pfx.indexInEffect u 0#16 = .error .reservedSpr →
            step s = .refused .reservedSpr))

/-- R304, R306 (D17, D37): an IRQ is taken exactly when the boundary's sample asks for it and serves it (log 5), `ie` is
set and no prefix is in effect. Entry sets `ity` to 0, `ira` to the address of the instruction not executed, `ie` to 0
and `pc` to `ids`; nothing else changes, `sty` included. An odd `ids` is refused (R55). -/
def Obligations.StepTakesIrq : Prop :=
  ∀ (s : State),
    (s.irqTaken = true ↔ ∃ rest, s.irqLine = ⟨true, true⟩ :: rest ∧ s.ie = true ∧ s.pfx.inEffect = false)
      ∧ (s.irqTaken = true → s.ids.getLsbD 0 = true → step s = .refused .misalignedPc)
      ∧ (s.irqTaken = true → s.ids.getLsbD 0 = false →
          ∃ t, step s = .next t ∧ t.ity = false ∧ t.ira = s.pc ∧ t.ie = false ∧ t.pc = s.ids
            ∧ KeepsRegs [] s t ∧ KeepsSprs [.ity, .ira, .ie] s t ∧ KeepsMemory s t ∧ NoPrefix t
            ∧ t.irqLine = s.irqLine.tail ∧ t.plat = s.plat)

/-- Every step keeps the invariant: memory and stale lines in canonical form, `pc` even (R54), the prefix state well
formed (R37, R98). -/
def Obligations.StepKeepsInvariant : Prop :=
  ∀ (s t : State), s.inv = true → step s = .next t → t.inv = true

/-- The state after reset meets the invariant. -/
def Obligations.ResetMeetsInvariant : Prop := State.reset.inv = true

/-- R41, R330: after reset `ie` is 0, no prefix is in effect, no instruction-cache line is stale. By the model's choice
(logs 1, 2, 3) the registers hold 0, `pc` 0x100 and every byte of memory 0. -/
def Obligations.ResetState : Prop :=
  State.reset.ie = false ∧ NoPrefix State.reset ∧ State.reset.stale = []
    ∧ (∀ r, State.reset.reg r = 0#32) ∧ (∀ q, State.reset.spr q = 0#32) ∧ State.reset.pc = 0x100#32
    ∧ ∀ a, State.reset.byte a = 0x00#8

/-! ## Rules about every instruction -/

/-- R35, R56 (inferences of the spec): an instruction outside the table of R35 never changes `flags`; one that is no
store of R56 never changes a byte of memory. -/
def Obligations.WhoWritesFlagsAndMemory : Prop :=
  ∀ (i : Instr) (s t : State), exec i s = .next t →
    (i.writesFlags = false → t.flags = s.flags) ∧ (i.storesMemory = false → ∀ a, t.byte a = s.byte a)

/-- R125: after any instruction other than `pre`, `lpre` and `index` no prefix is in effect. -/
def Obligations.NonPrefixEndsPrefixes : Prop :=
  ∀ (i : Instr) (s t : State), i.isPrefix = false → exec i s = .next t → NoPrefix t

/-- R336 (an inference of the spec): prefixes alone cannot hold off IRQs for ever; of four boundaries in a row one
has no prefix in effect. -/
def Obligations.PrefixRunIsBounded : Prop :=
  ∀ (s0 s1 s2 s3 s4 : State), step s0 = .next s1 → step s1 = .next s2 → step s2 = .next s3 → step s3 = .next s4 →
    s1.pfx.inEffect = false ∨ s2.pfx.inEffect = false ∨ s3.pfx.inEffect = false ∨ s4.pfx.inEffect = false

/-- R99 (D5): every instruction with an immediate field is refused when the prefix in effect has already expanded
an index immediate, before any other reason it could stop for (the order is the model's choice, log 12). -/
def Obligations.PrefixUsedTwice : Prop :=
  ∀ (s : State) (a : RegNum) (i : BitVec 5) (j : BitVec 9), s.pfx.usedByIndex = true →
    (∀ x ∈ [Instr.addImm a i, .addPc a i, .addSp a i, .addFp a i, .cmpImm a i, .cpyImm a i, .lslImm a i, .lsrImm a i,
        .asrImm a i, .andImm a i, .orrImm a i, .xorImm a i, .ze a i, .se a i, .swiReg a i, .swi i, .icreload a i],
      exec x s = .refused .prefixUsedTwice)
    ∧ ∀ x ∈ [Instr.bl j, .bra j, .beq j, .bne j, .bmi j, .bpl j, .bvs j, .bvc j, .bgeu j, .bltu j, .bgtu j, .bleu j,
        .bges j, .blts j, .bgts j, .bles j],
      exec x s = .refused .prefixUsedTwice

/-! ## Prefixes and immediates -/

/-- R121, R122: a `pre` or `lpre` with neither in effect latches its constant and goes on past its one or two units;
nothing else changes. -/
def Obligations.PreAndLpreLatch : Prop :=
  ∀ (s : State) (i : BitVec 12) (j : BitVec 27), s.pfx.immInEffect = false →
    (∃ t, exec (.pre i) s = .next t ∧ t.pfx = { s.pfx with preHave := true, preData := i }
      ∧ t.pc = s.pc + 2#32 ∧ Frame [] [] s t)
    ∧ ∃ t, exec (.lpre j) s = .next t ∧ t.pfx = { s.pfx with lpreHave := true, lpreData := j }
      ∧ t.pc = s.pc + 4#32 ∧ Frame [] [] s t

/-- R260, R261 (D4, D38): a valid `index` latches the sum, the register number and value of its `a` register, and its
second operand; an index of the other kind already in effect gives the base of the sum; an expanding prefix is noted. -/
def Obligations.IndexLatches : Prop :=
  ∀ (s : State) (a b : RegNum) (k : BitVec 7),
    (s.pfx.rrHave = false → ∃ t, exec (.indexReg a b) s = .next t
      ∧ t.pfx = { s.pfx with
          regSum := (if s.pfx.riHave then s.pfx.regSum else s.reg a) + s.reg b
          idxA := a, idxAval := s.reg a, idxB := b, regB := s.reg b, idxLast := .rr, rrHave := true }
      ∧ t.pc = s.pc + 2#32 ∧ Frame [] [] s t)
    ∧ (s.pfx.riHave = false → ∃ t, exec (.indexImm a k) s = .next t
      ∧ t.pfx = { s.pfx with
          regSum := (if s.pfx.rrHave then s.pfx.regSum else s.reg a) + s.immS k
          idxA := a, idxAval := s.reg a, regB := s.immS k, idxLast := .ri, riHave := true
          usedByIndex := s.pfx.usedByIndex || s.pfx.preHave || s.pfx.lpreHave }
      ∧ t.pc = s.pc + 2#32 ∧ Frame [] [] s t)

/-- R123, R264 (D6, D7, D36): a repeated `pre`, `lpre` or `index` of one kind is a NOP of one unit that ends every
prefix. -/
def Obligations.RepeatedPrefixIsNop : Prop :=
  ∀ (s : State) (a b : RegNum) (i : BitVec 12) (j : BitVec 27) (k : BitVec 7),
    let nop (x : Instr) : Prop := ∃ t, exec x s = .next t ∧ Frame [] [] s t ∧ EndsAtNext s t
    (s.pfx.preHave = true ∨ s.pfx.lpreHave = true → nop (.pre i) ∧ nop (.lpre j))
      ∧ (s.pfx.rrHave = true → nop (.indexReg a b))
      ∧ (s.pfx.riHave = true → nop (.indexImm a k))

/-- R262 (D7): one index of each kind accumulate in either order, the later one naming `idxA` and `indexRegB`; R128 (an
inference of the spec): a `pre` or `lpre` and an `index rA, rB` give one state in either order (with `index rA, #simm` the
order matters, D5: IndexLatches). -/
def Obligations.PrefixesCombine : Prop :=
  ∀ (s : State) (x y z : RegNum) (k : BitVec 7) (c : BitVec 12) (l : BitVec 27), NoPrefix s →
    (∃ t u, exec (.indexReg x y) s = .next t ∧ exec (.indexImm z k) t = .next u
      ∧ u.pfx.regSum = s.reg x + s.reg y + k.signExtend 32 ∧ u.pfx.idxA = z ∧ u.pfx.idxAval = s.reg z
      ∧ u.pfx.regB = k.signExtend 32 ∧ u.pfx.idxLast = .ri ∧ u.pfx.rrHave = true ∧ u.pfx.riHave = true)
    ∧ (∃ t u, exec (.indexImm x k) s = .next t ∧ exec (.indexReg z y) t = .next u
      ∧ u.pfx.regSum = s.reg x + k.signExtend 32 + s.reg y ∧ u.pfx.idxA = z ∧ u.pfx.idxAval = s.reg z
      ∧ u.pfx.idxB = y ∧ u.pfx.idxLast = .rr ∧ u.pfx.rrHave = true ∧ u.pfx.riHave = true)
    ∧ (∃ t u v, exec (.pre c) s = .next t ∧ exec (.indexReg x y) t = .next u
      ∧ exec (.indexReg x y) s = .next v ∧ exec (.pre c) v = .next u)
    ∧ ∃ t u v, exec (.lpre l) s = .next t ∧ exec (.indexReg x y) t = .next u
      ∧ exec (.indexReg x y) s = .next v ∧ exec (.lpre l) v = .next u

/-- R95 to R98 (D3, D4): the value of an immediate of 5, 7 or 9 bits: under `lpre` bit by bit, under `pre` the
sign-extended `pre.data` and field, with no prefix the field sign-extended (`simm`) or zero-extended (`imm`). -/
def Obligations.ImmediateExpansion : Prop :=
  ∀ (s : State) (w : Nat) (i : BitVec w), (w = 5 ∨ w = 7 ∨ w = 9) →
    (s.pfx.lpreHave = true → ∀ j, j < 32 →
      (s.immS i).getLsbD j = (if j < w then i.getLsbD j else s.pfx.lpreData.getLsbD (j - w))
        ∧ (s.immU i).getLsbD j = (s.immS i).getLsbD j)
    ∧ (s.pfx.lpreHave = false → s.pfx.preHave = true →
      (s.immS i).toInt = s.pfx.preData.toInt * 2 ^ w + i.toNat ∧ s.immU i = s.immS i)
    ∧ (s.pfx.immInEffect = false → (s.immS i).toInt = i.toInt ∧ (s.immU i).toNat = i.toNat)

/-! ## Atomics -/

/-- R129 (D28), R130 (G2): `xchg rA, rB` swaps the two registers; `xchg.l [rA], rB` stores the old `x[b]` at the old `x[a]`
and puts the old word there into `rB`, `a` = `b` included. -/
def Obligations.Exchange : Prop :=
  ∀ (s : State) (a b : RegNum),
    (∃ t, exec (.xchg a b) s = .next t ∧ t.reg a = s.reg b ∧ t.reg b = s.reg a ∧ Frame [a, b] [] s t ∧ EndsAtNext s t)
    ∧ (Memory.wf s.mem = true → s.canAccess (s.reg a) 4 →
      ∃ t, exec (.xchgL a b) s = .next t ∧ HoldsBytes t (s.reg a) 4 (s.reg b) ∧ t.reg b = s.wordAt (s.reg a)
        ∧ FrameStore [b] [] (s.reg a) 4 s t ∧ EndsAtNext s t)

/-- R131, R132 (D27, G2): `cmpxchg` and `cmpxchg.l` compare the word at `x[a]` with `idxAval`; on equality they store
`x[b]` there and set Z, otherwise they clear Z and store nothing; no register changes. -/
def Obligations.CompareExchange : Prop :=
  ∀ (s : State) (a b : RegNum), Memory.wf s.mem = true → s.canAccess (s.reg a) 4 →
    ∀ x ∈ [Instr.cmpxchg a b, .cmpxchgL a b],
      (s.wordAt (s.reg a) = s.pfx.idxAval →
        ∃ t, exec x s = .next t ∧ HoldsBytes t (s.reg a) 4 (s.reg b) ∧ t.flags = { s.flags with z := true }
          ∧ FrameStore [] [.flags] (s.reg a) 4 s t ∧ EndsAtNext s t)
      ∧ (s.wordAt (s.reg a) ≠ s.pfx.idxAval →
        ∃ t, exec x s = .next t ∧ t.flags = { s.flags with z := false } ∧ Frame [] [.flags] s t ∧ EndsAtNext s t)

/-! ## Group 1 -/

/-- R146: `cpy rA, #simm`: its encoding, its effect, and that an `lpre` before it loads any constant. -/
def Obligations.CpyImmediate : Prop :=
  ∀ (s : State) (a : RegNum) (i : BitVec 5),
    (∀ p idx u2, decodeUnits p idx (0x2050#16 ||| i.setWidth 16 <<< 8 ||| a.setWidth 16) u2 = .ok (.cpyImm a i))
    ∧ (s.pfx.usedByIndex = false → ∃ t, exec (.cpyImm a i) s = .next t ∧ t.reg a = s.immS i
      ∧ Frame [a] [] s t ∧ EndsAtNext s t)
    ∧ (NoPrefix s → ∀ c : Word, ∃ t u, exec (.lpre (c.extractLsb' 5 27)) s = .next t
      ∧ exec (.cpyImm a (c.extractLsb' 0 5)) t = .next u ∧ u.reg a = c ∧ u.pc = s.pc + 6#32)

/-- R150, R151, R152: `and`, `orr`, `xor` with an immediate: encoding and effect; `xor` with -1 complements. -/
def Obligations.BitwiseImmediate : Prop :=
  ∀ (s : State) (a : RegNum) (i : BitVec 5),
    let form (x : Instr) (base : InstrUnit) (v : Word) : Prop :=
      (∀ p idx u2, decodeUnits p idx (base ||| i.setWidth 16 <<< 8 ||| a.setWidth 16) u2 = .ok x)
      ∧ (s.pfx.usedByIndex = false → ∃ t, exec x s = .next t ∧ t.reg a = v ∧ Frame [a] [] s t ∧ EndsAtNext s t)
    form (.andImm a i) 0x2090#16 (s.reg a &&& s.immS i)
      ∧ form (.orrImm a i) 0x20A0#16 (s.reg a ||| s.immS i)
      ∧ form (.xorImm a i) 0x20B0#16 (s.reg a ^^^ s.immS i)
      ∧ (s.immS i = BitVec.allOnes 32 → s.reg a ^^^ s.immS i = ~~~s.reg a)

/-- R141 to R144, R147 to R149 (the first three and the register numbers of `sp`, `fp` are the spec's inference and D1):
the additions and shifts with an immediate write `rA` and nothing else. -/
def Obligations.AddAndShiftImmediate : Prop :=
  ∀ (s : State) (a : RegNum) (i : BitVec 5), s.pfx.usedByIndex = false →
    let writes (x : Instr) (v : Word) : Prop :=
      ∃ t, exec x s = .next t ∧ t.reg a = v ∧ Frame [a] [] s t ∧ EndsAtNext s t
    writes (.addImm a i) (s.reg a + s.immS i)
      ∧ writes (.addPc a i) (s.pc + s.immS i + 2#32)
      ∧ writes (.addSp a i) (s.reg 15#4 + s.immS i)
      ∧ writes (.addFp a i) (s.reg 14#4 + s.immS i)
      ∧ writes (.lslImm a i) (lsl32 (s.reg a) (s.immU i))
      ∧ writes (.lsrImm a i) (lsr32 (s.reg a) (s.immU i))
      ∧ writes (.asrImm a i) (asr32 (s.reg a) (s.immU i))

/-- R153, R154 (D9): `ze` clears the bits from the immediate up, `se` copies the bit it names into the bits above;
an immediate outside 0..31 is refused. -/
def Obligations.ExtendFromBit : Prop :=
  ∀ (s : State) (a : RegNum) (i : BitVec 5), s.pfx.usedByIndex = false →
    ((s.immU i).toNat < 32 →
      (∃ t, exec (.ze a i) s = .next t
        ∧ (∀ j, j < 32 → (t.reg a).getLsbD j = (decide (j < (s.immU i).toNat) && (s.reg a).getLsbD j))
        ∧ Frame [a] [] s t ∧ EndsAtNext s t)
      ∧ ∃ t, exec (.se a i) s = .next t
        ∧ (∀ j, j < 32 → (t.reg a).getLsbD j = (s.reg a).getLsbD (min j (s.immU i).toNat))
        ∧ Frame [a] [] s t ∧ EndsAtNext s t)
    ∧ (32 ≤ (s.immU i).toNat →
      exec (.ze a i) s = .refused .bitIndexOutOfRange ∧ exec (.se a i) s = .refused .bitIndexOutOfRange)

/-- R155, R156, R306 (D17, D29): `swi` takes the software interrupt whatever `ie` holds: its number to `sty`, `ity` 1,
the address of the next unit to `ira`, `ie` 0, `pc` to `ids`, no prefix left in effect, nothing else changed; an odd
`ids` is refused (R55, D15). -/
def Obligations.SoftwareInterrupt : Prop :=
  ∀ (s : State) (a : RegNum) (i : BitVec 5), s.pfx.usedByIndex = false →
    let enters (x : Instr) (n : Word) : Prop :=
      (s.ids.getLsbD 0 = false → ∃ t, exec x s = .next t ∧ t.sty = n ∧ t.ity = true ∧ t.ira = s.pc + 2#32
        ∧ t.ie = false ∧ t.pc = s.ids ∧ Frame [] [.sty, .ity, .ira, .ie] s t ∧ NoPrefix t)
      ∧ (s.ids.getLsbD 0 = true → exec x s = .refused .misalignedPc)
    enters (.swiReg a i) (s.reg a + s.immS i) ∧ enters (.swi i) (s.immU i)

/-! ## Group 2 and the shared arithmetic -/

/-- R157 (D8, G3): a shift by `n`, however large, is the product or the quotient by 2^n, the quotient of the
arithmetic shift rounded down. -/
def Obligations.ShiftValues : Prop :=
  ∀ (v n : Word), (lsl32 v n).toNat = v.toNat * 2 ^ n.toNat % 2 ^ 32
    ∧ (lsr32 v n).toNat = v.toNat / 2 ^ n.toNat
    ∧ (asr32 v n).toInt = v.toInt / 2 ^ n.toNat

/-- R160 to R174: the plain forms write `rA` and leave `flags` (that they all do is the spec's inference, R160). -/
def Obligations.PlainRegisterForms : Prop :=
  ∀ (s : State) (a b : RegNum),
    let writes (x : Instr) (v : Word) : Prop :=
      ∃ t, exec x s = .next t ∧ t.reg a = v ∧ Frame [a] [] s t ∧ EndsAtNext s t
    writes (.add a b) (s.reg a + s.reg b)
      ∧ writes (.sub a b) (s.reg a - s.reg b)
      ∧ writes (.addSpReg a b) (s.reg 15#4 + s.reg b)
      ∧ writes (.addFpReg a b) (s.reg 14#4 + s.reg b)
      ∧ writes (.cpy a b) (s.reg b)
      ∧ writes (.lsl a b) (lsl32 (s.reg a) (s.reg b))
      ∧ writes (.lsr a b) (lsr32 (s.reg a) (s.reg b))
      ∧ writes (.asr a b) (asr32 (s.reg a) (s.reg b))
      ∧ writes (.and a b) (s.reg a &&& s.reg b)
      ∧ writes (.orr a b) (s.reg a ||| s.reg b)
      ∧ writes (.xor a b) (s.reg a ^^^ s.reg b)
      ∧ writes (.adc a b) (s.reg a + s.reg b + bitWord s.flags.c)
      ∧ writes (.sbc a b) (s.reg a + ~~~s.reg b + bitWord s.flags.c)

/-- R33 (G1), R161 to R164, R173, R174: the `.f` forms that add or subtract write `rA` and all four flags: Z a zero
result, C a carry out of bit 31, V a signed sum out of range, N a negative result. -/
def Obligations.SumsWithFlags : Prop :=
  ∀ (s : State) (a b : RegNum),
    let writes (x : Instr) (p q : Word) (cin : Bool) : Prop :=
      ∃ t, exec x s = .next t ∧ t.reg a = p + q + bitWord cin
        ∧ (t.flags.z = true ↔ t.reg a = 0#32)
        ∧ (t.flags.c = true ↔ 2 ^ 32 ≤ p.toNat + q.toNat + cin.toNat)
        ∧ (t.flags.v = true ↔ ¬(-2 ^ 31 ≤ p.toInt + q.toInt + cin.toNat ∧ p.toInt + q.toInt + cin.toNat < 2 ^ 31))
        ∧ (t.flags.n = true ↔ (t.reg a).toInt < 0)
        ∧ Frame [a] [.flags] s t ∧ EndsAtNext s t
    writes (.addF a b) (s.reg a) (s.reg b) false
      ∧ writes (.subF a b) (s.reg a) (~~~s.reg b) true
      ∧ writes (.addSpRegF a b) (s.reg 15#4) (s.reg b) false
      ∧ writes (.addFpRegF a b) (s.reg 14#4) (s.reg b) false
      ∧ writes (.adcF a b) (s.reg a) (s.reg b) s.flags.c
      ∧ writes (.sbcF a b) (s.reg a) (~~~s.reg b) s.flags.c

/-- R34 (an inference of the spec), R166 to R172: the `.f` forms that copy, shift or combine bits write `rA`, Z and
N from the result, and keep C and V. -/
def Obligations.BitsWithFlags : Prop :=
  ∀ (s : State) (a b : RegNum),
    let writes (x : Instr) (v : Word) : Prop :=
      ∃ t, exec x s = .next t ∧ t.reg a = v
        ∧ (t.flags.z = true ↔ v = 0#32) ∧ (t.flags.n = true ↔ v.toInt < 0) ∧ t.flags.c = s.flags.c
        ∧ t.flags.v = s.flags.v ∧ Frame [a] [.flags] s t ∧ EndsAtNext s t
    writes (.cpyF a b) (s.reg b)
      ∧ writes (.lslF a b) (lsl32 (s.reg a) (s.reg b))
      ∧ writes (.lsrF a b) (lsr32 (s.reg a) (s.reg b))
      ∧ writes (.asrF a b) (asr32 (s.reg a) (s.reg b))
      ∧ writes (.andF a b) (s.reg a &&& s.reg b)
      ∧ writes (.orrF a b) (s.reg a ||| s.reg b)
      ∧ writes (.xorF a b) (s.reg a ^^^ s.reg b)

/-- R33 (G1), R145, R165: after `cmp`, Z says equal, C unsigned not less, N xor V signed less, V a signed difference out
of range, N a negative difference; no register changes. -/
def Obligations.CompareFlags : Prop :=
  ∀ (s : State) (a b : RegNum) (i : BitVec 5),
    let compares (x : Instr) (q : Word) : Prop :=
      ∃ t, exec x s = .next t
        ∧ (t.flags.z = true ↔ s.reg a = q)
        ∧ (t.flags.c = true ↔ q.toNat ≤ (s.reg a).toNat)
        ∧ (t.flags.n ≠ t.flags.v ↔ (s.reg a).toInt < q.toInt)
        ∧ (t.flags.v = true ↔
            ¬(-2 ^ 31 ≤ (s.reg a).toInt - q.toInt ∧ (s.reg a).toInt - q.toInt < 2 ^ 31))
        ∧ (t.flags.n = true ↔ (s.reg a - q).toInt < 0)
        ∧ Frame [] [.flags] s t ∧ EndsAtNext s t
    compares (.cmp a b) (s.reg b) ∧ (s.pfx.usedByIndex = false → compares (.cmpImm a i) (s.immS i))

/-- R175: `cmpbc` sets C, V, N by `rA + (~rB) + flags.C` (how is R33, G1) and Z to the old Z and a zero result. -/
def Obligations.CompareWithBorrow : Prop :=
  ∀ (s : State) (a b : RegNum),
    let p := s.reg a
    let q := ~~~s.reg b
    let r := p + q + bitWord s.flags.c
    ∃ t, exec (.cmpbc a b) s = .next t
      ∧ (t.flags.z = true ↔ s.flags.z = true ∧ r = 0#32)
      ∧ (t.flags.c = true ↔ 2 ^ 32 ≤ p.toNat + q.toNat + s.flags.c.toNat)
      ∧ (t.flags.v = true ↔
          ¬(-2 ^ 31 ≤ p.toInt + q.toInt + s.flags.c.toNat ∧ p.toInt + q.toInt + s.flags.c.toNat < 2 ^ 31))
      ∧ (t.flags.n = true ↔ r.toInt < 0)
      ∧ Frame [] [.flags] s t ∧ EndsAtNext s t

/-- R173 to R175: the carry instructions extend addition, subtraction and comparison to two words: `add.f` then `adc`,
`sub.f` then `sbc`, `cmp` then `cmpbc`. It rests on C being the carry out, so no borrow, after `add.f`, `sub.f` and `cmp`
(R161, R162, R165), which is R33's formula (G1, from general knowledge, not in source; log 18). -/
def Obligations.TwoWordArithmetic : Prop :=
  ∀ (s : State) (l h m k : RegNum),
    let x : DWord := s.reg h ++ s.reg l
    let y : DWord := s.reg k ++ s.reg m
    (l ≠ h → l ≠ k →
      (∃ t u, exec (.addF l m) s = .next t ∧ exec (.adc h k) t = .next u ∧ (u.reg h ++ u.reg l : DWord) = x + y)
      ∧ ∃ t u, exec (.subF l m) s = .next t ∧ exec (.sbc h k) t = .next u ∧ (u.reg h ++ u.reg l : DWord) = x - y)
    ∧ ∃ t u, exec (.cmp l m) s = .next t ∧ exec (.cmpbc h k) t = .next u
      ∧ (u.flags.z = true ↔ x = y) ∧ (u.flags.c = true ↔ y.toNat ≤ x.toNat)
      ∧ (u.flags.n ≠ u.flags.v ↔ x.toInt < y.toInt)

/-! ## Branches and jumps -/

/-- R182 to R190: `bra` and the branches on one flag: encoding, condition, target; a branch not taken goes on at the
next unit; nothing else changes. -/
def Obligations.BranchesOnOneFlag : Prop :=
  ∀ (s : State) (i : BitVec 9), s.pfx.usedByIndex = false →
    let target := s.pc + s.immS i + 2#32
    let branches (x : Instr) (base : InstrUnit) (cond : Bool) : Prop :=
      (∀ p idx u2, decodeUnits p idx (base ||| i.setWidth 16 <<< 4) u2 = .ok x)
      ∧ (cond = true → target.getLsbD 0 = false →
          ∃ t, exec x s = .next t ∧ t.pc = target ∧ Frame [] [] s t ∧ NoPrefix t)
      ∧ (cond = false → ∃ t, exec x s = .next t ∧ Frame [] [] s t ∧ EndsAtNext s t)
    branches (.bra i) 0x6001#16 true
      ∧ branches (.beq i) 0x6002#16 s.flags.z
      ∧ branches (.bne i) 0x6003#16 (!s.flags.z)
      ∧ branches (.bmi i) 0x6004#16 s.flags.n
      ∧ branches (.bpl i) 0x6005#16 (!s.flags.n)
      ∧ branches (.bvs i) 0x6006#16 s.flags.v
      ∧ branches (.bvc i) 0x6007#16 (!s.flags.v)
      ∧ branches (.bgeu i) 0x6008#16 s.flags.c
      ∧ branches (.bltu i) 0x6009#16 (!s.flags.c)

/-- R191 to R196: the branches on more than one flag: encoding, condition, target; a branch not taken goes on at the next
unit; nothing else changes. -/
def Obligations.BranchesOnSeveralFlags : Prop :=
  ∀ (s : State) (i : BitVec 9), s.pfx.usedByIndex = false →
    let target := s.pc + s.immS i + 2#32
    let branches (x : Instr) (base : InstrUnit) (cond : Prop) : Prop :=
      (∀ p idx u2, decodeUnits p idx (base ||| i.setWidth 16 <<< 4) u2 = .ok x)
      ∧ (cond → target.getLsbD 0 = false →
          ∃ t, exec x s = .next t ∧ t.pc = target ∧ Frame [] [] s t ∧ NoPrefix t)
      ∧ (¬cond → ∃ t, exec x s = .next t ∧ Frame [] [] s t ∧ EndsAtNext s t)
    branches (.bgtu i) 0x600A#16 (s.flags.c = true ∧ s.flags.z = false)
      ∧ branches (.bleu i) 0x600B#16 (s.flags.c = false ∨ s.flags.z = true)
      ∧ branches (.bges i) 0x600C#16 (s.flags.n = s.flags.v)
      ∧ branches (.blts i) 0x600D#16 (s.flags.n ≠ s.flags.v)
      ∧ branches (.bgts i) 0x600E#16 (s.flags.n = s.flags.v ∧ s.flags.z = false)
      ∧ branches (.bles i) 0x600F#16 (s.flags.n ≠ s.flags.v ∨ s.flags.z = true)

/-- R33 (an inference of the spec), R165: after `cmp rA, rB` each conditional branch goes where its name says, for the
unsigned and the signed order of the two registers. -/
def Obligations.CompareThenBranch : Prop :=
  ∀ (s : State) (a b : RegNum) (i : BitVec 9), s.pc.getLsbD 0 = false → evenOffset i = true →
    ∃ t, exec (.cmp a b) s = .next t ∧
      let goes (x : Instr) (cond : Prop) : Prop :=
        ∃ u, exec x t = .next u ∧ (cond → u.pc = s.pc + 4#32 + i.signExtend 32) ∧ (¬cond → u.pc = s.pc + 4#32)
      let p := s.reg a
      let q := s.reg b
      goes (.beq i) (p = q) ∧ goes (.bne i) (p ≠ q)
        ∧ goes (.bgeu i) (q.toNat ≤ p.toNat) ∧ goes (.bltu i) (p.toNat < q.toNat)
        ∧ goes (.bgtu i) (q.toNat < p.toNat) ∧ goes (.bleu i) (p.toNat ≤ q.toNat)
        ∧ goes (.bges i) (q.toInt ≤ p.toInt) ∧ goes (.blts i) (p.toInt < q.toInt)
        ∧ goes (.bgts i) (q.toInt < p.toInt) ∧ goes (.bles i) (p.toInt ≤ q.toInt)

/-- R181, R200 to R203 (register 13 is `lr` by D1): `bl` and `jl` link, `jmp` and `jmp ira` only go, `reti` also sets
`ie`. -/
def Obligations.CallsAndJumps : Prop :=
  ∀ (s : State) (a : RegNum) (i : BitVec 9),
    (s.pfx.usedByIndex = false → (s.pc + s.immS i + 2#32).getLsbD 0 = false →
      ∃ t, exec (.bl i) s = .next t ∧ t.pc = s.pc + s.immS i + 2#32 ∧ t.reg 13#4 = s.pc + 2#32
        ∧ Frame [13#4] [] s t ∧ NoPrefix t)
    ∧ ((s.reg a).getLsbD 0 = false →
      (∃ t, exec (.jl a) s = .next t ∧ t.pc = s.reg a ∧ t.reg 13#4 = s.pc + 2#32 ∧ Frame [13#4] [] s t ∧ NoPrefix t)
      ∧ ∃ t, exec (.jmp a) s = .next t ∧ t.pc = s.reg a ∧ Frame [] [] s t ∧ NoPrefix t)
    ∧ (s.ira.getLsbD 0 = false →
      (∃ t, exec .jmpIra s = .next t ∧ t.pc = s.ira ∧ Frame [] [] s t ∧ NoPrefix t)
      ∧ ∃ t, exec .reti s = .next t ∧ t.pc = s.ira ∧ t.ie = true ∧ Frame [] [.ie] s t ∧ NoPrefix t)

/-- R55 (D15): a branch that is taken, a jump, a return or a `pop pc` to an odd address is refused. -/
def Obligations.OddTargetsRefused : Prop :=
  ∀ (s : State) (a b : RegNum) (i : BitVec 9),
    (s.pfx.usedByIndex = false → (s.pc + s.immS i + 2#32).getLsbD 0 = true →
      let f := s.flags
      ∀ x ∈ [(Instr.bl i, true), (.bra i, true), (.beq i, f.z), (.bne i, !f.z), (.bmi i, f.n), (.bpl i, !f.n),
          (.bvs i, f.v), (.bvc i, !f.v), (.bgeu i, f.c), (.bltu i, !f.c), (.bgtu i, f.c && !f.z),
          (.bleu i, !f.c || f.z), (.bges i, f.n == f.v), (.blts i, f.n != f.v), (.bgts i, f.n == f.v && !f.z),
          (.bles i, f.n != f.v || f.z)],
        x.2 = true → exec x.1 s = .refused .misalignedPc)
    ∧ ((s.reg a).getLsbD 0 = true → exec (.jl a) s = .refused .misalignedPc ∧ exec (.jmp a) s = .refused .misalignedPc)
    ∧ (s.ira.getLsbD 0 = true → exec .jmpIra s = .refused .misalignedPc ∧ exec .reti s = .refused .misalignedPc)
    ∧ (s.canAccess (s.reg b + 4#32) 4 → (s.wordAt (s.reg b + 4#32)).getLsbD 0 = true →
      exec (.popPc b) s = .refused .misalignedPc)

/-- R204, R205: `ei` and `di`: encodings (the `a` and `b` fields unused) and effect; and that an IRQ can be taken at the
boundary right after `ei` (R204, R304). How it is asked for is the model's own choice, a sample of the boundary that raises
and serves it (log 5); that its entry goes to `ids` with `ira` the address not executed is R306 (D17, log 20). -/
def Obligations.EnableAndDisable : Prop :=
  (∀ (idx : Bool) (u2 : InstrUnit) (m : BitVec 8),
    decodeUnits .ignore idx (0x8400#16 ||| m.setWidth 16) u2 = .ok .ei
      ∧ decodeUnits .ignore idx (0x8500#16 ||| m.setWidth 16) u2 = .ok .di)
  ∧ ∀ (s : State),
    (∃ t, exec .ei s = .next t ∧ t.ie = true ∧ Frame [] [.ie] s t ∧ EndsAtNext s t
      ∧ (∀ rest, s.irqLine = ⟨true, true⟩ :: rest → s.ids.getLsbD 0 = false →
          ∃ u, step t = .next u ∧ u.pc = s.ids ∧ u.ira = s.pc + 2#32))
    ∧ ∃ t, exec .di s = .next t ∧ t.ie = false ∧ Frame [] [.ie] s t ∧ EndsAtNext s t

/-! ## Stack -/

/-- R206, R207 (D30, D32): a push stores the word at the old `x[b]` and then subtracts 4; `push rA, rA` does nothing. -/
def Obligations.PushStoresAndDecrements : Prop :=
  ∀ (s : State) (a b : RegNum) (q : Spr), Memory.wf s.mem = true →
    let pushes (x : Instr) (v : Word) : Prop :=
      ∃ t, exec x s = .next t ∧ HoldsBytes t (s.reg b) 4 v ∧ t.reg b = s.reg b - 4#32
        ∧ FrameStore [b] [] (s.reg b) 4 s t ∧ EndsAtNext s t
    (s.canAccess (s.reg b) 4 → (a ≠ b → pushes (.push a b) (s.reg a)) ∧ pushes (.pushSpr q b) (s.spr q))
      ∧ (a = b → ∃ t, exec (.push a b) s = .next t ∧ Frame [] [] s t ∧ EndsAtNext s t)

/-- R208 to R210 (D18, D30, D32): a pop adds 4 to `x[b]` and loads the word there, into a register, into the held bits of
a special-purpose register, or into `pc`; `pop rA, rA` does nothing. -/
def Obligations.PopIncrementsAndLoads : Prop :=
  ∀ (s : State) (a b : RegNum) (q : Spr),
    let v := s.wordAt (s.reg b + 4#32)
    (s.canAccess (s.reg b + 4#32) 4 →
      (a ≠ b → ∃ t, exec (.pop a b) s = .next t ∧ t.reg a = v ∧ t.reg b = s.reg b + 4#32
        ∧ Frame [a, b] [] s t ∧ EndsAtNext s t)
      ∧ (∃ t, exec (.popSpr q b) s = .next t ∧ t.spr q = v &&& q.heldBits ∧ t.reg b = s.reg b + 4#32
        ∧ Frame [b] [q] s t ∧ EndsAtNext s t)
      ∧ (v.getLsbD 0 = false → ∃ t, exec (.popPc b) s = .next t ∧ t.pc = v ∧ t.reg b = s.reg b + 4#32
        ∧ Frame [b] [] s t ∧ NoPrefix t))
    ∧ (a = b → ∃ t, exec (.pop a b) s = .next t ∧ Frame [] [] s t ∧ EndsAtNext s t)

/-! ## Multiply and divide -/

/-- R211: `mul`: encoding, and that the result is the low half of the product, signed or unsigned; an index in effect
is ignored. -/
def Obligations.MultiplyLow : Prop :=
  ∀ (s : State) (a b : RegNum),
    (∀ p idx u2, decodeUnits p idx (0x8B00#16 ||| b.setWidth 16 <<< 4 ||| a.setWidth 16) u2 = .ok (.mul a b))
    ∧ ∃ t, exec (.mul a b) s = .next t
      ∧ t.reg a = BitVec.ofNat 32 ((s.reg a).toNat * (s.reg b).toNat)
      ∧ t.reg a = BitVec.ofInt 32 ((s.reg a).toInt * (s.reg b).toInt)
      ∧ Frame [a] [] s t ∧ EndsAtNext s t

/-- R214, R215, R220 (D12): the 64-bit products go to `r0` (high) and `r1` (low), or with an index in effect whose later
one is `index rA, rB` to `idxA` and `idxB`. -/
def Obligations.MultiplyLong : Prop :=
  ∀ (s : State) (a b : RegNum),
    let into (hi lo : RegNum) : Prop :=
      (∃ t, exec (.lumul a b) s = .next t
        ∧ (t.reg hi ++ t.reg lo : DWord).toNat = (s.reg a).toNat * (s.reg b).toNat
        ∧ Frame [hi, lo] [] s t ∧ EndsAtNext s t)
      ∧ ∃ t, exec (.lsmul a b) s = .next t
        ∧ (t.reg hi ++ t.reg lo : DWord).toInt = (s.reg a).toInt * (s.reg b).toInt
        ∧ Frame [hi, lo] [] s t ∧ EndsAtNext s t
    (s.pfx.indexInEffect = false → into 0#4 1#4)
      ∧ (s.pfx.indexInEffect = true → s.pfx.idxLast = .rr → s.pfx.idxA ≠ s.pfx.idxB → into s.pfx.idxA s.pfx.idxB)

/-- R212, R213: the 32-bit divides write the quotient to `rA` and, with an index in effect, the remainder to `idxA`
(for every divisor; the values are the subject of DivisionValues). -/
def Obligations.Divide32 : Prop :=
  ∀ (s : State) (a b : RegNum),
    let divides (x : Instr) (qr : Word × Word) : Prop :=
      (s.pfx.indexInEffect = false →
        ∃ t, exec x s = .next t ∧ t.reg a = qr.1 ∧ Frame [a] [] s t ∧ EndsAtNext s t)
      ∧ (s.pfx.indexInEffect = true → s.pfx.idxA ≠ a →
        ∃ t, exec x s = .next t ∧ t.reg a = qr.1 ∧ t.reg s.pfx.idxA = qr.2
          ∧ Frame [a, s.pfx.idxA] [] s t ∧ EndsAtNext s t)
    divides (.udiv a b) (unsignedDivide (s.reg a) (s.reg b)) ∧ divides (.sdiv a b) (signedDivide (s.reg a) (s.reg b))

/-- R216, R217 (D12): the 64-bit divides read and write even/odd register pairs, bit 0 of both fields ignored, and with an
index in effect put the remainder into `idxA` (high) and `idxB` (low). -/
def Obligations.Divide64 : Prop :=
  ∀ (s : State) (a b : RegNum),
    let hi := a &&& 0xE#4
    let lo := a ||| 1#4
    let n : DWord := s.reg hi ++ s.reg lo
    let d : DWord := s.reg (b &&& 0xE#4) ++ s.reg (b ||| 1#4)
    let ra := s.pfx.idxA
    let rb := s.pfx.idxB
    let divides (x : Instr) (qr : DWord × DWord) : Prop :=
      (s.pfx.indexInEffect = false →
        ∃ t, exec x s = .next t ∧ (t.reg hi ++ t.reg lo : DWord) = qr.1 ∧ Frame [hi, lo] [] s t ∧ EndsAtNext s t)
      ∧ (s.pfx.indexInEffect = true → s.pfx.idxLast = .rr → ra ≠ rb → ra ≠ hi → ra ≠ lo → rb ≠ hi → rb ≠ lo →
        ∃ t, exec x s = .next t ∧ (t.reg hi ++ t.reg lo : DWord) = qr.1 ∧ (t.reg ra ++ t.reg rb : DWord) = qr.2
          ∧ Frame [hi, lo, ra, rb] [] s t ∧ EndsAtNext s t)
    divides (.udiv64 a b) (unsignedDivide64 n d) ∧ divides (.sdiv64 a b) (signedDivide64 n d)

/-- R219 (D10, D11): unsigned division rounds down; signed division truncates toward zero and the remainder has the
sign of the dividend; a zero divisor and the most negative value by -1 give the free values of log 9. -/
def Obligations.DivisionValues : Prop :=
  (∀ n d : Word,
    (d ≠ 0#32 → n.toNat = (unsignedDivide n d).1.toNat * d.toNat + (unsignedDivide n d).2.toNat
      ∧ (unsignedDivide n d).2.toNat < d.toNat)
    ∧ (d = 0#32 → unsignedDivide n d = Config.divZero32 false n ∧ signedDivide n d = Config.divZero32 true n)
    ∧ (n = 0x80000000#32 → d = 0xFFFFFFFF#32 → signedDivide n d = Config.divOverflow32 n)
    ∧ (d ≠ 0#32 → ¬(n = 0x80000000#32 ∧ d = 0xFFFFFFFF#32) →
      n.toInt = (signedDivide n d).1.toInt * d.toInt + (signedDivide n d).2.toInt
        ∧ |(signedDivide n d).2.toInt| < |d.toInt|
        ∧ (0 ≤ n.toInt → 0 ≤ (signedDivide n d).2.toInt) ∧ (n.toInt ≤ 0 → (signedDivide n d).2.toInt ≤ 0)))
  ∧ ∀ n d : DWord,
    (d ≠ 0#64 → n.toNat = (unsignedDivide64 n d).1.toNat * d.toNat + (unsignedDivide64 n d).2.toNat
      ∧ (unsignedDivide64 n d).2.toNat < d.toNat)
    ∧ (d = 0#64 → unsignedDivide64 n d = Config.divZero64 false n ∧ signedDivide64 n d = Config.divZero64 true n)
    ∧ (n = 0x8000000000000000#64 → d = 0xFFFFFFFFFFFFFFFF#64 → signedDivide64 n d = Config.divOverflow64 n)
    ∧ (d ≠ 0#64 → ¬(n = 0x8000000000000000#64 ∧ d = 0xFFFFFFFFFFFFFFFF#64) →
      n.toInt = (signedDivide64 n d).1.toInt * d.toInt + (signedDivide64 n d).2.toInt
        ∧ |(signedDivide64 n d).2.toInt| < |d.toInt|
        ∧ (0 ≤ n.toInt → 0 ≤ (signedDivide64 n d).2.toInt) ∧ (n.toInt ≤ 0 → (signedDivide64 n d).2.toInt ≤ 0))

/-- R212 to R217, R220 (D31, D35): where a divide or long multiply is refused: two results aimed at one register, or a
second destination that the later index gives as an immediate. -/
def Obligations.MultiplyDivideStops : Prop :=
  ∀ (s : State) (a b : RegNum), s.pfx.indexInEffect = true →
    (s.pfx.idxA = a → ∀ x ∈ [Instr.udiv a b, .sdiv a b], exec x s = .refused .destinationOverlap)
    ∧ (s.pfx.idxLast = .ri →
      ∀ x ∈ [Instr.lumul a b, .lsmul a b, .udiv64 a b, .sdiv64 a b], exec x s = .refused .noIndexRegB)
    ∧ (s.pfx.idxLast = .rr → s.pfx.idxA = s.pfx.idxB →
      ∀ x ∈ [Instr.lumul a b, .lsmul a b, .udiv64 a b, .sdiv64 a b], exec x s = .refused .destinationOverlap)
    ∧ (s.pfx.idxLast = .rr →
      s.pfx.idxA = a &&& 0xE#4 ∨ s.pfx.idxA = a ||| 1#4 ∨ s.pfx.idxB = a &&& 0xE#4 ∨ s.pfx.idxB = a ||| 1#4 →
      ∀ x ∈ [Instr.udiv64 a b, .sdiv64 a b], exec x s = .refused .destinationOverlap)

/-! ## Loads and stores -/

/-- R231 to R234: the narrow loads: encoding, the bytes read at the effective address of R230, extension, frame. -/
def Obligations.NarrowLoads : Prop :=
  ∀ (s : State) (a b : RegNum),
    let form (x : Instr) (base : InstrUnit) (n : Nat) (v : Word) : Prop :=
      (∀ p idx u2, decodeUnits p idx (base ||| b.setWidth 16 <<< 4 ||| a.setWidth 16) u2 = .ok x)
      ∧ (s.canAccess (s.ea b) n → ∃ t, exec x s = .next t ∧ t.reg a = v ∧ Frame [a] [] s t ∧ EndsAtNext s t)
    form (.ldub a b) 0x9200#16 1 ((s.byte (s.ea b).toNat).setWidth 32)
      ∧ form (.ldsb a b) 0x9300#16 1 ((s.byte (s.ea b).toNat).signExtend 32)
      ∧ form (.lduh a b) 0x9400#16 2 ((s.halfAt (s.ea b)).setWidth 32)
      ∧ form (.ldsh a b) 0x9500#16 2 ((s.halfAt (s.ea b)).signExtend 32)

/-- R235 (conflict C3), R276, R277 (D18, D33): the word loads: `ldr` at the effective address of R230 into a register, the
special-purpose register loads at `x[b]` or `s[b]` into the held bits. -/
def Obligations.WordLoads : Prop :=
  ∀ (s : State) (a b : RegNum) (q r : Spr),
    (s.canAccess (s.ea b) 4 → ∃ t, exec (.ldr a b) s = .next t ∧ t.reg a = s.wordAt (s.ea b)
      ∧ Frame [a] [] s t ∧ EndsAtNext s t)
    ∧ (s.canAccess (s.reg b) 4 → ∃ t, exec (.ldrSpr q b) s = .next t
      ∧ t.spr q = s.wordAt (s.reg b) &&& q.heldBits ∧ Frame [] [q] s t ∧ EndsAtNext s t)
    ∧ (s.canAccess (s.spr r) 4 → ∃ t, exec (.ldrSprSpr q r) s = .next t
      ∧ t.spr q = s.wordAt (s.spr r) &&& q.heldBits ∧ Frame [] [q] s t ∧ EndsAtNext s t)

/-- R236, R237, R238: the stores: encoding, the bytes written at the effective address of R230, frame. -/
def Obligations.Stores : Prop :=
  ∀ (s : State) (a b : RegNum), Memory.wf s.mem = true →
    let form (x : Instr) (base : InstrUnit) (n : Nat) : Prop :=
      (∀ p idx u2, decodeUnits p idx (base ||| b.setWidth 16 <<< 4 ||| a.setWidth 16) u2 = .ok x)
      ∧ (s.canAccess (s.ea b) n → ∃ t, exec x s = .next t ∧ HoldsBytes t (s.ea b) n (s.reg a)
          ∧ FrameStore [] [] (s.ea b) n s t ∧ EndsAtNext s t)
    form (.stb a b) 0x9800#16 1 ∧ form (.sth a b) 0x9900#16 2 ∧ form (.str a b) 0x9A00#16 4

/-- R278, R279 (D18, D33): the special-purpose register stores write the zero-extended register at `x[b]` or `s[b]`. -/
def Obligations.SprStores : Prop :=
  ∀ (s : State) (b : RegNum) (q r : Spr), Memory.wf s.mem = true →
    let stores (x : Instr) (a : Word) : Prop :=
      s.canAccess a 4 → ∃ t, exec x s = .next t ∧ HoldsBytes t a 4 (s.spr q) ∧ FrameStore [] [] a 4 s t ∧ EndsAtNext s t
    stores (.strSpr q b) (s.reg b) ∧ stores (.strSprSpr q r) (s.spr r)

/-- R63 (D23), R334: every store, push and successful atomic write makes the lines of its bytes possibly stale, and no
other line; a fetch from one of them is then refused. -/
def Obligations.StoresMarkLines : Prop :=
  ∀ (s t : State) (a b : RegNum) (q r : Spr),
    let marks (x : Instr) (addr : Word) (n : Nat) : Prop :=
      exec x s = .next t → MarksLines addr n s t
        ∧ ∀ pc : Word, pc.getLsbD 0 = false → checkBacked t.plat.memMap pc.toNat 2 = .ok () →
            (pc.toNat / lineBytes = addr.toNat / lineBytes ∨ pc.toNat / lineBytes = (addr.toNat + n - 1) / lineBytes) →
              t.fetchUnit pc = .error (.refused .staleFetch)
    marks (.stb a b) (s.ea b) 1 ∧ marks (.sth a b) (s.ea b) 2 ∧ marks (.str a b) (s.ea b) 4
      ∧ (a ≠ b → marks (.push a b) (s.reg b) 4) ∧ marks (.pushSpr q b) (s.reg b) 4
      ∧ marks (.strSpr q b) (s.reg b) 4 ∧ marks (.strSprSpr q r) (s.spr r) 4 ∧ marks (.xchgL a b) (s.reg a) 4
      ∧ (s.wordAt (s.reg a) = s.pfx.idxAval →
          marks (.cmpxchg a b) (s.reg a) 4 ∧ marks (.cmpxchgL a b) (s.reg a) 4)

/-- R52, R68, R206, R208: what a `str` wrote is what later loads read: the word by `ldr`, byte `k` by `ldub`;
a `pop` after a `push` gives the value and the stack pointer back. -/
def Obligations.LoadAfterStore : Prop :=
  ∀ (s t : State) (a b c d : RegNum), Memory.wf s.mem = true →
    (exec (.str a b) s = .next t →
      (t.reg d = s.ea b → ∃ u, exec (.ldr c d) t = .next u ∧ u.reg c = s.reg a)
      ∧ ∀ k, k < 4 → t.reg d = s.ea b + BitVec.ofNat 32 k →
          ∃ u, exec (.ldub c d) t = .next u ∧ u.reg c = ((s.reg a).extractLsb' (8 * k) 8).setWidth 32)
    ∧ (a ≠ b → c ≠ b → exec (.push a b) s = .next t →
      ∃ u, exec (.pop c b) t = .next u ∧ u.reg c = s.reg a ∧ u.reg b = s.reg b)

/-- R50 (D26), R57 (D14, log 6), R60 (D22): which data accesses are performed, and where the others stop: a misaligned one
under the default policy, one that wraps, one that reaches an unbacked or a device byte. The model's choice: a device byte
is refused as `deviceAccess` (log 4; R59 leaves devices to the platform), the reasons come in the order misaligned, wraps,
first byte not backed by memory, and a wrap and an unbacked byte are faults, the others refusals (log 12). -/
def Obligations.AccessStops : Prop :=
  ∀ (s : State) (a b : RegNum) (q r : Spr),
    let kind := kindAt s.plat.memMap
    let aligned (addr : Word) (n : Nat) : Prop := s.plat.misaligned = .perform ∨ addr.toNat % n = 0
    let stops (x : Instr) (addr : Word) (n : Nat) : Prop :=
      (s.canAccess addr n ↔ aligned addr n ∧ addr.toNat + n ≤ 2 ^ 32 ∧ ∀ k, k < n → kind (addr.toNat + k) = some .memory)
      ∧ (¬aligned addr n → exec x s = .refused .misalignedData)
      ∧ (aligned addr n → 2 ^ 32 < addr.toNat + n → exec x s = .fault .accessWraps)
      ∧ (aligned addr n → addr.toNat + n ≤ 2 ^ 32 →
          ∀ k, k < n → (∀ j, j < k → kind (addr.toNat + j) = some .memory) →
            (kind (addr.toNat + k) = none → exec x s = .fault .unbackedAddress)
            ∧ (kind (addr.toNat + k) = some .device → exec x s = .refused .deviceAccess))
    stops (.ldub a b) (s.ea b) 1 ∧ stops (.ldsb a b) (s.ea b) 1 ∧ stops (.lduh a b) (s.ea b) 2
      ∧ stops (.ldsh a b) (s.ea b) 2 ∧ stops (.ldr a b) (s.ea b) 4 ∧ stops (.stb a b) (s.ea b) 1
      ∧ stops (.sth a b) (s.ea b) 2 ∧ stops (.str a b) (s.ea b) 4
      ∧ (a ≠ b → stops (.push a b) (s.reg b) 4 ∧ stops (.pop a b) (s.reg b + 4#32) 4)
      ∧ stops (.pushSpr q b) (s.reg b) 4 ∧ stops (.popSpr q b) (s.reg b + 4#32) 4
      ∧ stops (.popPc b) (s.reg b + 4#32) 4 ∧ stops (.ldrSpr q b) (s.reg b) 4 ∧ stops (.ldrSprSpr q r) (s.spr r) 4
      ∧ stops (.strSpr q b) (s.reg b) 4 ∧ stops (.strSprSpr q r) (s.spr r) 4 ∧ stops (.xchgL a b) (s.reg a) 4
      ∧ stops (.cmpxchg a b) (s.reg a) 4 ∧ stops (.cmpxchgL a b) (s.reg a) 4

/-! ## Special-purpose registers -/

/-- R25, R31, R239, R240, R241 (D18): as 32-bit values the special-purpose registers have zeros outside their held bits
and `flags` holds Z, C, V, N in bits 0 to 3; the copies between general and special-purpose registers; a destination
special-purpose register keeps its held bits of the value. -/
def Obligations.SprCopies : Prop :=
  ∀ (s : State) (a b : RegNum) (q r : Spr),
    s.spr q &&& ~~~q.heldBits = 0#32
    ∧ (s.spr .flags).getLsbD 0 = s.flags.z ∧ (s.spr .flags).getLsbD 1 = s.flags.c
    ∧ (s.spr .flags).getLsbD 2 = s.flags.v ∧ (s.spr .flags).getLsbD 3 = s.flags.n
    ∧ (∃ t, exec (.cpyFromSpr a r) s = .next t ∧ t.reg a = s.spr r ∧ Frame [a] [] s t ∧ EndsAtNext s t)
    ∧ (∃ t, exec (.cpyToSpr q b) s = .next t ∧ t.spr q = s.reg b &&& q.heldBits ∧ Frame [] [q] s t ∧ EndsAtNext s t)
    ∧ ∃ t, exec (.cpySprSpr q r) s = .next t ∧ t.spr q = s.spr r &&& q.heldBits ∧ Frame [] [q] s t ∧ EndsAtNext s t

/-! ## Group 7 -/

/-- R270, R271 (D34): `cmpb` and `cmph` compare the low 8 or 16 bits: Z, C, V, N as `cmp` at that width. -/
def Obligations.SubwordCompares : Prop :=
  ∀ (s : State) (a b : RegNum),
    let compares (x : Instr) (w : Nat) : Prop :=
      let p := (s.reg a).setWidth w
      let q := (s.reg b).setWidth w
      ∃ t, exec x s = .next t
        ∧ (t.flags.z = true ↔ p = q)
        ∧ (t.flags.c = true ↔ q.toNat ≤ p.toNat)
        ∧ (t.flags.n ≠ t.flags.v ↔ p.toInt < q.toInt)
        ∧ (t.flags.n = true ↔ (p - q).toInt < 0)
        ∧ Frame [] [.flags] s t ∧ EndsAtNext s t
    compares (.cmpb a b) 8 ∧ compares (.cmph a b) 16

/-- R272 to R275, R283 (D8, D13, log 7): the sub-word shifts, under both values of SUBWORD_SHIFT_WRITE: the shifted low
8 or 16 bits, extended over the whole register or merged into its low bits. -/
def Obligations.SubwordShifts : Prop :=
  ∀ (s : State) (a b : RegNum),
    let n := (s.reg b).toNat
    let shifts (x : Instr) (w : Nat) (value : Word → Prop) : Prop :=
      ∃ t, exec x s = .next t ∧ Frame [a] [] s t ∧ EndsAtNext s t
        ∧ (s.plat.subwordWrite = .extend → value (t.reg a))
        ∧ (s.plat.subwordWrite = .merge → t.reg a >>> w = s.reg a >>> w
            ∧ ∃ v : Word, value v ∧ (t.reg a).setWidth w = v.setWidth w)
    shifts (.lsrb a b) 8 (fun v => v.toNat = (s.reg a).toNat % 2 ^ 8 / 2 ^ n)
      ∧ shifts (.lsrh a b) 16 (fun v => v.toNat = (s.reg a).toNat % 2 ^ 16 / 2 ^ n)
      ∧ shifts (.asrb a b) 8 (fun v => v.toInt = ((s.reg a).setWidth 8).toInt / 2 ^ n)
      ∧ shifts (.asrh a b) 16 (fun v => v.toInt = ((s.reg a).setWidth 16).toInt / 2 ^ n)

/-- R280, R281 (D23): `icreload` makes the line of its effective address fetchable and leaves every other line, `icflush`
makes every line so. That a line with an unbacked or device byte stops `icreload` is R60 by inference (log 13); that the
first such byte decides, as the fault `unbackedAddress` or the refusal `deviceAccess`, is the model's choice (logs 4, 12). -/
def Obligations.InstructionCache : Prop :=
  ∀ (s : State) (a : RegNum) (i : BitVec 5),
    let ea := (if s.pfx.indexInEffect then s.pfx.regSum else s.reg a) + s.immS i
    let line := ea.toNat / 64
    let kind := kindAt s.plat.memMap
    (s.pfx.usedByIndex = false →
      ((∀ k, k < 64 → kind (64 * line + k) = some .memory) →
        ∃ t, exec (.icreload a i) s = .next t ∧ (∀ l, l ∈ t.stale ↔ l ∈ s.stale ∧ l ≠ line)
          ∧ (∀ k, t.byte k = s.byte k) ∧ KeepsRegs [] s t ∧ KeepsSprs [] s t ∧ KeepsInputs s t ∧ EndsAtNext s t)
      ∧ ∀ k, k < 64 → (∀ j, j < k → kind (64 * line + j) = some .memory) →
          (kind (64 * line + k) = none → exec (.icreload a i) s = .fault .unbackedAddress)
          ∧ (kind (64 * line + k) = some .device → exec (.icreload a i) s = .refused .deviceAccess))
    ∧ ∃ t, exec .icflush s = .next t ∧ t.stale = [] ∧ (∀ k, t.byte k = s.byte k) ∧ KeepsRegs [] s t
      ∧ KeepsSprs [] s t ∧ KeepsInputs s t ∧ EndsAtNext s t
end

