-- ==== Sys2Proof/Laws/Arith.lean ====
section
/-! SUPPORT. What the shared arithmetic computes, as statements about numbers: additions, subtractions and their flags
(R33). -/

namespace Sys2Proof.Machine

/-- The sign bit. -/
theorem msb_iff_toInt_neg {w} (a : BitVec w) : a.msb = true ↔ a.toInt < 0 := by
  rw [BitVec.msb_eq_toInt]; simp

/-- A two's-complement number by its sign bit. -/
theorem toInt_cases {n : Nat} (a : BitVec (n+1)) :
    (a.msb = true ∧ a.toInt = (a.toNat : Int) - 2 * ((2 ^ n : Nat) : Int) ∧ 2^n ≤ a.toNat) ∨ (a.msb = false
      ∧ a.toInt = a.toNat ∧ a.toNat < 2^n) := by
  have hp : (2:Nat) ^ (n+1) = 2 * 2 ^ n := by ring
  rcases h : a.msb with _ | _
  · right; have := BitVec.msb_eq_false_iff_two_mul_lt.mp h
    exact ⟨rfl, by rw [BitVec.toInt_eq_toNat_cond]; simp [this], by omega⟩
  · left; have := BitVec.msb_eq_true_iff_two_mul_ge.mp h
    exact ⟨rfl, by rw [BitVec.toInt_eq_toNat_cond]; have h2: ¬ (2 * a.toNat < 2^(n+1)) := by omega
                   rw [if_neg h2, hp]; push_cast; ring, by omega⟩

/-- The complement as a signed number. -/
theorem toInt_not {n : Nat} (q : BitVec (n+1)) : (~~~q).toInt = -q.toInt - 1 := by
    have h1 := toInt_cases q; have h2 := toInt_cases (~~~q)
    have hp : (2:Nat) ^ (n+1) = 2 * 2 ^ n := by ring
    have l1 : q.toNat < 2 * 2 ^ n := hp ▸ q.isLt
    have h3 : (~~~q).toNat = 2 * 2^n - 1 - q.toNat := by rw [← hp]; simp
    clear hp
    generalize (~~~q).toInt = x at *
    generalize (~~~q).toNat = x' at *
    generalize q.toInt = y at *
    generalize q.toNat = y' at *
    generalize 2 ^ n = P at *
    omega

/-- The result of R33. -/
theorem addWithCarry_result (a b : Word) (c : Bool) : (addWithCarry a b c).1 = a + b + bitWord c := by
  apply BitVec.eq_of_toNat_eq
  cases c <;> simp [addWithCarry, bitWord]

/-- The difference of R33. -/
theorem subtract_result (a b : Word) : (subtract a b).1 = a - b := by
  rw [subtract, addWithCarry_result]; simp [bitWord, BitVec.sub_eq_add_neg, BitVec.neg_eq_not_add, BitVec.add_assoc]

/-- Z of R33. -/
theorem addWithCarry_z {w} (a b : BitVec w) (c : Bool) :
    ((addWithCarry a b c).2.z = true ↔ (addWithCarry a b c).1 = 0#w) := by
  simp [addWithCarry]

/-- C of R33. -/
theorem addWithCarry_c {w} (a b : BitVec w) (c : Bool) :
    ((addWithCarry a b c).2.c = true ↔ 2 ^ w ≤ a.toNat + b.toNat + c.toNat) := by
  simp [addWithCarry]

/-- N of R33. -/
theorem addWithCarry_n {w} (a b : BitVec w) (c : Bool) :
    ((addWithCarry a b c).2.n = true ↔ (addWithCarry a b c).1.toInt < 0) := by
  simp only [addWithCarry]
  exact BitVec.msb_eq_toInt ▸ by simp

/-- V of R33. -/
theorem addWithCarry_v {n : Nat} (a b : BitVec (n+1)) (c : Bool) : ((addWithCarry a b c).2.v = true ↔
   ¬(-2 ^ n ≤ a.toInt + b.toInt + c.toNat ∧ a.toInt + b.toInt + c.toNat < 2 ^ n)) := by
  simp only [addWithCarry, Bool.and_eq_true, beq_iff_eq, bne_iff_ne, ne_eq]
  have hc : c.toNat ≤ 1 := by cases c <;> simp
  have hp : (2:Nat) ^ (n+1) = 2 * 2 ^ n := by ring
  have hpi : (2:Int) ^ n = ((2 ^ n : Nat) : Int) := by push_cast; rfl
  have ha := a.isLt; have hb := b.isLt
  have hrn : (BitVec.ofNat (n+1) (a.toNat + b.toNat + c.toNat)).toNat = (a.toNat + b.toNat + c.toNat) % 2 ^ (n+1) := by simp
  have hrl := (BitVec.ofNat (n+1) (a.toNat + b.toNat + c.toNat)).isLt
  have h3 := toInt_cases (BitVec.ofNat (n+1) (a.toNat + b.toNat + c.toNat))
  have h1 := toInt_cases a
  have h2 := toInt_cases b
  generalize BitVec.ofNat (n+1) (a.toNat + b.toNat + c.toNat) = r at *
  have hrv : r.toNat = a.toNat + b.toNat + c.toNat ∨ r.toNat + 2 ^ (n+1) = a.toNat + b.toNat + c.toNat := by
    rw [hrn]
    by_cases h : a.toNat + b.toNat + c.toNat < 2 ^ (n+1)
    · left; exact Nat.mod_eq_of_lt h
    · right
      rw [Nat.mod_eq_sub_mod (by omega), Nat.mod_eq_of_lt (by omega)]; omega
  rw [hpi]
  clear hrn
  rw [hp] at *
  clear hpi hp
  generalize 2 ^ n = P at *
  rcases h1 with ⟨m1, e1, g1⟩ | ⟨m1, e1, g1⟩ <;> rcases h2 with ⟨m2, e2, g2⟩ | ⟨m2, e2, g2⟩ <;>
   rcases h3 with ⟨m3, e3, g3⟩ | ⟨m3, e3, g3⟩ <;> rw [m1, m2, m3, e1, e2] <;> simp <;> omega

/-- The flags of a comparison: equal, unsigned not less, signed less, difference out of range, negative. -/
theorem subtract_flags {n} (p q : BitVec (n+1)) : ((subtract p q).2.z = true ↔ p = q)
        ∧ ((subtract p q).2.c = true ↔ q.toNat ≤ p.toNat)
        ∧ ((subtract p q).2.n ≠ (subtract p q).2.v ↔ p.toInt < q.toInt)
        ∧ ((subtract p q).2.v = true ↔
            ¬(-2 ^ n ≤ p.toInt - q.toInt ∧ p.toInt - q.toInt < 2 ^ n))
        ∧ ((subtract p q).2.n = true ↔ (p - q).toInt < 0) := by
  have hv : (subtract p q).1 = p - q := by
    apply BitVec.eq_of_toNat_eq
    have := q.isLt
    simp [subtract, addWithCarry, BitVec.toNat_sub]
    congr 1; omega
  have hni : (~~~q).toInt = -q.toInt - 1 := by
    have h1 := toInt_cases q; have h2 := toInt_cases (~~~q)
    have hp : (2:Nat) ^ (n+1) = 2 * 2 ^ n := by ring
    have l1 : q.toNat < 2 * 2 ^ n := hp ▸ q.isLt
    have h3 : (~~~q).toNat = 2 * 2^n - 1 - q.toNat := by rw [← hp]; simp
    clear hp hv
    generalize (~~~q).toInt = x at *
    generalize (~~~q).toNat = x' at *
    generalize q.toInt = y at *
    generalize q.toNat = y' at *
    generalize 2 ^ n = P at *
    omega
  have hvv : ((subtract p q).2.v = true ↔
            ¬(-2 ^ n ≤ p.toInt - q.toInt ∧ p.toInt - q.toInt < 2 ^ n)) := by
    rw [subtract, addWithCarry_v, hni]
    simp only [Bool.toNat_true, Nat.cast_one, show p.toInt + (-q.toInt - 1) + 1 = p.toInt - q.toInt by ring]
  have hn : ((subtract p q).2.n = true ↔ (p - q).toInt < 0) := by
    rw [subtract, addWithCarry_n, ← hv, subtract]
  refine ⟨?_, ?_, ?_, hvv, hn⟩
  · rw [subtract, addWithCarry_z, ← subtract, hv, BitVec.sub_eq_iff_eq_add]; simp
  · rw [subtract, addWithCarry_c]
    have := q.isLt; simp; omega
  · have : ((subtract p q).2.n ≠ (subtract p q).2.v) ↔ ¬((subtract p q).2.n = true ↔ (subtract p q).2.v = true) := by
      cases (subtract p q).2.n <;> cases (subtract p q).2.v <;> simp
    rw [this, hn, hvv]
    have h1 := toInt_cases (p - q); have h2 := toInt_cases p; have h3 := toInt_cases q
    have h4 : (p-q).toNat = p.toNat - q.toNat ∧ q.toNat ≤ p.toNat ∨ (p-q).toNat + q.toNat = p.toNat + 2^(n+1) ∧ p.toNat < q.toNat := by
      have := p.isLt; have := q.isLt
      rw [BitVec.toNat_sub]
      by_cases h : q.toNat ≤ p.toNat
      · left; refine ⟨?_, h⟩
        rw [show 2^(n+1) - q.toNat + p.toNat = (p.toNat - q.toNat) + 2^(n+1) by omega, Nat.add_mod_right,
          Nat.mod_eq_of_lt (by omega)]
      · right; rw [Nat.mod_eq_of_lt (by omega)]; omega
    have hpi : (2:Int) ^ n = ((2 ^ n : Nat) : Int) := by push_cast; rfl
    have hp : (2:Nat) ^ (n+1) = 2 * 2 ^ n := by ring
    have l1 : p.toNat < 2 * 2 ^ n := hp ▸ p.isLt
    have l2 : q.toNat < 2 * 2 ^ n := hp ▸ q.isLt
    have l3 : (p-q).toNat < 2 * 2 ^ n := hp ▸ (p-q).isLt
    rw [hp] at h4
    rw [hpi]
    clear hvv hn hni hv this hp hpi
    generalize (p-q).toInt = x at *
    generalize (p-q).toNat = x' at *
    generalize q.toInt = y at *
    generalize q.toNat = y' at *
    generalize p.toInt = z at *
    generalize p.toNat = z' at *
    generalize 2 ^ n = P at *
    omega

end Sys2Proof.Machine
end

