-- ==== Sys2Proof/Laws/Encoding.lean ====
section
/-! SUPPORT. What the fields of each encoding format read as (30_encoding.md R82 to R94), one lemma per field, and the byte
order of a unit (R53). -/

namespace Sys2Proof

/-! ## The formats with fields `b` and `a` -/

theorem getLsbD_unitAB_high (base : InstrUnit) (a b : BitVec 4) {j : Nat} (h : 8 ≤ j) :
    (unitAB base a b).getLsbD j = base.getLsbD j := by
  have ha : a.getLsbD j = false := BitVec.getLsbD_of_ge _ _ (by omega)
  have hb : b.getLsbD (j - 4) = false := BitVec.getLsbD_of_ge _ _ (by omega)
  simp [unitAB, ha, hb]

/-- The bits from 8 up are the fixed bits of the format. -/
theorem extract_unitAB_high (base : InstrUnit) (a b : BitVec 4) {lo n : Nat} (h : 8 ≤ lo) :
    (unitAB base a b).extractLsb' lo n = base.extractLsb' lo n := by
  apply BitVec.eq_of_getLsbD_eq
  intro j _
  rw [BitVec.getLsbD_extractLsb', BitVec.getLsbD_extractLsb', getLsbD_unitAB_high base a b (by omega)]

@[simp] theorem fieldGroup_unitAB (base : InstrUnit) (a b : BitVec 4) :
    fieldGroup (unitAB base a b) = fieldGroup base :=
  extract_unitAB_high base a b (by omega)

theorem fieldA_unitAB (base : InstrUnit) (a b : BitVec 4) (h : base.extractLsb' 0 4 = 0#4) :
    fieldA (unitAB base a b) = a := by
  apply BitVec.eq_of_getLsbD_eq
  intro j hj
  have hb : base.getLsbD j = false := by
    have := congrArg (fun x => x.getLsbD j) h
    simpa [BitVec.getLsbD_extractLsb', hj] using this
  interval_cases j <;> simp_all [fieldA, unitAB]

theorem fieldB_unitAB (base : InstrUnit) (a b : BitVec 4) (h : base.extractLsb' 4 4 = 0#4) :
    fieldB (unitAB base a b) = b := by
  apply BitVec.eq_of_getLsbD_eq
  intro j hj
  have hb : base.getLsbD (4 + j) = false := by
    have := congrArg (fun x => x.getLsbD j) h
    simpa [BitVec.getLsbD_extractLsb', hj] using this
  interval_cases j <;> simp_all [fieldB, unitAB]

/-- The unused bits of a unit whose fixed bits and fields are given, under a mask over bits 3:0, 7:4 or 12. -/
theorem unitAB_and_mask (base m : InstrUnit) (a b : BitVec 4) (hb : base &&& m = 0#16)
    (ha : m.extractLsb' 0 4 = 0#4 ∨ a = 0#4) (hbb : m.extractLsb' 4 4 = 0#4 ∨ b = 0#4) :
    unitAB base a b &&& m = 0#16 := by
  apply BitVec.eq_of_getLsbD_eq
  intro j hj
  have h0 : (base.getLsbD j && m.getLsbD j) = false := by
    have := congrArg (fun x => x.getLsbD j) hb
    simpa using this
  by_cases h1 : j < 4
  · have e : (a.getLsbD j && m.getLsbD j) = false := by
      rcases ha with ha | ha
      · have := congrArg (fun x => x.getLsbD j) ha
        simp [h1] at this
        simp [this]
      · simp [ha]
    have h2 : j < 16 := hj
    simp only [unitAB, BitVec.getLsbD_and, BitVec.getLsbD_or, BitVec.getLsbD_shiftLeft, BitVec.getLsbD_setWidth, h1, h2,
      decide_true, Bool.not_true, Bool.and_false, Bool.false_and, Bool.or_false, Bool.true_and, BitVec.getLsbD_zero]
    revert h0 e
    cases base.getLsbD j <;> cases a.getLsbD j <;> cases m.getLsbD j <;> simp
  · by_cases h2 : j < 8
    · have e : (b.getLsbD (j - 4) && m.getLsbD j) = false := by
        rcases hbb with hbb | hbb
        · have := congrArg (fun x => x.getLsbD (j - 4)) hbb
          have e1 : j - 4 < 4 := by omega
          have e2 : 4 + (j - 4) = j := by omega
          simp [e1, e2] at this
          simp [this]
        · simp [hbb]
      have e3 : a.getLsbD j = false := BitVec.getLsbD_of_ge _ _ (by omega)
      have h3 : j - 4 < 16 := by omega
      have h4 : j < 16 := hj
      simp only [unitAB, BitVec.getLsbD_and, BitVec.getLsbD_or, BitVec.getLsbD_shiftLeft, BitVec.getLsbD_setWidth, h1, h3,
        h4, e3, decide_true, decide_false, Bool.not_false, Bool.and_true, Bool.and_false, Bool.or_false, Bool.true_and,
        BitVec.getLsbD_zero]
      revert h0 e
      cases base.getLsbD j <;> cases b.getLsbD (j - 4) <;> cases m.getLsbD j <;> simp
    · rw [BitVec.getLsbD_and, getLsbD_unitAB_high base a b (by omega), h0]
      simp

/-! ## The formats with an immediate -/

@[simp] theorem fieldGroup_unitG1 (o a : BitVec 4) (i : BitVec 5) : fieldGroup (unitG1 o a i) = 0b001#3 := by
  apply BitVec.eq_of_getLsbD_eq
  intro j hj
  interval_cases j <;> simp [fieldGroup, unitG1]

@[simp] theorem fieldA_unitG1 (o a : BitVec 4) (i : BitVec 5) : fieldA (unitG1 o a i) = a := by
  apply BitVec.eq_of_getLsbD_eq
  intro j hj
  interval_cases j <;> simp [fieldA, unitG1]

@[simp] theorem fieldB_unitG1 (o a : BitVec 4) (i : BitVec 5) : fieldB (unitG1 o a i) = o := by
  apply BitVec.eq_of_getLsbD_eq
  intro j hj
  interval_cases j <;> simp [fieldB, unitG1]

@[simp] theorem fieldI_unitG1 (o a : BitVec 4) (i : BitVec 5) : (unitG1 o a i).extractLsb' 8 5 = i := by
  apply BitVec.eq_of_getLsbD_eq
  intro j hj
  interval_cases j <;> simp [unitG1]

/-- Format G1 with no `a` field (`swi #imm`): its unused bits 3:0 are zero. -/
theorem unitG1_unused (o : BitVec 4) (i : BitVec 5) : unitG1 o 0#4 i &&& 0xF#16 = 0#16 := by
  apply BitVec.eq_of_getLsbD_eq
  intro j hj
  interval_cases j <;> simp [unitG1]

@[simp] theorem fieldGroup_unitG3 (o : BitVec 4) (i : BitVec 9) : fieldGroup (unitG3 o i) = 0b011#3 := by
  apply BitVec.eq_of_getLsbD_eq
  intro j hj
  interval_cases j <;> simp [fieldGroup, unitG3]

@[simp] theorem fieldA_unitG3 (o : BitVec 4) (i : BitVec 9) : fieldA (unitG3 o i) = o := by
  apply BitVec.eq_of_getLsbD_eq
  intro j hj
  interval_cases j <;> simp [fieldA, unitG3]

@[simp] theorem fieldI_unitG3 (o : BitVec 4) (i : BitVec 9) : (unitG3 o i).extractLsb' 4 9 = i := by
  apply BitVec.eq_of_getLsbD_eq
  intro j hj
  interval_cases j <;> simp [unitG3]

@[simp] theorem fieldGroup_unitG5RI (a : RegNum) (i : BitVec 7) : fieldGroup (unitG5RI a i) = 0b101#3 := by
  apply BitVec.eq_of_getLsbD_eq
  intro j hj
  interval_cases j <;> simp [fieldGroup, unitG5RI]

@[simp] theorem fieldA_unitG5RI (a : RegNum) (i : BitVec 7) : fieldA (unitG5RI a i) = a := by
  apply BitVec.eq_of_getLsbD_eq
  intro j hj
  interval_cases j <;> simp [fieldA, unitG5RI]

@[simp] theorem fieldI_unitG5RI (a : RegNum) (i : BitVec 7) : (unitG5RI a i).extractLsb' 4 7 = i := by
  apply BitVec.eq_of_getLsbD_eq
  intro j hj
  interval_cases j <;> simp [unitG5RI]

@[simp] theorem bit12_unitG5RI (a : RegNum) (i : BitVec 7) : (unitG5RI a i).getLsbD 12 = true := by simp [unitG5RI]

@[simp] theorem bit11_unitG5RI (a : RegNum) (i : BitVec 7) : (unitG5RI a i).getLsbD 11 = false := by simp [unitG5RI]

@[simp] theorem fieldGroup_unitG7C (a : RegNum) (i : BitVec 5) : fieldGroup (unitG7C a i) = 0b111#3 := by
  apply BitVec.eq_of_getLsbD_eq
  intro j hj
  interval_cases j <;> simp [fieldGroup, unitG7C]

@[simp] theorem fieldA_unitG7C (a : RegNum) (i : BitVec 5) : fieldA (unitG7C a i) = a := by
  apply BitVec.eq_of_getLsbD_eq
  intro j hj
  interval_cases j <;> simp [fieldA, unitG7C]

@[simp] theorem fieldI_unitG7C (a : RegNum) (i : BitVec 5) : (unitG7C a i).extractLsb' 4 5 = i := by
  apply BitVec.eq_of_getLsbD_eq
  intro j hj
  interval_cases j <;> simp [unitG7C]

/-- Bits 12:8 of format G7C are the subgroup 0110 and the top bit of the immediate (R93). -/
theorem subgroup_unitG7C (a : RegNum) (i : BitVec 5) :
    (unitG7C a i).extractLsb' 8 5 = if i.getLsbD 4 then 0b01101#5 else 0b01100#5 := by
  apply BitVec.eq_of_getLsbD_eq
  intro j hj
  cases h : i.getLsbD 4 <;> interval_cases j <;> simp_all [unitG7C]

/-! ## The prefixes -/

@[simp] theorem fieldGroup_pre (i : BitVec 12) : fieldGroup (i.setWidth 16) = 0b000#3 := by
  apply BitVec.eq_of_getLsbD_eq
  intro j hj
  interval_cases j <;> simp [fieldGroup]

@[simp] theorem field_pre (i : BitVec 12) : (i.setWidth 16).extractLsb' 0 12 = i := by
  apply BitVec.eq_of_getLsbD_eq
  intro j hj
  have h : j < 16 := by omega
  simp [hj, h]

/-- The first unit of an `lpre` (R83). -/
theorem fieldGroup_lpre (i : BitVec 27) :
    fieldGroup (0x1000#16 ||| (i.extractLsb' 16 11).setWidth 16) = 0b000#3 := by
  apply BitVec.eq_of_getLsbD_eq
  intro j hj
  interval_cases j <;> simp [fieldGroup]

/-- The two parts of the constant of an `lpre` (R83). -/
theorem field_lpre (i : BitVec 27) :
    ((0x1000#16 ||| (i.extractLsb' 16 11).setWidth 16).extractLsb' 0 11).setWidth 27 <<< 16
      ||| (i.extractLsb' 0 16).setWidth 27 = i := by
  apply BitVec.eq_of_getLsbD_eq
  intro j hj
  interval_cases j <;> simp

/-! ## Special-purpose register fields -/

@[simp] theorem Spr.ofField_toField (r : Spr) : Spr.ofField r.toField = .ok r := by cases r <;> rfl

@[simp] theorem withSpr_toField (r : Spr) (mk : Spr → Instr) : withSpr r.toField mk = .ok (mk r) := by
  simp [withSpr]

@[simp] theorem withSprs_toField (q r : Spr) (mk : Spr → Spr → Instr) :
    withSprs q.toField r.toField mk = .ok (mk q r) := by
  simp [withSprs]

/-! ## Bytes -/

/-- A unit is made again from its two bytes (R53). -/
@[simp] theorem unitOfBytes_bytes (u : InstrUnit) : unitOfBytes (u.extractLsb' 0 8) (u.extractLsb' 8 8) = u := by
  apply BitVec.eq_of_getLsbD_eq
  intro j hj
  interval_cases j <;> simp [unitOfBytes]

end Sys2Proof
end

