-- ==== Sys2Proof/Laws/Memory.lean ====
section
/-! SUPPORT. The laws of memory and of the stale lines: read after write, and that every operation keeps the canonical
form. -/

namespace Sys2Proof.Machine

/-! ## One byte -/

theorem Memory.wfFrom_mono {lo lo' : Nat} (h : lo' ≤ lo) :
    ∀ {m : List Host.Cell}, Memory.wfFrom lo m = true → Memory.wfFrom lo' m = true
  | [], _ => rfl
  | (k, v) :: rest, hm => by
    simp only [Memory.wfFrom, Bool.and_eq_true, decide_eq_true_eq] at hm ⊢
    exact ⟨⟨⟨by omega, hm.1.1.2⟩, hm.1.2⟩, hm.2⟩

/-- Below a canonical list nothing is listed. -/
theorem Memory.read_below {lo a : Nat} (h : a < lo) :
    ∀ {m : List Host.Cell}, Memory.wfFrom lo m = true → Memory.read m a = Memory.unlisted
  | [], _ => rfl
  | (k, v) :: rest, hm => by
    simp only [Memory.wfFrom, Bool.and_eq_true, decide_eq_true_eq] at hm
    have hk : k ≠ a := by omega
    simp only [Memory.read, hk, if_false]
    exact Memory.read_below (lo := k + 1) (by omega) hm.2

/-- Reading the address just written gives the byte written, in canonical memory. -/
theorem Memory.read_write_same {lo a : Nat} {v : Byte} :
    ∀ {m : List Host.Cell}, Memory.wfFrom lo m = true → Memory.read (Memory.write m a v) a = v
  | [], _ => by by_cases hv : v = Memory.unlisted <;> simp [Memory.write, Memory.read, hv]
  | (k, w) :: rest, hm => by
    simp only [Memory.wfFrom, Bool.and_eq_true, decide_eq_true_eq] at hm
    by_cases h1 : a < k
    · by_cases hv : v = Memory.unlisted
      · have h2 : k ≠ a := by omega
        simp only [Memory.write, h1, hv, if_true, Memory.read, h2, if_false]
        exact Memory.read_below (by omega) hm.2
      · simp [Memory.write, h1, hv, Memory.read]
    · by_cases h2 : a = k
      · by_cases hv : v = Memory.unlisted
        · simp only [Memory.write, h2, hv, if_true, if_false, lt_irrefl]
          exact Memory.read_below (lo := k + 1) (by omega) hm.2
        · simp [Memory.write, h2, hv, Memory.read]
      · simp only [Memory.write, h1, h2, if_false, Memory.read, Ne.symm h2]
        exact Memory.read_write_same hm.2

/-- Writing one address leaves every other one alone. -/
theorem Memory.read_write_other {a b : Nat} {v : Byte} (h : b ≠ a) :
    ∀ m : List Host.Cell, Memory.read (Memory.write m a v) b = Memory.read m b
  | [] => by by_cases hv : v = Memory.unlisted <;> simp [Memory.write, Memory.read, hv, Ne.symm h]
  | (k, w) :: rest => by
    by_cases h1 : a < k
    · by_cases hv : v = Memory.unlisted <;> simp [Memory.write, h1, hv, Memory.read, Ne.symm h]
    · by_cases h2 : a = k
      · by_cases hv : v = Memory.unlisted <;> simp [Memory.write, h2, hv, Memory.read, h2 ▸ Ne.symm h]
      · simp only [Memory.write, h1, h2, if_false, Memory.read]
        rw [Memory.read_write_other h rest]

theorem Memory.wfFrom_write {a : Nat} {v : Byte} (ha : a < addressSpace) :
    ∀ {lo : Nat} {m : List Host.Cell}, lo ≤ a → Memory.wfFrom lo m = true →
      Memory.wfFrom lo (Memory.write m a v) = true
  | lo, [], hlo, _ => by
    by_cases hv : v = Memory.unlisted
    · simp [Memory.write, hv, Memory.wfFrom]
    · simp [Memory.write, hv, Memory.wfFrom, hlo, ha]
  | lo, (k, w) :: rest, hlo, hm => by
    have hm' := hm
    simp only [Memory.wfFrom, Bool.and_eq_true, decide_eq_true_eq] at hm'
    by_cases h1 : a < k
    · by_cases hv : v = Memory.unlisted
      · simpa [Memory.write, h1, hv] using hm
      · have h3 : a + 1 ≤ k := h1
        simp only [Memory.write, h1, hv, if_true, if_false, Memory.wfFrom, Bool.and_eq_true, decide_eq_true_eq, bne_iff_ne]
        simp only [bne_iff_ne] at hm'
        exact ⟨⟨⟨hlo, ha⟩, hv⟩, ⟨⟨h3, hm'.1.1.2⟩, hm'.1.2⟩, hm'.2⟩
    · by_cases h2 : a = k
      · by_cases hv : v = Memory.unlisted
        · simp only [Memory.write, h2, hv, if_true, if_false, lt_irrefl]
          exact Memory.wfFrom_mono (by omega) hm'.2
        · simp only [Memory.write, h2, hv, if_true, if_false, lt_irrefl, Memory.wfFrom, Bool.and_eq_true,
            decide_eq_true_eq, bne_iff_ne]
          exact ⟨⟨⟨by omega, by omega⟩, hv⟩, hm'.2⟩
      · simp only [Memory.write, h1, h2, if_false, Memory.wfFrom, Bool.and_eq_true, decide_eq_true_eq]
        exact ⟨hm'.1, Memory.wfFrom_write ha (by omega) hm'.2⟩

/-- A write of one byte keeps the canonical form. -/
theorem Memory.wf_write {m : List Host.Cell} {a : Nat} {v : Byte} (ha : a < addressSpace) (h : Memory.wf m = true) :
    Memory.wf (Memory.write m a v) = true :=
  Memory.wfFrom_write ha (Nat.zero_le _) h

/-! ## Several bytes -/

/-- A write of `n` bytes keeps the canonical form. -/
theorem Memory.wf_writeLE : ∀ {n : Nat} {m : List Host.Cell} {a : Nat} {v : Word},
    a + n ≤ addressSpace → Memory.wf m = true → Memory.wf (Memory.writeLE m a v n) = true
  | 0, _, _, _, _, h => h
  | n + 1, m, a, v, ha, h => by
    simp only [Memory.writeLE]
    exact Memory.wf_writeLE (by omega) (Memory.wf_write (by omega) h)

/-- A write of `n` bytes leaves every byte outside them alone. -/
theorem Memory.read_writeLE_other : ∀ {n : Nat} {m : List Host.Cell} {a k : Nat} {v : Word},
    (k < a ∨ a + n ≤ k) → Memory.read (Memory.writeLE m a v n) k = Memory.read m k
  | 0, _, _, _, _, _ => rfl
  | n + 1, m, a, k, v, h => by
    simp only [Memory.writeLE]
    rw [Memory.read_writeLE_other (by omega), Memory.read_write_other (by omega)]

/-- Byte `k` of the `n` bytes written is byte `k` of the value (R52). -/
theorem Memory.read_writeLE_same : ∀ {n : Nat} {m : List Host.Cell} {a k : Nat} {v : Word},
    a + n ≤ addressSpace → Memory.wf m = true → k < n →
      Memory.read (Memory.writeLE m a v n) (a + k) = v.extractLsb' (8 * k) 8
  | 0, _, _, _, _, _, _, hk => absurd hk (Nat.not_lt_zero _)
  | n + 1, m, a, k, v, ha, hm, hk => by
    simp only [Memory.writeLE]
    cases k with
    | zero =>
      rw [Memory.read_writeLE_other (by omega)]
      simp only [Nat.add_zero]
      rw [Memory.read_write_same (lo := 0) hm]
      apply BitVec.eq_of_getLsbD_eq
      intro j hj
      simp [hj]
    | succ k =>
      have h := Memory.read_writeLE_same (n := n) (m := Memory.write m a (v.setWidth 8)) (a := a + 1) (k := k)
        (v := v >>> 8) (by omega) (Memory.wf_write (by omega) hm) (by omega)
      rw [show a + (k + 1) = a + 1 + k by omega, h]
      apply BitVec.eq_of_getLsbD_eq
      intro j hj
      simp only [BitVec.getLsbD_extractLsb', BitVec.getLsbD_ushiftRight, hj, decide_true, Bool.true_and]
      congr 1
      omega

/-- A read of `n` bytes depends on those bytes alone. -/
theorem Memory.readLE_congr : ∀ {n : Nat} {m m' : List Host.Cell} {a : Nat},
    (∀ k, k < n → Memory.read m (a + k) = Memory.read m' (a + k)) → Memory.readLE m a n = Memory.readLE m' a n
  | 0, _, _, _, _ => rfl
  | n + 1, m, m', a, h => by
    simp only [Memory.readLE]
    rw [show Memory.read m a = Memory.read m' a from h 0 (by omega),
      Memory.readLE_congr (m' := m') fun k hk => by
        have := h (k + 1) (by omega)
        rwa [show a + (k + 1) = a + 1 + k by omega] at this]

/-- Byte `k` of a value read is the byte at `a + k` (R52). -/
theorem Memory.extract_readLE : ∀ {n : Nat} {m : List Host.Cell} {a k : Nat}, n ≤ 4 → k < n →
    (Memory.readLE m a n).extractLsb' (8 * k) 8 = Memory.read m (a + k)
  | 0, _, _, _, _, hk => absurd hk (Nat.not_lt_zero _)
  | n + 1, m, a, k, hn, hk => by
    simp only [Memory.readLE]
    cases k with
    | zero =>
      apply BitVec.eq_of_getLsbD_eq
      intro j hj
      have h1 : j < 32 := by omega
      simp [hj, h1]
    | succ k =>
      have h := Memory.extract_readLE (n := n) (m := m) (a := a + 1) (k := k) (by omega) (by omega)
      rw [show a + (k + 1) = a + 1 + k by omega, ← h]
      apply BitVec.eq_of_getLsbD_eq
      intro j hj
      have h1 : 8 * (k + 1) + j < 32 := by omega
      have h2 : ¬8 * (k + 1) + j < 8 := by omega
      have h3 : 8 * (k + 1) + j - 8 = 8 * k + j := by omega
      have h4 : (Memory.read m a).getLsbD (8 * (k + 1) + j) = false := BitVec.getLsbD_of_ge _ _ (by omega)
      simp only [BitVec.getLsbD_extractLsb', hj, decide_true, Bool.true_and, BitVec.getLsbD_or,
        BitVec.getLsbD_shiftLeft, h1, h2, decide_false, Bool.not_false, h3, BitVec.getLsbD_setWidth, h4, Bool.or_false]

/-- The bits of a value read above its bytes are zero. -/
theorem Memory.readLE_high : ∀ {n : Nat} {m : List Host.Cell} {a j : Nat}, 8 * n ≤ j →
    (Memory.readLE m a n).getLsbD j = false
  | 0, _, _, _, _ => by simp [Memory.readLE]
  | n + 1, m, a, j, h => by
    have h1 := Memory.readLE_high (n := n) (m := m) (a := a + 1) (j := j - 8) (by omega)
    have h2 : (Memory.read m a).getLsbD j = false := BitVec.getLsbD_of_ge _ _ (by omega)
    simp [Memory.readLE, h1, h2]

/-- Two words with the same `n` low bytes and zeros above are equal. -/
theorem eq_of_bytes {n : Nat} {v w : Word} (hv : ∀ j, 8 * n ≤ j → v.getLsbD j = false)
    (hw : ∀ j, 8 * n ≤ j → w.getLsbD j = false)
    (h : ∀ k, k < n → v.extractLsb' (8 * k) 8 = w.extractLsb' (8 * k) 8) : v = w := by
  apply BitVec.eq_of_getLsbD_eq
  intro j _
  by_cases hj : 8 * n ≤ j
  · rw [hv j hj, hw j hj]
  · have hk := congrArg (fun x => x.getLsbD (j % 8)) (h (j / 8) (by omega))
    have e : 8 * (j / 8) + j % 8 = j := by omega
    have l : j % 8 < 8 := Nat.mod_lt _ (by omega)
    simpa [BitVec.getLsbD_extractLsb', l, e] using hk

/-- Reading back a word just written gives it (R52). -/
theorem Memory.readLE_writeLE {m : List Host.Cell} {a : Nat} {v : Word} (ha : a + 4 ≤ addressSpace)
    (hm : Memory.wf m = true) : Memory.readLE (Memory.writeLE m a v 4) a 4 = v := by
  refine eq_of_bytes (n := 4) (fun j hj => Memory.readLE_high hj)
    (fun j hj => BitVec.getLsbD_of_ge _ _ (by omega)) fun k hk => ?_
  rw [Memory.extract_readLE (by omega) hk, Memory.read_writeLE_same ha hm hk]

/-! ## The stale lines -/

theorem Stale.wfFrom_mono {lo lo' : Nat} (h : lo' ≤ lo) :
    ∀ {ls : List Nat}, Stale.wfFrom lo ls = true → Stale.wfFrom lo' ls = true
  | [], _ => rfl
  | k :: rest, hm => by
    simp only [Stale.wfFrom, Bool.and_eq_true, decide_eq_true_eq] at hm ⊢
    exact ⟨⟨by omega, hm.1.2⟩, hm.2⟩

/-- A line is stale after a mark exactly when it was or is the one marked. -/
@[simp] theorem Stale.mem_mark {l k : Nat} : ∀ {ls : List Nat}, k ∈ Stale.mark ls l ↔ k = l ∨ k ∈ ls
  | [] => by simp [Stale.mark]
  | x :: rest => by
    by_cases h1 : l < x
    · simp [Stale.mark, h1]
    · by_cases h2 : l = x
      · simp [Stale.mark, h2]
      · simp only [Stale.mark, h1, h2, if_false, List.mem_cons, Stale.mem_mark (ls := rest)]
        tauto

/-- A line is stale after a clear exactly when it was and is not the one cleared. -/
@[simp] theorem Stale.mem_clear {ls : List Nat} {l k : Nat} : k ∈ Stale.clear ls l ↔ k ∈ ls ∧ k ≠ l := by
  simp [Stale.clear, List.mem_filter]

theorem Stale.wfFrom_mark {l : Nat} (hl : l < addressSpace / lineBytes) :
    ∀ {lo : Nat} {ls : List Nat}, lo ≤ l → Stale.wfFrom lo ls = true → Stale.wfFrom lo (Stale.mark ls l) = true
  | lo, [], hlo, _ => by simp [Stale.mark, Stale.wfFrom, hlo, hl]
  | lo, k :: rest, hlo, hm => by
    have hm' := hm
    simp only [Stale.wfFrom, Bool.and_eq_true, decide_eq_true_eq] at hm'
    by_cases h1 : l < k
    · simp only [Stale.mark, h1, if_true, Stale.wfFrom, Bool.and_eq_true, decide_eq_true_eq]
      exact ⟨⟨hlo, hl⟩, ⟨by omega, hm'.1.2⟩, hm'.2⟩
    · by_cases h2 : l = k
      · simpa [Stale.mark, h2] using hm
      · simp only [Stale.mark, h1, h2, if_false, Stale.wfFrom, Bool.and_eq_true, decide_eq_true_eq]
        exact ⟨hm'.1, Stale.wfFrom_mark hl (by omega) hm'.2⟩

/-- Marking a line of the address space keeps the canonical form. -/
theorem Stale.wf_mark {ls : List Nat} {l : Nat} (hl : l < addressSpace / lineBytes) (h : Stale.wf ls = true) :
    Stale.wf (Stale.mark ls l) = true :=
  Stale.wfFrom_mark hl (Nat.zero_le _) h

theorem Stale.wfFrom_clear {l : Nat} :
    ∀ {lo : Nat} {ls : List Nat}, Stale.wfFrom lo ls = true → Stale.wfFrom lo (Stale.clear ls l) = true
  | _, [], _ => rfl
  | lo, k :: rest, hm => by
    simp only [Stale.wfFrom, Bool.and_eq_true, decide_eq_true_eq] at hm
    have ih := Stale.wfFrom_clear (l := l) hm.2
    by_cases h : k = l
    · have e : Stale.clear (k :: rest) l = Stale.clear rest l := by simp [Stale.clear, h]
      rw [e]
      exact Stale.wfFrom_mono (lo := k + 1) (by omega) ih
    · simp only [Stale.clear, List.filter_cons, bne_iff_ne, ne_eq, h, not_false_eq_true, if_true, Stale.wfFrom,
        Bool.and_eq_true, decide_eq_true_eq]
      exact ⟨hm.1, by simpa [Stale.clear] using ih⟩

/-- Clearing a line keeps the canonical form. -/
theorem Stale.wf_clear {ls : List Nat} {l : Nat} (h : Stale.wf ls = true) : Stale.wf (Stale.clear ls l) = true :=
  Stale.wfFrom_clear h

end Sys2Proof.Machine
end

