-- ==== Sys2Proof/Laws/State.lean ====
section
/-! SUPPORT. One lemma per field of State per update, true by `rfl`, so that no later proof unfolds a record update; and
how the accessors `reg`, `spr` and `byte` read through each update. -/

namespace Sys2Proof.Machine

/-! ## `State.setReg` -/

@[simp] theorem State.setReg_regs (s : State) (r : RegNum) (v : Word) :
    (s.setReg r v).regs = s.regs.set r.toNat v := rfl
@[simp] theorem State.setReg_pc (s : State) (r : RegNum) (v : Word) : (s.setReg r v).pc = s.pc := rfl
@[simp] theorem State.setReg_flags (s : State) (r : RegNum) (v : Word) : (s.setReg r v).flags = s.flags := rfl
@[simp] theorem State.setReg_ids (s : State) (r : RegNum) (v : Word) : (s.setReg r v).ids = s.ids := rfl
@[simp] theorem State.setReg_ira (s : State) (r : RegNum) (v : Word) : (s.setReg r v).ira = s.ira := rfl
@[simp] theorem State.setReg_ie (s : State) (r : RegNum) (v : Word) : (s.setReg r v).ie = s.ie := rfl
@[simp] theorem State.setReg_ity (s : State) (r : RegNum) (v : Word) : (s.setReg r v).ity = s.ity := rfl
@[simp] theorem State.setReg_sty (s : State) (r : RegNum) (v : Word) : (s.setReg r v).sty = s.sty := rfl
@[simp] theorem State.setReg_pfx (s : State) (r : RegNum) (v : Word) : (s.setReg r v).pfx = s.pfx := rfl
@[simp] theorem State.setReg_stale (s : State) (r : RegNum) (v : Word) : (s.setReg r v).stale = s.stale := rfl
@[simp] theorem State.setReg_mem (s : State) (r : RegNum) (v : Word) : (s.setReg r v).mem = s.mem := rfl
@[simp] theorem State.setReg_irqLine (s : State) (r : RegNum) (v : Word) : (s.setReg r v).irqLine = s.irqLine := rfl
@[simp] theorem State.setReg_plat (s : State) (r : RegNum) (v : Word) : (s.setReg r v).plat = s.plat := rfl

/-! ## `State.setFlags` -/

@[simp] theorem State.setFlags_regs (s : State) (f : Flags) : (s.setFlags f).regs = s.regs := rfl
@[simp] theorem State.setFlags_pc (s : State) (f : Flags) : (s.setFlags f).pc = s.pc := rfl
@[simp] theorem State.setFlags_flags (s : State) (f : Flags) : (s.setFlags f).flags = f := rfl
@[simp] theorem State.setFlags_ids (s : State) (f : Flags) : (s.setFlags f).ids = s.ids := rfl
@[simp] theorem State.setFlags_ira (s : State) (f : Flags) : (s.setFlags f).ira = s.ira := rfl
@[simp] theorem State.setFlags_ie (s : State) (f : Flags) : (s.setFlags f).ie = s.ie := rfl
@[simp] theorem State.setFlags_ity (s : State) (f : Flags) : (s.setFlags f).ity = s.ity := rfl
@[simp] theorem State.setFlags_sty (s : State) (f : Flags) : (s.setFlags f).sty = s.sty := rfl
@[simp] theorem State.setFlags_pfx (s : State) (f : Flags) : (s.setFlags f).pfx = s.pfx := rfl
@[simp] theorem State.setFlags_stale (s : State) (f : Flags) : (s.setFlags f).stale = s.stale := rfl
@[simp] theorem State.setFlags_mem (s : State) (f : Flags) : (s.setFlags f).mem = s.mem := rfl
@[simp] theorem State.setFlags_irqLine (s : State) (f : Flags) : (s.setFlags f).irqLine = s.irqLine := rfl
@[simp] theorem State.setFlags_plat (s : State) (f : Flags) : (s.setFlags f).plat = s.plat := rfl

/-! ## `State.setIe` -/

@[simp] theorem State.setIe_regs (s : State) (b : Bool) : (s.setIe b).regs = s.regs := rfl
@[simp] theorem State.setIe_pc (s : State) (b : Bool) : (s.setIe b).pc = s.pc := rfl
@[simp] theorem State.setIe_flags (s : State) (b : Bool) : (s.setIe b).flags = s.flags := rfl
@[simp] theorem State.setIe_ids (s : State) (b : Bool) : (s.setIe b).ids = s.ids := rfl
@[simp] theorem State.setIe_ira (s : State) (b : Bool) : (s.setIe b).ira = s.ira := rfl
@[simp] theorem State.setIe_ie (s : State) (b : Bool) : (s.setIe b).ie = b := rfl
@[simp] theorem State.setIe_ity (s : State) (b : Bool) : (s.setIe b).ity = s.ity := rfl
@[simp] theorem State.setIe_sty (s : State) (b : Bool) : (s.setIe b).sty = s.sty := rfl
@[simp] theorem State.setIe_pfx (s : State) (b : Bool) : (s.setIe b).pfx = s.pfx := rfl
@[simp] theorem State.setIe_stale (s : State) (b : Bool) : (s.setIe b).stale = s.stale := rfl
@[simp] theorem State.setIe_mem (s : State) (b : Bool) : (s.setIe b).mem = s.mem := rfl
@[simp] theorem State.setIe_irqLine (s : State) (b : Bool) : (s.setIe b).irqLine = s.irqLine := rfl
@[simp] theorem State.setIe_plat (s : State) (b : Bool) : (s.setIe b).plat = s.plat := rfl

/-! ## `State.stored` -/

@[simp] theorem State.stored_regs (s : State) (a : Word) (n : Nat) (v : Word) : (s.stored a n v).regs = s.regs := rfl
@[simp] theorem State.stored_pc (s : State) (a : Word) (n : Nat) (v : Word) : (s.stored a n v).pc = s.pc := rfl
@[simp] theorem State.stored_flags (s : State) (a : Word) (n : Nat) (v : Word) : (s.stored a n v).flags = s.flags := rfl
@[simp] theorem State.stored_ids (s : State) (a : Word) (n : Nat) (v : Word) : (s.stored a n v).ids = s.ids := rfl
@[simp] theorem State.stored_ira (s : State) (a : Word) (n : Nat) (v : Word) : (s.stored a n v).ira = s.ira := rfl
@[simp] theorem State.stored_ie (s : State) (a : Word) (n : Nat) (v : Word) : (s.stored a n v).ie = s.ie := rfl
@[simp] theorem State.stored_ity (s : State) (a : Word) (n : Nat) (v : Word) : (s.stored a n v).ity = s.ity := rfl
@[simp] theorem State.stored_sty (s : State) (a : Word) (n : Nat) (v : Word) : (s.stored a n v).sty = s.sty := rfl
@[simp] theorem State.stored_pfx (s : State) (a : Word) (n : Nat) (v : Word) : (s.stored a n v).pfx = s.pfx := rfl
@[simp] theorem State.stored_stale (s : State) (a : Word) (n : Nat) (v : Word) :
    (s.stored a n v).stale = Stale.mark (Stale.mark s.stale (a.toNat / lineBytes)) ((a.toNat + n - 1) / lineBytes) :=
  rfl
@[simp] theorem State.stored_mem (s : State) (a : Word) (n : Nat) (v : Word) :
    (s.stored a n v).mem = Memory.writeLE s.mem a.toNat v n := rfl
@[simp] theorem State.stored_irqLine (s : State) (a : Word) (n : Nat) (v : Word) :
    (s.stored a n v).irqLine = s.irqLine := rfl
@[simp] theorem State.stored_plat (s : State) (a : Word) (n : Nat) (v : Word) : (s.stored a n v).plat = s.plat := rfl

/-! ## `State.retired` -/

@[simp] theorem State.retired_regs (s : State) : (s.retired).regs = s.regs := rfl
@[simp] theorem State.retired_pc (s : State) : (s.retired).pc = s.pc + 2#32 := rfl
@[simp] theorem State.retired_flags (s : State) : (s.retired).flags = s.flags := rfl
@[simp] theorem State.retired_ids (s : State) : (s.retired).ids = s.ids := rfl
@[simp] theorem State.retired_ira (s : State) : (s.retired).ira = s.ira := rfl
@[simp] theorem State.retired_ie (s : State) : (s.retired).ie = s.ie := rfl
@[simp] theorem State.retired_ity (s : State) : (s.retired).ity = s.ity := rfl
@[simp] theorem State.retired_sty (s : State) : (s.retired).sty = s.sty := rfl
@[simp] theorem State.retired_pfx (s : State) : (s.retired).pfx = s.pfx.cleared := rfl
@[simp] theorem State.retired_stale (s : State) : (s.retired).stale = s.stale := rfl
@[simp] theorem State.retired_mem (s : State) : (s.retired).mem = s.mem := rfl
@[simp] theorem State.retired_irqLine (s : State) : (s.retired).irqLine = s.irqLine := rfl
@[simp] theorem State.retired_plat (s : State) : (s.retired).plat = s.plat := rfl

/-! ## `State.jumped` -/

@[simp] theorem State.jumped_regs (s : State) (target : Word) : (s.jumped target).regs = s.regs := rfl
@[simp] theorem State.jumped_pc (s : State) (target : Word) : (s.jumped target).pc = target := rfl
@[simp] theorem State.jumped_flags (s : State) (target : Word) : (s.jumped target).flags = s.flags := rfl
@[simp] theorem State.jumped_ids (s : State) (target : Word) : (s.jumped target).ids = s.ids := rfl
@[simp] theorem State.jumped_ira (s : State) (target : Word) : (s.jumped target).ira = s.ira := rfl
@[simp] theorem State.jumped_ie (s : State) (target : Word) : (s.jumped target).ie = s.ie := rfl
@[simp] theorem State.jumped_ity (s : State) (target : Word) : (s.jumped target).ity = s.ity := rfl
@[simp] theorem State.jumped_sty (s : State) (target : Word) : (s.jumped target).sty = s.sty := rfl
@[simp] theorem State.jumped_pfx (s : State) (target : Word) : (s.jumped target).pfx = s.pfx.cleared := rfl
@[simp] theorem State.jumped_stale (s : State) (target : Word) : (s.jumped target).stale = s.stale := rfl
@[simp] theorem State.jumped_mem (s : State) (target : Word) : (s.jumped target).mem = s.mem := rfl
@[simp] theorem State.jumped_irqLine (s : State) (target : Word) : (s.jumped target).irqLine = s.irqLine := rfl
@[simp] theorem State.jumped_plat (s : State) (target : Word) : (s.jumped target).plat = s.plat := rfl

/-! ## `State.interrupted` -/

@[simp] theorem State.interrupted_regs (s : State) (cause : Interrupt) (ret : Word) :
    (s.interrupted cause ret).regs = s.regs := rfl
@[simp] theorem State.interrupted_pc (s : State) (cause : Interrupt) (ret : Word) :
    (s.interrupted cause ret).pc = s.ids := rfl
@[simp] theorem State.interrupted_flags (s : State) (cause : Interrupt) (ret : Word) :
    (s.interrupted cause ret).flags = s.flags := rfl
@[simp] theorem State.interrupted_ids (s : State) (cause : Interrupt) (ret : Word) :
    (s.interrupted cause ret).ids = s.ids := rfl
@[simp] theorem State.interrupted_ira (s : State) (cause : Interrupt) (ret : Word) :
    (s.interrupted cause ret).ira = ret := rfl
@[simp] theorem State.interrupted_ie (s : State) (cause : Interrupt) (ret : Word) :
    (s.interrupted cause ret).ie = false := rfl
@[simp] theorem State.interrupted_ity (s : State) (cause : Interrupt) (ret : Word) :
    (s.interrupted cause ret).ity = (match cause with | .irq => false | .swi _ => true) := rfl
@[simp] theorem State.interrupted_sty (s : State) (cause : Interrupt) (ret : Word) :
    (s.interrupted cause ret).sty = (match cause with | .irq => s.sty | .swi n => n) := rfl
@[simp] theorem State.interrupted_pfx (s : State) (cause : Interrupt) (ret : Word) :
    (s.interrupted cause ret).pfx = s.pfx.cleared := rfl
@[simp] theorem State.interrupted_stale (s : State) (cause : Interrupt) (ret : Word) :
    (s.interrupted cause ret).stale = s.stale := rfl
@[simp] theorem State.interrupted_mem (s : State) (cause : Interrupt) (ret : Word) :
    (s.interrupted cause ret).mem = s.mem := rfl
@[simp] theorem State.interrupted_irqLine (s : State) (cause : Interrupt) (ret : Word) :
    (s.interrupted cause ret).irqLine = s.irqLine := rfl
@[simp] theorem State.interrupted_plat (s : State) (cause : Interrupt) (ret : Word) :
    (s.interrupted cause ret).plat = s.plat := rfl

/-! ## `State.pastBoundary` -/

@[simp] theorem State.pastBoundary_regs (s : State) : (s.pastBoundary).regs = s.regs := rfl
@[simp] theorem State.pastBoundary_pc (s : State) : (s.pastBoundary).pc = s.pc := rfl
@[simp] theorem State.pastBoundary_flags (s : State) : (s.pastBoundary).flags = s.flags := rfl
@[simp] theorem State.pastBoundary_ids (s : State) : (s.pastBoundary).ids = s.ids := rfl
@[simp] theorem State.pastBoundary_ira (s : State) : (s.pastBoundary).ira = s.ira := rfl
@[simp] theorem State.pastBoundary_ie (s : State) : (s.pastBoundary).ie = s.ie := rfl
@[simp] theorem State.pastBoundary_ity (s : State) : (s.pastBoundary).ity = s.ity := rfl
@[simp] theorem State.pastBoundary_sty (s : State) : (s.pastBoundary).sty = s.sty := rfl
@[simp] theorem State.pastBoundary_pfx (s : State) : (s.pastBoundary).pfx = s.pfx := rfl
@[simp] theorem State.pastBoundary_stale (s : State) : (s.pastBoundary).stale = s.stale := rfl
@[simp] theorem State.pastBoundary_mem (s : State) : (s.pastBoundary).mem = s.mem := rfl
@[simp] theorem State.pastBoundary_irqLine (s : State) : (s.pastBoundary).irqLine = s.irqLine.tail := rfl
@[simp] theorem State.pastBoundary_plat (s : State) : (s.pastBoundary).plat = s.plat := rfl

/-! ## `State.setPair` -/

@[simp] theorem State.setPair_pc (s : State) (hi lo : RegNum) (v : DWord) : (s.setPair hi lo v).pc = s.pc := rfl
@[simp] theorem State.setPair_flags (s : State) (hi lo : RegNum) (v : DWord) :
    (s.setPair hi lo v).flags = s.flags := rfl
@[simp] theorem State.setPair_ids (s : State) (hi lo : RegNum) (v : DWord) : (s.setPair hi lo v).ids = s.ids := rfl
@[simp] theorem State.setPair_ira (s : State) (hi lo : RegNum) (v : DWord) : (s.setPair hi lo v).ira = s.ira := rfl
@[simp] theorem State.setPair_ie (s : State) (hi lo : RegNum) (v : DWord) : (s.setPair hi lo v).ie = s.ie := rfl
@[simp] theorem State.setPair_ity (s : State) (hi lo : RegNum) (v : DWord) : (s.setPair hi lo v).ity = s.ity := rfl
@[simp] theorem State.setPair_sty (s : State) (hi lo : RegNum) (v : DWord) : (s.setPair hi lo v).sty = s.sty := rfl
@[simp] theorem State.setPair_pfx (s : State) (hi lo : RegNum) (v : DWord) : (s.setPair hi lo v).pfx = s.pfx := rfl
@[simp] theorem State.setPair_stale (s : State) (hi lo : RegNum) (v : DWord) :
    (s.setPair hi lo v).stale = s.stale := rfl
@[simp] theorem State.setPair_mem (s : State) (hi lo : RegNum) (v : DWord) : (s.setPair hi lo v).mem = s.mem := rfl
@[simp] theorem State.setPair_irqLine (s : State) (hi lo : RegNum) (v : DWord) :
    (s.setPair hi lo v).irqLine = s.irqLine := rfl
@[simp] theorem State.setPair_plat (s : State) (hi lo : RegNum) (v : DWord) : (s.setPair hi lo v).plat = s.plat := rfl

/-! ## `State.setSpr` -/

@[simp] theorem State.setSpr_regs (s : State) (r : Spr) (v : Word) : (s.setSpr r v).regs = s.regs := by cases r <;> rfl
@[simp] theorem State.setSpr_pc (s : State) (r : Spr) (v : Word) : (s.setSpr r v).pc = s.pc := by cases r <;> rfl
@[simp] theorem State.setSpr_pfx (s : State) (r : Spr) (v : Word) : (s.setSpr r v).pfx = s.pfx := by cases r <;> rfl
@[simp] theorem State.setSpr_stale (s : State) (r : Spr) (v : Word) : (s.setSpr r v).stale = s.stale := by cases r <;> rfl
@[simp] theorem State.setSpr_mem (s : State) (r : Spr) (v : Word) : (s.setSpr r v).mem = s.mem := by cases r <;> rfl
@[simp] theorem State.setSpr_irqLine (s : State) (r : Spr) (v : Word) : (s.setSpr r v).irqLine = s.irqLine := by cases r <;> rfl
@[simp] theorem State.setSpr_plat (s : State) (r : Spr) (v : Word) : (s.setSpr r v).plat = s.plat := by cases r <;> rfl
@[simp] theorem State.setSpr_flags_same (s : State) (v : Word) : (s.setSpr .flags v).flags = Flags.ofWord v := rfl
@[simp] theorem State.setSpr_ids_same (s : State) (v : Word) : (s.setSpr .ids v).ids = v := rfl
@[simp] theorem State.setSpr_ira_same (s : State) (v : Word) : (s.setSpr .ira v).ira = v := rfl
@[simp] theorem State.setSpr_ie_same (s : State) (v : Word) : (s.setSpr .ie v).ie = v.getLsbD 0 := rfl
@[simp] theorem State.setSpr_ity_same (s : State) (v : Word) : (s.setSpr .ity v).ity = v.getLsbD 0 := rfl
@[simp] theorem State.setSpr_sty_same (s : State) (v : Word) : (s.setSpr .sty v).sty = v := rfl

/-! ## Accessors through updates -/

@[simp] theorem State.setReg_byte (s : State) (r : RegNum) (v : Word) (k : Nat) : (s.setReg r v).byte k = s.byte k := rfl
@[simp] theorem State.setReg_spr (s : State) (r : RegNum) (v : Word) (q : Spr) : (s.setReg r v).spr q = s.spr q := by cases q <;> rfl
@[simp] theorem State.setFlags_reg (s : State) (f : Flags) (q : RegNum) : (s.setFlags f).reg q = s.reg q := rfl
@[simp] theorem State.setFlags_byte (s : State) (f : Flags) (k : Nat) : (s.setFlags f).byte k = s.byte k := rfl
@[simp] theorem State.setIe_reg (s : State) (b : Bool) (q : RegNum) : (s.setIe b).reg q = s.reg q := rfl
@[simp] theorem State.setIe_byte (s : State) (b : Bool) (k : Nat) : (s.setIe b).byte k = s.byte k := rfl
@[simp] theorem State.stored_reg (s : State) (a : Word) (n : Nat) (v : Word) (q : RegNum) : (s.stored a n v).reg q = s.reg q := rfl
@[simp] theorem State.stored_spr (s : State) (a : Word) (n : Nat) (v : Word) (q : Spr) : (s.stored a n v).spr q = s.spr q := by cases q <;> rfl
@[simp] theorem State.retired_reg (s : State) (q : RegNum) : (s.retired).reg q = s.reg q := rfl
@[simp] theorem State.retired_byte (s : State) (k : Nat) : (s.retired).byte k = s.byte k := rfl
@[simp] theorem State.retired_spr (s : State) (q : Spr) : (s.retired).spr q = s.spr q := by cases q <;> rfl
@[simp] theorem State.jumped_reg (s : State) (target : Word) (q : RegNum) : (s.jumped target).reg q = s.reg q := rfl
@[simp] theorem State.jumped_byte (s : State) (target : Word) (k : Nat) : (s.jumped target).byte k = s.byte k := rfl
@[simp] theorem State.jumped_spr (s : State) (target : Word) (q : Spr) : (s.jumped target).spr q = s.spr q := by cases q <;> rfl
@[simp] theorem State.interrupted_reg (s : State) (cause : Interrupt) (ret : Word) (q : RegNum) : (s.interrupted cause ret).reg q = s.reg q := rfl
@[simp] theorem State.interrupted_byte (s : State) (cause : Interrupt) (ret : Word) (k : Nat) : (s.interrupted cause ret).byte k = s.byte k := rfl
@[simp] theorem State.pastBoundary_reg (s : State) (q : RegNum) : (s.pastBoundary).reg q = s.reg q := rfl
@[simp] theorem State.pastBoundary_byte (s : State) (k : Nat) : (s.pastBoundary).byte k = s.byte k := rfl
@[simp] theorem State.pastBoundary_spr (s : State) (q : Spr) : (s.pastBoundary).spr q = s.spr q := by cases q <;> rfl
@[simp] theorem State.setPair_byte (s : State) (hi lo : RegNum) (v : DWord) (k : Nat) : (s.setPair hi lo v).byte k = s.byte k := rfl
@[simp] theorem State.setPair_spr (s : State) (hi lo : RegNum) (v : DWord) (q : Spr) : (s.setPair hi lo v).spr q = s.spr q := by cases q <;> rfl
@[simp] theorem State.setSpr_reg (s : State) (r : Spr) (v : Word) (q : RegNum) : (s.setSpr r v).reg q = s.reg q := by cases r <;> rfl
@[simp] theorem State.setSpr_byte (s : State) (r : Spr) (v : Word) (k : Nat) : (s.setSpr r v).byte k = s.byte k := by cases r <;> rfl

/-- A register read after a register write (R9). -/
theorem State.reg_setReg (s : State) (r q : RegNum) (v : Word) :
    (s.setReg r v).reg q = if r = q then v else s.reg q := by
  simp [State.reg, State.setReg, Vector.getElem_set, BitVec.toNat_inj]

@[simp] theorem State.reg_setReg_same (s : State) (r : RegNum) (v : Word) : (s.setReg r v).reg r = v := by
  simp [State.reg_setReg]

theorem State.reg_setReg_other (s : State) (r q : RegNum) (v : Word) (h : q ≠ r) :
    (s.setReg r v).reg q = s.reg q := by
  simp [State.reg_setReg, Ne.symm h]

/-- A register read after the write of a pair (R220). -/
theorem State.reg_setPair (s : State) (hi lo q : RegNum) (v : DWord) :
    (s.setPair hi lo v).reg q =
      if lo = q then v.extractLsb' 0 32 else if hi = q then v.extractLsb' 32 32 else s.reg q := by
  simp [State.setPair, State.reg_setReg]

/-- `flags` reads back its four bits from its 32-bit view (R25). -/
@[simp] theorem Flags.ofWord_toWord (f : Flags) : Flags.ofWord f.toWord = f := by
  rcases f with ⟨z, c, v, n⟩
  cases z <;> cases c <;> cases v <;> cases n <;> decide

@[simp] theorem bitWord_getLsbD_zero (b : Bool) : (bitWord b).getLsbD 0 = b := by cases b <;> decide

/-- The 32-bit view of `flags` tells its four bits apart. -/
theorem Flags.toWord_inj {f g : Flags} : f.toWord = g.toWord ↔ f = g :=
  ⟨fun h => by rw [← Flags.ofWord_toWord f, h, Flags.ofWord_toWord], fun h => h ▸ rfl⟩

theorem bitWord_inj {a b : Bool} : bitWord a = bitWord b ↔ a = b := by cases a <;> cases b <;> decide

/-- A special-purpose register read after the write of another one (R31). -/
theorem State.spr_setSpr_other (s : State) (r q : Spr) (v : Word) (h : q ≠ r) : (s.setSpr r v).spr q = s.spr q := by
  cases r <;> cases q <;> first | rfl | exact absurd rfl h

/-- A special-purpose register read after `flags` is written. -/
theorem State.setFlags_spr (s : State) (f : Flags) (q : Spr) (h : q ≠ .flags) : (s.setFlags f).spr q = s.spr q := by
  cases q <;> first | rfl | exact absurd rfl h

/-- A special-purpose register read after `ie` is written. -/
theorem State.setIe_spr (s : State) (b : Bool) (q : Spr) (h : q ≠ .ie) : (s.setIe b).spr q = s.spr q := by
  cases q <;> first | rfl | exact absurd rfl h

/-! ## The prefix state -/

@[simp] theorem PrefixState.cleared_inEffect (p : PrefixState) : p.cleared.inEffect = false := rfl
@[simp] theorem PrefixState.cleared_immInEffect (p : PrefixState) : p.cleared.immInEffect = false := rfl
@[simp] theorem PrefixState.cleared_indexInEffect (p : PrefixState) : p.cleared.indexInEffect = false := rfl
@[simp] theorem PrefixState.cleared_preHave (p : PrefixState) : p.cleared.preHave = false := rfl
@[simp] theorem PrefixState.cleared_lpreHave (p : PrefixState) : p.cleared.lpreHave = false := rfl
@[simp] theorem PrefixState.cleared_rrHave (p : PrefixState) : p.cleared.rrHave = false := rfl
@[simp] theorem PrefixState.cleared_riHave (p : PrefixState) : p.cleared.riHave = false := rfl
@[simp] theorem PrefixState.cleared_usedByIndex (p : PrefixState) : p.cleared.usedByIndex = false := rfl

end Sys2Proof.Machine
end

