-- ==== Sys2Proof/Laws/Ops.lean ====
section
/-! SUPPORT. What each shared operation can do, said once: if it answers `next t`, then how. Later proofs cite these and
unfold none of the operations. -/

namespace Sys2Proof.Machine

/-! ## Outcomes -/

@[simp] theorem andThen_ok {α : Type} (v : α) (k : α → Outcome) : andThen (.ok v) k = k v := rfl

@[simp] theorem andThen_error {α : Type} (e : Stop) (k : α → Outcome) : andThen (.error e) k = e.outcome := rfl

/-- A stop is no next state. -/
theorem Stop.outcome_ne_next (e : Stop) (t : State) : e.outcome ≠ .next t := by cases e <;> simp [Stop.outcome]

/-- A sequence that goes on went on at its first part. -/
theorem andThen_next {α : Type} {x : Except Stop α} {k : α → Outcome} {t : State} (h : andThen x k = .next t) :
    ∃ v, x = .ok v ∧ k v = .next t := by
  cases x with
  | ok v => exact ⟨v, rfl, h⟩
  | error e => exact absurd h (e.outcome_ne_next t)

theorem retire_next {s t : State} : retire s = .next t ↔ t = s.retired := by
  simp [retire, eq_comm]

/-- A control transfer that goes on had an even target (R55). -/
theorem jumpTo_next {a : Word} {s t : State} :
    jumpTo a s = .next t ↔ a.getLsbD 0 = false ∧ t = s.jumped a := by
  unfold jumpTo
  cases h : a.getLsbD 0 <;> simp [eq_comm]

theorem latch_next {p : PrefixState} {n : Word} {s t : State} :
    latch p n s = .next t ↔ t = { s with pfx := p, pc := s.pc + n } := by
  simp [latch, eq_comm]

theorem invalidPrefix_next {s t : State} : invalidPrefix s = .next t ↔ t = s.retired := by
  simp [invalidPrefix, eq_comm]

theorem withImmediate_next {s t : State} {k : Outcome} :
    withImmediate s k = .next t ↔ s.pfx.usedByIndex = false ∧ k = .next t := by
  unfold withImmediate
  cases s.pfx.usedByIndex <;> simp

/-- Interrupt entry that goes on had an even `ids` (R306). -/
theorem takeInterrupt_next {c : Interrupt} {ret : Word} {s t : State} :
    takeInterrupt c ret s = .next t ↔ s.ids.getLsbD 0 = false ∧ t = s.interrupted c ret := by
  unfold takeInterrupt
  cases h : s.ids.getLsbD 0 <;> simp [eq_comm]

theorem returnFromInterrupt_next {s t : State} :
    returnFromInterrupt s = .next t ↔ s.ira.getLsbD 0 = false ∧ t = (s.setIe true).jumped s.ira := by
  simp [returnFromInterrupt, jumpTo_next]

/-! ## Accesses -/

/-- A data access that is performed lies in the address space (R50). -/
theorem State.checkData_bound {s : State} {a : Word} {n : Nat} (h : s.checkData a n = .ok ()) :
    a.toNat + n ≤ addressSpace := by
  unfold State.checkData at h
  split at h
  · cases h
  · split at h
    · cases h
    · omega

theorem State.load_ok {s : State} {a : Word} {n : Nat} {v : Word} :
    s.load a n = .ok v ↔ s.checkData a n = .ok () ∧ v = Memory.readLE s.mem a.toNat n := by
  unfold State.load
  cases h : s.checkData a n <;> simp [eq_comm]

theorem State.store_ok {s t : State} {a : Word} {n : Nat} {v : Word} :
    s.store a n v = .ok t ↔ s.checkData a n = .ok () ∧ t = s.stored a n v := by
  unfold State.store
  cases h : s.checkData a n <;> simp [eq_comm]

/-- The access conditions read the parameters alone. -/
theorem State.checkData_congr {s t : State} (h : t.plat = s.plat) (a : Word) (n : Nat) :
    t.checkData a n = s.checkData a n := by
  simp [State.checkData, h]

/-- The lines of the bytes of an access are lines of the address space. -/
theorem State.checkData_lines {s : State} {a : Word} {n : Nat} (_ : 0 < n) (h : s.checkData a n = .ok ()) :
    a.toNat / lineBytes < addressSpace / lineBytes ∧ (a.toNat + n - 1) / lineBytes < addressSpace / lineBytes := by
  have := State.checkData_bound h
  simp only [lineBytes, addressSpace] at *
  omega

/-- A store that is performed keeps memory canonical. -/
theorem State.stored_mem_wf {s : State} {a : Word} {n : Nat} {v : Word} (h : s.checkData a n = .ok ())
    (hm : Memory.wf s.mem = true) : Memory.wf (s.stored a n v).mem = true :=
  Memory.wf_writeLE (State.checkData_bound h) hm

/-- A store that is performed keeps the stale lines canonical. -/
theorem State.stored_stale_wf {s : State} {a : Word} {n : Nat} {v : Word} (hn : 0 < n) (h : s.checkData a n = .ok ())
    (hs : Stale.wf s.stale = true) : Stale.wf (s.stored a n v).stale = true :=
  let hl := State.checkData_lines hn h
  Stale.wf_mark hl.2 (Stale.wf_mark hl.1 hs)

/-- The bytes outside a store are as before (R52). -/
theorem State.stored_byte_other {s : State} {a : Word} {n k : Nat} {v : Word} (h : k < a.toNat ∨ a.toNat + n ≤ k) :
    (s.stored a n v).byte k = s.byte k :=
  Memory.read_writeLE_other h

/-- The bytes of a store that is performed (R52). -/
theorem State.stored_byte {s : State} {a : Word} {n k : Nat} {v : Word} (h : s.checkData a n = .ok ())
    (hm : Memory.wf s.mem = true) (hk : k < n) :
    (s.stored a n v).byte (a.toNat + k) = v.extractLsb' (8 * k) 8 :=
  Memory.read_writeLE_same (State.checkData_bound h) hm hk

/-- A line is stale after a store exactly when it was, or the bytes stored lie in it (R63). -/
theorem State.stored_stale_mem {s : State} {a : Word} {n l : Nat} {v : Word} :
    l ∈ (s.stored a n v).stale ↔ l = (a.toNat + n - 1) / lineBytes ∨ l = a.toNat / lineBytes ∨ l ∈ s.stale := by
  simp

/-- An aligned access of 1, 2 or 4 bytes to memory that backs every address is performed (R57, R60). -/
theorem checkBacked_wholeSpace {a : Nat} : ∀ {n : Nat}, a + n ≤ addressSpace →
    checkBacked Config.wholeSpace a n = .ok ()
  | 0, _ => rfl
  | n + 1, h => by
    have h1 : kindAt Config.wholeSpace a = some .memory := by
      have : a < addressSpace := by omega
      simp [kindAt, Config.wholeSpace, this]
    simp only [checkBacked, h1]
    exact checkBacked_wholeSpace (by omega)

/-! ## The destinations of multiply and divide -/

theorem divideResult_next {a : RegNum} {qr : Word × Word} {s t : State} (h : divideResult a qr s = .next t) :
    (s.pfx.indexInEffect = false ∧ t = (s.setReg a qr.1).retired)
      ∨ (s.pfx.indexInEffect = true ∧ s.pfx.idxA ≠ a ∧ t = ((s.setReg s.pfx.idxA qr.2).setReg a qr.1).retired) := by
  unfold divideResult at h
  split at h
  · split at h
    · cases h
    · exact .inr ⟨‹_›, ‹_›, retire_next.mp h⟩
  · exact .inl ⟨Bool.eq_false_iff.mpr ‹_›, retire_next.mp h⟩

theorem multiplyResult_next {p : DWord} {s t : State} (h : multiplyResult p s = .next t) :
    (s.pfx.indexInEffect = false ∧ t = (s.setPair 0#4 1#4 p).retired)
      ∨ (s.pfx.indexInEffect = true ∧ s.pfx.idxLast = .rr ∧ s.pfx.idxA ≠ s.pfx.idxB
          ∧ t = (s.setPair s.pfx.idxA s.pfx.idxB p).retired) := by
  unfold multiplyResult at h
  split at h
  · split at h
    · cases h
    · split at h
      · cases h
      · rename_i hl _
        exact .inr ⟨‹_›, by cases e : s.pfx.idxLast <;> simp_all, ‹_›, retire_next.mp h⟩
  · exact .inl ⟨Bool.eq_false_iff.mpr ‹_›, retire_next.mp h⟩

theorem divide64Result_next {a : RegNum} {qr : DWord × DWord} {s t : State} (h : divide64Result a qr s = .next t) :
    (s.pfx.indexInEffect = false ∧ t = (s.setPair (pairHigh a) (pairLow a) qr.1).retired)
      ∨ (s.pfx.indexInEffect = true ∧ s.pfx.idxLast = .rr ∧ s.pfx.pairOverlap a = false
          ∧ t = ((s.setPair s.pfx.idxA s.pfx.idxB qr.2).setPair (pairHigh a) (pairLow a) qr.1).retired) := by
  unfold divide64Result at h
  split at h
  · split at h
    · cases h
    · split at h
      · cases h
      · rename_i hl _
        exact .inr ⟨‹_›, by cases e : s.pfx.idxLast <;> simp_all, Bool.eq_false_iff.mpr ‹_›, retire_next.mp h⟩
  · exact .inl ⟨Bool.eq_false_iff.mpr ‹_›, retire_next.mp h⟩

/-- The two registers of a pair differ. -/
theorem pairHigh_ne_pairLow (a : RegNum) : pairHigh a ≠ pairLow a := by
  simp [pairLow]

end Sys2Proof.Machine
end

