-- ==== Sys2Proof/Laws/Frames.lean ====
section
/-! SUPPORT. The frames (Safety.lean) of the ways an instruction ends, what the access operations read and write in the
words of Safety.lean, and what the end of a run is. -/

namespace Sys2Proof.Machine

/-- An instruction that ends without effect. -/
theorem frame_retired (s : State) :
    Frame [] [] s s.retired ∧ EndsAtNext s s.retired := by
  refine ⟨⟨fun r hr => by simp, fun q hq => by simp, ⟨fun k => by simp, rfl⟩, rfl, rfl⟩, rfl, rfl, rfl⟩

/-- An instruction that ends after writing one register. -/
theorem frame_setReg (s : State) (a : RegNum) (v : Word) :
    Frame [a] [] s (s.setReg a v).retired ∧ EndsAtNext s (s.setReg a v).retired := by
  refine ⟨⟨fun r hr => ?_, fun q _ => by simp, ⟨fun k => by simp, rfl⟩, rfl, rfl⟩, rfl, rfl, rfl⟩
  simp at hr
  simp [State.reg_setReg, Ne.symm hr]

/-- An instruction that ends after writing one register and the flags. -/
theorem frame_setRegFlags (s : State) (a : RegNum) (v : Word) (f : Flags) :
    Frame [a] [.flags] s ((s.setReg a v).setFlags f).retired ∧ EndsAtNext s ((s.setReg a v).setFlags f).retired := by
  refine ⟨⟨fun r hr => ?_, fun q hq => ?_, ⟨fun k => by simp, rfl⟩, rfl, rfl⟩, rfl, rfl, rfl⟩
  · simp at hr
    simp [State.reg_setReg, Ne.symm hr]
  · simp at hq; simp [State.setFlags_spr _ _ _ hq]

/-- An instruction that ends after writing the flags. -/
theorem frame_setFlags (s : State) (f : Flags) :
    Frame [] [.flags] s (s.setFlags f).retired ∧ EndsAtNext s (s.setFlags f).retired := by
  refine ⟨⟨fun r hr => by simp, fun q hq => ?_, ⟨fun k => by simp, rfl⟩, rfl, rfl⟩, rfl, rfl, rfl⟩
  · simp at hq; simp [State.setFlags_spr _ _ _ hq]

/-- A control transfer. -/
theorem frame_jumped (s : State) (x : Word) :
    (s.jumped x).pc = x ∧ Frame [] [] s (s.jumped x) ∧ NoPrefix (s.jumped x) := by
  refine ⟨rfl, ⟨fun r hr => by simp, fun q hq => by simp, ⟨fun k => by simp, rfl⟩, rfl, rfl⟩, rfl, rfl⟩

/-- An instruction that ends after writing one special-purpose register. -/
theorem frame_setSpr (s : State) (q : Spr) (v : Word) :
    Frame [] [q] s (s.setSpr q v).retired ∧ EndsAtNext s (s.setSpr q v).retired := by
  refine ⟨⟨fun r _ => by simp, fun r hr => ?_, ⟨fun k => by simp, by simp⟩, by simp, by simp⟩, by simp, rfl, rfl⟩
  simp at hr; simp [State.spr_setSpr_other _ _ _ _ hr]

/-- An instruction that ends after writing two registers. -/
theorem frame_pair (s : State) (h l : RegNum) (v : DWord) :
    Frame [h, l] [] s (s.setPair h l v).retired ∧ EndsAtNext s (s.setPair h l v).retired := by
  refine ⟨⟨fun r hr => ?_, fun q _ => by simp, ⟨fun k => by simp, rfl⟩, rfl, rfl⟩, rfl, rfl, rfl⟩
  simp at hr; simp [State.reg_setPair, Ne.symm hr.1, Ne.symm hr.2]

/-- An instruction that ends after a store. -/
theorem frame_stored (s : State) (a : Word) (n : Nat) (v : Word) :
    FrameStore [] [] a n s (s.stored a n v).retired ∧ EndsAtNext s (s.stored a n v).retired :=
  ⟨⟨fun r _ => by simp, fun q _ => by simp, fun k hk => by simpa using State.stored_byte_other hk, rfl, rfl⟩,
    rfl, rfl, rfl⟩

/-- The bytes of a store that is performed. -/
theorem stored_holdsBytes {s : State} {a : Word} {n : Nat} {v : Word} (hm : Memory.wf s.mem = true)
    (h : s.canAccess a n) :
    HoldsBytes (s.stored a n v) a n v :=
  fun _ hk => State.stored_byte h hm hk

/-- A load that is performed. -/
theorem State.load_of_canAccess {s : State} {a : Word} {n : Nat} (h : s.canAccess a n) :
    s.load a n = .ok (Memory.readLE s.mem a.toNat n) :=
  State.load_ok.mpr ⟨h, rfl⟩

/-- A store that is performed. -/
theorem State.store_of_canAccess {s : State} {a : Word} {n : Nat} {v : Word} (h : s.canAccess a n) :
    s.store a n v = .ok (s.stored a n v) :=
  State.store_ok.mpr ⟨h, rfl⟩

/-- The word at an address is what the load operation reads. -/
theorem State.wordAt_eq_readLE (s : State) (a : Word) : s.wordAt a = Memory.readLE s.mem a.toNat 4 := by
  refine eq_of_bytes (n := 4) (fun j hj => BitVec.getLsbD_of_ge _ _ (by omega)) (fun j hj => BitVec.getLsbD_of_ge _ _ (by omega)) fun k hk => ?_
  rw [Memory.extract_readLE (by omega) hk]
  apply BitVec.eq_of_getLsbD_eq
  intro j hj
  have : k = 0 ∨ k = 1 ∨ k = 2 ∨ k = 3 := by omega
  simp only [State.wordAt, State.byte, BitVec.getLsbD_extractLsb', BitVec.getLsbD_append, hj, decide_true,
    Bool.true_and]
  rcases this with rfl | rfl | rfl | rfl
  · simp [hj]
  · simp [show ¬ (8 + j < 8) by omega, hj]
  · simp [show ¬ (16 + j < 8) by omega, show ¬ (16 + j - 8 < 8) by omega, hj, show 16 + j - 8 - 8 = j by omega]
  · simp [show ¬ (24 + j < 8) by omega, show ¬ (24 + j - 8 < 8) by omega, show ¬ (24 + j - 8 - 8 < 8) by omega,
    show 24 + j - 8 - 8 - 8 = j by omega]

/-- The same of two bytes. -/
theorem State.halfAt_eq_readLE (s : State) (a : Word) : s.halfAt a = (Memory.readLE s.mem a.toNat 2).setWidth 16 := by
  apply BitVec.eq_of_getLsbD_eq
  intro j hj
  simp only [State.halfAt, State.byte, BitVec.getLsbD_append, BitVec.getLsbD_setWidth, hj, decide_true,
    Bool.true_and, Memory.readLE]
  have h32 : j < 32 := by omega
  by_cases h : j < 8
  · simp [h, h32]
  · have : j - 8 < 32 := by omega
    have : (Memory.read s.mem a.toNat).getLsbD j = false := BitVec.getLsbD_of_ge _ _ (by omega)
    simp [*]

/-- Every byte of the range is backed by memory (R60). -/
theorem checkBacked_ok (m : List Region) :
    ∀ (n a : Nat), checkBacked m a n = .ok () ↔ ∀ k, k < n → kindAt m (a + k) = some .memory
  | 0, a => by simp [checkBacked]
  | n+1, a => by
    simp only [checkBacked]
    constructor
    · intro h k hk
      rcases hh : kindAt m a with _ | ⟨_ | _⟩ <;> simp [hh] at h
      cases k with
      | zero => exact hh
      | succ k => have := (checkBacked_ok m n (a+1)).mp h k (by omega); rwa [show a + (k+1) = a + 1 + k by omega]
    · intro h
      rw [show kindAt m a = some .memory from h 0 (by omega)]
      exact (checkBacked_ok m n (a+1)).mpr fun k hk => by have := h (k+1) (by omega); rwa [show a + 1 + k = a + (k+1) by omega]

/-- The first byte that memory does not back decides how the access stops (R60, R59). -/
theorem checkBacked_stop (m : List Region) : ∀ (n a k : Nat), k < n → (∀ j, j < k → kindAt m (a + j) = some .memory) →
    (kindAt m (a+k) = none → checkBacked m a n = .error (.fault .unbackedAddress)) ∧ (kindAt m (a+k) = some .device → checkBacked m a n = .error (.refused .deviceAccess))
  | 0, _, _, h, _ => absurd h (by omega)
  | n+1, a, 0, _, _ => by refine ⟨fun h => ?_, fun h => ?_⟩ <;> simp at h <;> simp [checkBacked, h]
  | n+1, a, k+1, h, hj => by
    have h0 : kindAt m a = some .memory := hj 0 (by omega)
    have := checkBacked_stop m n (a+1) k (by omega) fun j hh => by have := hj (j+1) (by omega); rwa [show a + 1 + j = a + (j+1) by omega]
    rw [show a + 1 + k = a + (k+1) by omega] at this
    simpa [checkBacked, h0] using this

/-- The bits of a one-bit register as a word. -/
theorem getLsbD_bitWord (b : Bool) (j : Nat) : (bitWord b).getLsbD j = (b && decide (j = 0)) := by
  cases b
  · simp [bitWord]
  · rcases j with _ | j
    · decide
    · simp [bitWord, BitVec.getLsbD_one]

/-- A special-purpose register keeps its held bits of what is written (R31). -/
theorem State.spr_setSpr_same (s : State) (q : Spr) (v : Word) : (s.setSpr q v).spr q = v &&& q.heldBits := by
  have e : ∀ j, j < 32 → ((s.setSpr q v).spr q).getLsbD j = (v &&& q.heldBits).getLsbD j := by
    intro j hj
    cases q <;> simp only [State.setSpr, State.spr, Spr.heldBits, Flags.toWord, Flags.ofWord,
      BitVec.getLsbD_or, BitVec.getLsbD_shiftLeft, getLsbD_bitWord, BitVec.getLsbD_and] <;> interval_cases j <;> simp
  exact BitVec.eq_of_getLsbD_eq e

/-- The two halves of a pair of different registers. -/
theorem State.setPair_value (s : State) (h l : RegNum) (v : DWord) (hne : h ≠ l) :
    ((s.setPair h l v).reg h ++ (s.setPair h l v).reg l : DWord) = v := by
  rw [State.reg_setPair, State.reg_setPair]
  simp only [if_true, Ne.symm hne, if_false]
  apply BitVec.eq_of_getLsbD_eq
  intro j hj
  simp only [BitVec.getLsbD_append, BitVec.getLsbD_extractLsb']
  by_cases h : j < 32
  · simp [h]
  · simp [h, show j - 32 < 32 by omega, show 32 + (j - 32) = j by omega]

/-- What the end of a run says, once: an executable `bra` to itself is at `pc`, and no IRQ can be taken (R340). -/
theorem State.endOfRun_eq_true {s : State} :
    s.endOfRun = true ↔ ∃ i, s.fetchInstr = .ok (.bra i) ∧ s.pfx.usedByIndex = false ∧ s.branchTarget i = s.pc
      ∧ (s.ie = false ∨ s.irqQuiet = true) := by
  unfold State.endOfRun
  split
  · simp [*, and_assoc]
  · simp_all

/-- No IRQ is taken where none can come. -/
theorem State.irqTaken_of_quiet {s : State} (h : s.ie = false ∨ s.irqQuiet = true) : s.irqTaken = false := by
  rcases h with h | h
  · simp [State.irqTaken, State.irqEligible, h]
  · cases hl : s.irqLine <;> simp_all [State.irqQuiet, State.irqTaken, State.irqEligible, State.irqSample]

/-- A fetch reads nothing of the boundary's samples. -/
theorem State.fetchInstr_pastBoundary (s : State) : s.pastBoundary.fetchInstr = s.fetchInstr := rfl

/-- An instruction that is fetched lies at an even address (R54, R55). -/
theorem State.fetchInstr_even {s : State} {i : Instr} (h : s.fetchInstr = .ok i) : s.pc.getLsbD 0 = false := by
  cases hp : s.pc.getLsbD 0
  · rfl
  · simp only [State.fetchInstr, State.fetchUnit, hp, if_true] at h
    cases h

/-- At the end of a run the machine executes the `bra` and comes back to the same address (R340). -/
theorem State.step_endOfRun {s : State} (h : s.endOfRun = true) : step s = .next (s.pastBoundary.jumped s.pc) := by
  obtain ⟨i, hf, hu, ht, hq⟩ := State.endOfRun_eq_true.mp h
  have hb : s.pastBoundary.branchTarget i = s.pc := ht
  simp only [step, State.irqTaken_of_quiet hq, Bool.false_eq_true, if_false, State.fetchInstr_pastBoundary, hf, andThen_ok,
    exec, execBra, branchIf, withImmediate, State.pastBoundary_pfx, hu, if_true, hb, jumpTo, State.fetchInstr_even hf]

end Sys2Proof.Machine
end

