-- ==== Sys2Proof/Laws/PerInstr.lean ====
section
/-! SUPPORT. Facts about every instruction as syntax, one lemma per constructor. EncodedUnits: the length of an encoding, and
that its first unit tells it (30_encoding.md R80: "the unit is an lpre (length 32) exactly when bits 15:11 are 00010;
otherwise the length is 16"). -/

namespace Sys2Proof.Laws.EncodedUnits

/-- An encoding has one unit or two, and two exactly when the first unit is that of an `lpre`. -/
def Statement (i : Instr) : Prop :=
  ((encode i).length = 1 ∨ (encode i).length = 2) ∧ (isLpre (encodeUnit i) = true ↔ (encode i).length = 2)

theorem of_one_unit {i : Instr} {u : InstrUnit} (he : encode i = [u]) (hl : isLpre u = false) : Statement i := by
  simp [Statement, encodeUnit, he, hl]

theorem isLpre_unitAB (base : InstrUnit) (a b : BitVec 4) : isLpre (unitAB base a b) = isLpre base := by
  simp only [isLpre, extract_unitAB_high base a b (show 8 ≤ 11 by omega)]

/-- A unit of another group than 0 is no `lpre`. -/
theorem not_isLpre_of_group {u : InstrUnit} (h : fieldGroup u ≠ 0b000#3) : isLpre u = false := by
  simp only [isLpre, beq_eq_false_iff_ne, ne_eq]
  intro hl
  apply h
  apply BitVec.eq_of_getLsbD_eq
  intro j hj
  have := congrArg (fun x => x.getLsbD (2 + j)) hl
  interval_cases j <;> simpa [fieldGroup] using this

theorem unitAB_units {i : Instr} {base : InstrUnit} {a b : BitVec 4} (he : encode i = [unitAB base a b])
    (hb : isLpre base = false) : Statement i :=
  of_one_unit he ((isLpre_unitAB base a b).trans hb)

theorem pre_not_lpre (i : BitVec 12) : isLpre (i.setWidth 16) = false := by
  simp only [isLpre, beq_eq_false_iff_ne, ne_eq]
  intro h
  have := congrArg (fun x => x.getLsbD 1) h
  simp at this

theorem lpre_isLpre (i : BitVec 27) : isLpre (0x1000#16 ||| (i.extractLsb' 16 11).setWidth 16) = true := by
  simp only [isLpre, beq_iff_eq]
  apply BitVec.eq_of_getLsbD_eq
  intro j hj
  interval_cases j <;> simp

theorem pre (i : BitVec 12) : Statement (.pre i) := of_one_unit rfl (pre_not_lpre i)
theorem lpre (i : BitVec 27) : Statement (.lpre i) := by
  simp [Statement, encode, encodeUnit, lpre_isLpre]
theorem xchg (a : RegNum) (b : RegNum) : Statement (.xchg a b) := unitAB_units rfl (by decide)
theorem xchgL (a : RegNum) (b : RegNum) : Statement (.xchgL a b) := unitAB_units rfl (by decide)
theorem cmpxchg (a : RegNum) (b : RegNum) : Statement (.cmpxchg a b) := unitAB_units rfl (by decide)
theorem cmpxchgL (a : RegNum) (b : RegNum) : Statement (.cmpxchgL a b) := unitAB_units rfl (by decide)
theorem addImm (a : RegNum) (i : BitVec 5) : Statement (.addImm a i) := of_one_unit rfl (not_isLpre_of_group (by simp))
theorem addPc (a : RegNum) (i : BitVec 5) : Statement (.addPc a i) := of_one_unit rfl (not_isLpre_of_group (by simp))
theorem addSp (a : RegNum) (i : BitVec 5) : Statement (.addSp a i) := of_one_unit rfl (not_isLpre_of_group (by simp))
theorem addFp (a : RegNum) (i : BitVec 5) : Statement (.addFp a i) := of_one_unit rfl (not_isLpre_of_group (by simp))
theorem cmpImm (a : RegNum) (i : BitVec 5) : Statement (.cmpImm a i) := of_one_unit rfl (not_isLpre_of_group (by simp))
theorem cpyImm (a : RegNum) (i : BitVec 5) : Statement (.cpyImm a i) := of_one_unit rfl (not_isLpre_of_group (by simp))
theorem lslImm (a : RegNum) (i : BitVec 5) : Statement (.lslImm a i) := of_one_unit rfl (not_isLpre_of_group (by simp))
theorem lsrImm (a : RegNum) (i : BitVec 5) : Statement (.lsrImm a i) := of_one_unit rfl (not_isLpre_of_group (by simp))
theorem asrImm (a : RegNum) (i : BitVec 5) : Statement (.asrImm a i) := of_one_unit rfl (not_isLpre_of_group (by simp))
theorem andImm (a : RegNum) (i : BitVec 5) : Statement (.andImm a i) := of_one_unit rfl (not_isLpre_of_group (by simp))
theorem orrImm (a : RegNum) (i : BitVec 5) : Statement (.orrImm a i) := of_one_unit rfl (not_isLpre_of_group (by simp))
theorem xorImm (a : RegNum) (i : BitVec 5) : Statement (.xorImm a i) := of_one_unit rfl (not_isLpre_of_group (by simp))
theorem ze (a : RegNum) (i : BitVec 5) : Statement (.ze a i) := of_one_unit rfl (not_isLpre_of_group (by simp))
theorem se (a : RegNum) (i : BitVec 5) : Statement (.se a i) := of_one_unit rfl (not_isLpre_of_group (by simp))
theorem swiReg (a : RegNum) (i : BitVec 5) : Statement (.swiReg a i) := of_one_unit rfl (not_isLpre_of_group (by simp))
theorem swi (i : BitVec 5) : Statement (.swi i) := of_one_unit rfl (not_isLpre_of_group (by simp))
theorem add (a : RegNum) (b : RegNum) : Statement (.add a b) := unitAB_units rfl (by decide)
theorem addF (a : RegNum) (b : RegNum) : Statement (.addF a b) := unitAB_units rfl (by decide)
theorem sub (a : RegNum) (b : RegNum) : Statement (.sub a b) := unitAB_units rfl (by decide)
theorem subF (a : RegNum) (b : RegNum) : Statement (.subF a b) := unitAB_units rfl (by decide)
theorem addSpReg (a : RegNum) (b : RegNum) : Statement (.addSpReg a b) := unitAB_units rfl (by decide)
theorem addSpRegF (a : RegNum) (b : RegNum) : Statement (.addSpRegF a b) := unitAB_units rfl (by decide)
theorem addFpReg (a : RegNum) (b : RegNum) : Statement (.addFpReg a b) := unitAB_units rfl (by decide)
theorem addFpRegF (a : RegNum) (b : RegNum) : Statement (.addFpRegF a b) := unitAB_units rfl (by decide)
theorem cmp (a : RegNum) (b : RegNum) : Statement (.cmp a b) := unitAB_units rfl (by decide)
theorem cpy (a : RegNum) (b : RegNum) : Statement (.cpy a b) := unitAB_units rfl (by decide)
theorem cpyF (a : RegNum) (b : RegNum) : Statement (.cpyF a b) := unitAB_units rfl (by decide)
theorem lsl (a : RegNum) (b : RegNum) : Statement (.lsl a b) := unitAB_units rfl (by decide)
theorem lslF (a : RegNum) (b : RegNum) : Statement (.lslF a b) := unitAB_units rfl (by decide)
theorem lsr (a : RegNum) (b : RegNum) : Statement (.lsr a b) := unitAB_units rfl (by decide)
theorem lsrF (a : RegNum) (b : RegNum) : Statement (.lsrF a b) := unitAB_units rfl (by decide)
theorem asr (a : RegNum) (b : RegNum) : Statement (.asr a b) := unitAB_units rfl (by decide)
theorem asrF (a : RegNum) (b : RegNum) : Statement (.asrF a b) := unitAB_units rfl (by decide)
theorem and (a : RegNum) (b : RegNum) : Statement (.and a b) := unitAB_units rfl (by decide)
theorem andF (a : RegNum) (b : RegNum) : Statement (.andF a b) := unitAB_units rfl (by decide)
theorem orr (a : RegNum) (b : RegNum) : Statement (.orr a b) := unitAB_units rfl (by decide)
theorem orrF (a : RegNum) (b : RegNum) : Statement (.orrF a b) := unitAB_units rfl (by decide)
theorem xor (a : RegNum) (b : RegNum) : Statement (.xor a b) := unitAB_units rfl (by decide)
theorem xorF (a : RegNum) (b : RegNum) : Statement (.xorF a b) := unitAB_units rfl (by decide)
theorem adc (a : RegNum) (b : RegNum) : Statement (.adc a b) := unitAB_units rfl (by decide)
theorem adcF (a : RegNum) (b : RegNum) : Statement (.adcF a b) := unitAB_units rfl (by decide)
theorem sbc (a : RegNum) (b : RegNum) : Statement (.sbc a b) := unitAB_units rfl (by decide)
theorem sbcF (a : RegNum) (b : RegNum) : Statement (.sbcF a b) := unitAB_units rfl (by decide)
theorem cmpbc (a : RegNum) (b : RegNum) : Statement (.cmpbc a b) := unitAB_units rfl (by decide)
theorem bl (i : BitVec 9) : Statement (.bl i) := of_one_unit rfl (not_isLpre_of_group (by simp))
theorem bra (i : BitVec 9) : Statement (.bra i) := of_one_unit rfl (not_isLpre_of_group (by simp))
theorem beq (i : BitVec 9) : Statement (.beq i) := of_one_unit rfl (not_isLpre_of_group (by simp))
theorem bne (i : BitVec 9) : Statement (.bne i) := of_one_unit rfl (not_isLpre_of_group (by simp))
theorem bmi (i : BitVec 9) : Statement (.bmi i) := of_one_unit rfl (not_isLpre_of_group (by simp))
theorem bpl (i : BitVec 9) : Statement (.bpl i) := of_one_unit rfl (not_isLpre_of_group (by simp))
theorem bvs (i : BitVec 9) : Statement (.bvs i) := of_one_unit rfl (not_isLpre_of_group (by simp))
theorem bvc (i : BitVec 9) : Statement (.bvc i) := of_one_unit rfl (not_isLpre_of_group (by simp))
theorem bgeu (i : BitVec 9) : Statement (.bgeu i) := of_one_unit rfl (not_isLpre_of_group (by simp))
theorem bltu (i : BitVec 9) : Statement (.bltu i) := of_one_unit rfl (not_isLpre_of_group (by simp))
theorem bgtu (i : BitVec 9) : Statement (.bgtu i) := of_one_unit rfl (not_isLpre_of_group (by simp))
theorem bleu (i : BitVec 9) : Statement (.bleu i) := of_one_unit rfl (not_isLpre_of_group (by simp))
theorem bges (i : BitVec 9) : Statement (.bges i) := of_one_unit rfl (not_isLpre_of_group (by simp))
theorem blts (i : BitVec 9) : Statement (.blts i) := of_one_unit rfl (not_isLpre_of_group (by simp))
theorem bgts (i : BitVec 9) : Statement (.bgts i) := of_one_unit rfl (not_isLpre_of_group (by simp))
theorem bles (i : BitVec 9) : Statement (.bles i) := of_one_unit rfl (not_isLpre_of_group (by simp))
theorem jl (a : RegNum) : Statement (.jl a) := unitAB_units rfl (by decide)
theorem jmp (a : RegNum) : Statement (.jmp a) := unitAB_units rfl (by decide)
theorem jmpIra : Statement .jmpIra := unitAB_units rfl (by decide)
theorem reti : Statement .reti := unitAB_units rfl (by decide)
theorem ei : Statement .ei := unitAB_units rfl (by decide)
theorem di : Statement .di := unitAB_units rfl (by decide)
theorem push (a : RegNum) (b : RegNum) : Statement (.push a b) := unitAB_units rfl (by decide)
theorem pushSpr (a : Spr) (b : RegNum) : Statement (.pushSpr a b) := unitAB_units rfl (by decide)
theorem pop (a : RegNum) (b : RegNum) : Statement (.pop a b) := unitAB_units rfl (by decide)
theorem popSpr (a : Spr) (b : RegNum) : Statement (.popSpr a b) := unitAB_units rfl (by decide)
theorem popPc (b : RegNum) : Statement (.popPc b) := unitAB_units rfl (by decide)
theorem mul (a : RegNum) (b : RegNum) : Statement (.mul a b) := unitAB_units rfl (by decide)
theorem udiv (a : RegNum) (b : RegNum) : Statement (.udiv a b) := unitAB_units rfl (by decide)
theorem sdiv (a : RegNum) (b : RegNum) : Statement (.sdiv a b) := unitAB_units rfl (by decide)
theorem lumul (a : RegNum) (b : RegNum) : Statement (.lumul a b) := unitAB_units rfl (by decide)
theorem lsmul (a : RegNum) (b : RegNum) : Statement (.lsmul a b) := unitAB_units rfl (by decide)
theorem udiv64 (a : RegNum) (b : RegNum) : Statement (.udiv64 a b) := unitAB_units rfl (by decide)
theorem sdiv64 (a : RegNum) (b : RegNum) : Statement (.sdiv64 a b) := unitAB_units rfl (by decide)
theorem ldub (a : RegNum) (b : RegNum) : Statement (.ldub a b) := unitAB_units rfl (by decide)
theorem ldsb (a : RegNum) (b : RegNum) : Statement (.ldsb a b) := unitAB_units rfl (by decide)
theorem lduh (a : RegNum) (b : RegNum) : Statement (.lduh a b) := unitAB_units rfl (by decide)
theorem ldsh (a : RegNum) (b : RegNum) : Statement (.ldsh a b) := unitAB_units rfl (by decide)
theorem ldr (a : RegNum) (b : RegNum) : Statement (.ldr a b) := unitAB_units rfl (by decide)
theorem stb (a : RegNum) (b : RegNum) : Statement (.stb a b) := unitAB_units rfl (by decide)
theorem sth (a : RegNum) (b : RegNum) : Statement (.sth a b) := unitAB_units rfl (by decide)
theorem str (a : RegNum) (b : RegNum) : Statement (.str a b) := unitAB_units rfl (by decide)
theorem cpyFromSpr (a : RegNum) (b : Spr) : Statement (.cpyFromSpr a b) := unitAB_units rfl (by decide)
theorem cpyToSpr (a : Spr) (b : RegNum) : Statement (.cpyToSpr a b) := unitAB_units rfl (by decide)
theorem cpySprSpr (a : Spr) (b : Spr) : Statement (.cpySprSpr a b) := unitAB_units rfl (by decide)
theorem indexReg (a : RegNum) (b : RegNum) : Statement (.indexReg a b) := unitAB_units rfl (by decide)
theorem indexImm (a : RegNum) (i : BitVec 7) : Statement (.indexImm a i) :=
  of_one_unit rfl (not_isLpre_of_group (by simp))
theorem cmpb (a : RegNum) (b : RegNum) : Statement (.cmpb a b) := unitAB_units rfl (by decide)
theorem lsrb (a : RegNum) (b : RegNum) : Statement (.lsrb a b) := unitAB_units rfl (by decide)
theorem asrb (a : RegNum) (b : RegNum) : Statement (.asrb a b) := unitAB_units rfl (by decide)
theorem cmph (a : RegNum) (b : RegNum) : Statement (.cmph a b) := unitAB_units rfl (by decide)
theorem lsrh (a : RegNum) (b : RegNum) : Statement (.lsrh a b) := unitAB_units rfl (by decide)
theorem asrh (a : RegNum) (b : RegNum) : Statement (.asrh a b) := unitAB_units rfl (by decide)
theorem ldrSpr (a : Spr) (b : RegNum) : Statement (.ldrSpr a b) := unitAB_units rfl (by decide)
theorem ldrSprSpr (a : Spr) (b : Spr) : Statement (.ldrSprSpr a b) := unitAB_units rfl (by decide)
theorem strSpr (a : Spr) (b : RegNum) : Statement (.strSpr a b) := unitAB_units rfl (by decide)
theorem strSprSpr (a : Spr) (b : Spr) : Statement (.strSprSpr a b) := unitAB_units rfl (by decide)
theorem icreload (a : RegNum) (i : BitVec 5) : Statement (.icreload a i) :=
  of_one_unit rfl (not_isLpre_of_group (by simp))
theorem icflush : Statement .icflush := of_one_unit rfl (by decide)

end Sys2Proof.Laws.EncodedUnits
end

