-- ==== Sys2Proof/Tests/Slice0.lean ====
section
/-! SUPPORT. The model's own tests: what WellFormed refuses, every constructor's decoding from a word written out from the
encoding formats of 30_encoding.md, one step of the instructions on the worked values of 95_test_vectors.md (the vector's
name stands in the comment), and for every statement with hypotheses a state and operands that meet them. -/

namespace Sys2Proof.Tests

open Sys2Proof Sys2Proof.Machine

/-! ## Helpers -/

/-- The state after reset with these registers. -/
def regs (l : List (RegNum × Word)) : State := l.foldl (fun s p => s.setReg p.1 p.2) State.reset

/-- A word in memory. -/
def holding (a : Nat) (v : Word) (s : State) : State := { s with mem := Memory.writeLE s.mem a v 4 }

/-- Another `pc`. -/
def at_ (pc : Word) (s : State) : State := { s with pc := pc }

/-- The flags of the letters' order Z, C, V, N. -/
def zcvn (z c v n : Nat) : Flags := ⟨z == 1, c == 1, v == 1, n == 1⟩

/-- A `pre` in effect. -/
def withPre (d : BitVec 12) (s : State) : State := { s with pfx := { s.pfx with preHave := true, preData := d } }

/-- An `lpre` in effect. -/
def withLpre (d : BitVec 27) (s : State) : State := { s with pfx := { s.pfx with lpreHave := true, lpreData := d } }

/-- An `index rA, rB` in effect. -/
def withIndex (a b : RegNum) (s : State) : State :=
  { s with pfx := { s.pfx with
      rrHave := true, regSum := s.reg a + s.reg b, idxA := a, idxAval := s.reg a, idxB := b, regB := s.reg b, idxLast := .rr } }

/-- An `index rA, #simm` in effect. -/
def withIndexImm (a : RegNum) (v : Word) (s : State) : State :=
  { s with pfx := { s.pfx with
      riHave := true, regSum := s.reg a + v, idxA := a, idxAval := s.reg a, regB := v, idxLast := .ri } }

/-- What the next state shows, if there is one. -/
def after {α : Type} (o : Outcome) (f : State → α) : Option α :=
  match o with
  | .next t => some (f t)
  | _ => none

/-- The refusal, if the step is refused. -/
def refusal (o : Outcome) : Option Refusal :=
  match o with
  | .refused r => some r
  | _ => none

/-- The word at an address. -/
def word (a : Nat) (t : State) : Word := Memory.readLE t.mem a 4

/-- A unit's reading with no index in effect, unused fields ignored. -/
def reads (u : InstrUnit) : Except DecodeError Instr := decodeUnits .ignore false u 0#16

/-- An instruction's reading as the second of two units, an `index` in effect. -/
def readsIndexed (u : InstrUnit) : Except DecodeError Instr := decodeUnits .ignore true u 0#16

/-! ## Well-formedness (R54) -/

theorem test_wellFormed_refuses_odd_offsets :
    [Instr.bl 3#9, .bra 3#9, .beq 3#9, .bne 3#9, .bmi 3#9, .bpl 3#9, .bvs 3#9, .bvc 3#9, .bgeu 3#9, .bltu 3#9, .bgtu 3#9, .bleu 3#9, .bges 3#9, .blts 3#9, .bgts 3#9, .bles 3#9].all (fun i => !i.wellFormed) = true := by decide

theorem test_wellFormed_admits_even_offsets :
    [Instr.bl 0x1FE#9, .bra 0x1FE#9, .beq 0x1FE#9, .bne 0x1FE#9, .bmi 0x1FE#9, .bpl 0x1FE#9, .bvs 0x1FE#9, .bvc 0x1FE#9, .bgeu 0x1FE#9, .bltu 0x1FE#9, .bgtu 0x1FE#9, .bleu 0x1FE#9, .bges 0x1FE#9, .blts 0x1FE#9, .bgts 0x1FE#9, .bles 0x1FE#9].all (·.wellFormed) = true := by decide

/-! ## Decoding: the words bit by bit from the formats of R82 to R94 -/

/-- R82, R84: `000 0 i12`; `0001 1 x x l b a` with no index in effect. -/
theorem test_decode_pre_atomics :
    [0b0000000100100011#16,
      0b0001100000100001#16,
      0b0001100100100001#16].map reads =
      [.ok (.pre 0x123#12),
      .ok (.xchg 1#4 2#4),
      .ok (.xchgL 1#4 2#4)] := by decide

/-- R84, R102: the same format with an index in effect. -/
theorem test_decode_atomics_indexed :
    [0b0001100000100001#16,
      0b0001100111100111#16].map readsIndexed =
      [.ok (.cmpxchg 1#4 2#4),
      .ok (.cmpxchgL 7#4 14#4)] := by decide

/-- R83: `000 10 i26..i16`, then `i15..i0`. -/
theorem test_decode_lpre :
    decodeUnits .ignore false 0b0001000010010001#16 0b1010001010110011#16
      = .ok (.lpre 0b000100100011010001010110011#27) := by decide

/-- R85: `001 iiiii oooo aaaa`. -/
theorem test_decode_group1 :
    [0b0011101000000001#16,
      0b0011101000010010#16,
      0b0011101000100011#16,
      0b0011101000110100#16,
      0b0011101001000101#16,
      0b0011101001010110#16,
      0b0011101001100111#16,
      0b0011101001111000#16,
      0b0011101010001001#16,
      0b0011101010010001#16,
      0b0011101010100010#16,
      0b0011101010110011#16,
      0b0011101011000100#16,
      0b0011101011010101#16,
      0b0011101011100110#16,
      0b0010011011110000#16].map reads =
      [.ok (.addImm 1#4 0x1A#5),
      .ok (.addPc 2#4 0x1A#5),
      .ok (.addSp 3#4 0x1A#5),
      .ok (.addFp 4#4 0x1A#5),
      .ok (.cmpImm 5#4 0x1A#5),
      .ok (.cpyImm 6#4 0x1A#5),
      .ok (.lslImm 7#4 0x1A#5),
      .ok (.lsrImm 8#4 0x1A#5),
      .ok (.asrImm 9#4 0x1A#5),
      .ok (.andImm 1#4 0x1A#5),
      .ok (.orrImm 2#4 0x1A#5),
      .ok (.xorImm 3#4 0x1A#5),
      .ok (.ze 4#4 0x1A#5),
      .ok (.se 5#4 0x1A#5),
      .ok (.swiReg 6#4 0x1A#5),
      .ok (.swi 6#5)] := by decide

/-- R86: `010 f oooo bbbb aaaa` with `f` = 0. -/
theorem test_decode_group2 :
    [0b0100000001101001#16,
      0b0100000101101001#16,
      0b0100001001101001#16,
      0b0100001101101001#16,
      0b0100010001101001#16,
      0b0100010101101001#16,
      0b0100011001101001#16,
      0b0100011101101001#16,
      0b0100100001101001#16,
      0b0100100101101001#16,
      0b0100101001101001#16,
      0b0100101101101001#16,
      0b0100110001101001#16,
      0b0100110101101001#16,
      0b0100111001101001#16].map reads =
      [.ok (.add 9#4 6#4),
      .ok (.sub 9#4 6#4),
      .ok (.addSpReg 9#4 6#4),
      .ok (.addFpReg 9#4 6#4),
      .ok (.cmp 9#4 6#4),
      .ok (.cpy 9#4 6#4),
      .ok (.lsl 9#4 6#4),
      .ok (.lsr 9#4 6#4),
      .ok (.asr 9#4 6#4),
      .ok (.and 9#4 6#4),
      .ok (.orr 9#4 6#4),
      .ok (.xor 9#4 6#4),
      .ok (.adc 9#4 6#4),
      .ok (.sbc 9#4 6#4),
      .ok (.cmpbc 9#4 6#4)] := by decide

/-- R86, R105: the same with `f` = 1, which `cmp` and `cmpbc` ignore. -/
theorem test_decode_group2_f :
    [0b0101000001101001#16,
      0b0101000101101001#16,
      0b0101001001101001#16,
      0b0101001101101001#16,
      0b0101010001101001#16,
      0b0101010101101001#16,
      0b0101011001101001#16,
      0b0101011101101001#16,
      0b0101100001101001#16,
      0b0101100101101001#16,
      0b0101101001101001#16,
      0b0101101101101001#16,
      0b0101110001101001#16,
      0b0101110101101001#16,
      0b0101111001101001#16].map reads =
      [.ok (.addF 9#4 6#4),
      .ok (.subF 9#4 6#4),
      .ok (.addSpRegF 9#4 6#4),
      .ok (.addFpRegF 9#4 6#4),
      .ok (.cmp 9#4 6#4),
      .ok (.cpyF 9#4 6#4),
      .ok (.lslF 9#4 6#4),
      .ok (.lsrF 9#4 6#4),
      .ok (.asrF 9#4 6#4),
      .ok (.andF 9#4 6#4),
      .ok (.orrF 9#4 6#4),
      .ok (.xorF 9#4 6#4),
      .ok (.adcF 9#4 6#4),
      .ok (.sbcF 9#4 6#4),
      .ok (.cmpbc 9#4 6#4)] := by decide

/-- R87: `011 iiiiiiiii oooo`. -/
theorem test_decode_group3 :
    [0b0111011000100000#16,
      0b0111011000100001#16,
      0b0111011000100010#16,
      0b0111011000100011#16,
      0b0111011000100100#16,
      0b0111011000100101#16,
      0b0111011000100110#16,
      0b0111011000100111#16,
      0b0111011000101000#16,
      0b0111011000101001#16,
      0b0111011000101010#16,
      0b0111011000101011#16,
      0b0111011000101100#16,
      0b0111011000101101#16,
      0b0111011000101110#16,
      0b0111011000101111#16].map reads =
      [.ok (.bl 0b101100010#9),
      .ok (.bra 0b101100010#9),
      .ok (.beq 0b101100010#9),
      .ok (.bne 0b101100010#9),
      .ok (.bmi 0b101100010#9),
      .ok (.bpl 0b101100010#9),
      .ok (.bvs 0b101100010#9),
      .ok (.bvc 0b101100010#9),
      .ok (.bgeu 0b101100010#9),
      .ok (.bltu 0b101100010#9),
      .ok (.bgtu 0b101100010#9),
      .ok (.bleu 0b101100010#9),
      .ok (.bges 0b101100010#9),
      .ok (.blts 0b101100010#9),
      .ok (.bgts 0b101100010#9),
      .ok (.bles 0b101100010#9)] := by decide

/-- R88: `100 ooooo bbbb aaaa`, unused fields nonzero (R105). -/
theorem test_decode_group4_low :
    [0b1000000010100101#16,
      0b1000000110100101#16,
      0b1000001010100101#16,
      0b1000001110100101#16,
      0b1000010010100101#16,
      0b1000010110100101#16,
      0b1000011010100101#16,
      0b1000011110100101#16,
      0b1000100010100101#16,
      0b1000100110100101#16,
      0b1000101010100101#16,
      0b1000101110100101#16,
      0b1000110010100101#16,
      0b1000110110100101#16,
      0b1000111010100101#16,
      0b1000111110100101#16].map reads =
      [.ok (.jl 5#4),
      .ok (.jmp 5#4),
      .ok .jmpIra,
      .ok .reti,
      .ok .ei,
      .ok .di,
      .ok (.push 5#4 10#4),
      .ok (.pushSpr .sty 10#4),
      .ok (.pop 5#4 10#4),
      .ok (.popSpr .sty 10#4),
      .ok (.popPc 10#4),
      .ok (.mul 5#4 10#4),
      .ok (.udiv 5#4 10#4),
      .ok (.sdiv 5#4 10#4),
      .ok (.lumul 5#4 10#4),
      .ok (.lsmul 5#4 10#4)] := by decide

/-- R88: the memory accesses and the special-purpose register copies. -/
theorem test_decode_group4_high :
    [0b1001000010100101#16,
      0b1001000110100101#16,
      0b1001001010100101#16,
      0b1001001110100101#16,
      0b1001010010100101#16,
      0b1001010110100101#16,
      0b1001011010100101#16,
      0b1001100010100101#16,
      0b1001100110100101#16,
      0b1001101010100101#16,
      0b1001110000110101#16,
      0b1001110110100001#16,
      0b1001111001000010#16].map reads =
      [.ok (.udiv64 5#4 10#4),
      .ok (.sdiv64 5#4 10#4),
      .ok (.ldub 5#4 10#4),
      .ok (.ldsb 5#4 10#4),
      .ok (.lduh 5#4 10#4),
      .ok (.ldsh 5#4 10#4),
      .ok (.ldr 5#4 10#4),
      .ok (.stb 5#4 10#4),
      .ok (.sth 5#4 10#4),
      .ok (.str 5#4 10#4),
      .ok (.cpyFromSpr 5#4 .ie),
      .ok (.cpyToSpr .ids 10#4),
      .ok (.cpySprSpr .ira .ity)] := by decide

/-- R89, R90: `101 0 0000 b a` and `101 1 0 i7 a`. -/
theorem test_decode_group5 :
    [0b1010000000110010#16,
      0b1011011111000010#16].map reads =
      [.ok (.indexReg 2#4 3#4),
      .ok (.indexImm 2#4 0b1111100#7)] := by decide

/-- R91 to R94: `111 00`, `111 010`, `111 0110`, `111 01110`. -/
theorem test_decode_group7 :
    [0b1110000000100001#16,
      0b1110000100100001#16,
      0b1110001000100001#16,
      0b1110010000100001#16,
      0b1110010100100001#16,
      0b1110011000100001#16,
      0b1110100000110010#16,
      0b1110100100110010#16,
      0b1110101000110010#16,
      0b1110101100110010#16,
      0b1110110100000001#16,
      0b1110111000000000#16].map reads =
      [.ok (.cmpb 1#4 2#4),
      .ok (.lsrb 1#4 2#4),
      .ok (.asrb 1#4 2#4),
      .ok (.cmph 1#4 2#4),
      .ok (.lsrh 1#4 2#4),
      .ok (.asrh 1#4 2#4),
      .ok (.ldrSpr .ira 3#4),
      .ok (.ldrSprSpr .ira .ie),
      .ok (.strSpr .ira 3#4),
      .ok (.strSprSpr .ira .ie),
      .ok (.icreload 1#4 0b10000#5),
      .ok .icflush] := by decide

/-- R103, R242 (vector P8 of the spec): what the source does not define. -/
theorem test_decode_reserved :
    [0x1A00#16, 0x1C00#16, 0x4F00#16, 0x9700#16, 0x9B00#16, 0x9F00#16, 0xA100#16, 0xB800#16, 0xC000#16, 0xDFFF#16, 0xE300#16,
      0xE700#16, 0xEE01#16, 0xEF00#16, 0xF000#16].all (fun u => reads u == .error .reservedEncoding) = true := by decide

/-- R32 (P7): special-purpose register fields of 6..15. -/
theorem test_decode_reserved_spr :
    [0x8726#16, 0x892F#16, 0x9C61#16, 0x9D16#16, 0x9E60#16, 0x9E06#16, 0xE826#16, 0xE906#16, 0xEA2F#16, 0xEBF0#16].all
      (fun u => reads u == .error .reservedSpr) = true := by decide

/-- R105: nonzero unused fields are refused under the other policy. -/
theorem test_decode_unused_fields :
    decodeUnits .refuse false 0x8401#16 0#16 = .error .reservedEncoding
      ∧ decodeUnits .refuse false 0x5421#16 0#16 = .error .reservedEncoding
      ∧ decodeUnits .refuse false 0x8400#16 0#16 = .ok .ei := by decide

/-- The table's numbering: the first unit of an `lpre` in the low half. -/
theorem test_decodeTableWord :
    decodeTableWord 32 0xA2B31091 = some (.lpre 0x091A2B3#27) ∧ decodeTableWord 16 0x2564 = some (.lslImm 4#4 5#5)
      ∧ decodeTableWord 16 0xC000 = none := by decide

/-- R53, R120: the step fetches, decodes and runs the word placed at `pc` (I9). -/
theorem test_step_runs_withFetchWord :
    after (step (State.reset.withFetchWord 16 0x2551)) (fun t => (t.reg 1#4, t.pc)) = some (5#32, 0x102#32) := by decide

/-- R63, R55, R103: where the fetch stops. -/
theorem test_step_refuses :
    refusal (step { State.reset with stale := [4] }) = some .staleFetch
      ∧ refusal (step (at_ 0x101#32 State.reset)) = some .misalignedPc
      ∧ refusal (step (State.reset.withFetchWord 16 0xC000)) = some .reservedEncoding
      ∧ refusal (step (State.reset.withFetchWord 16 0x9C61)) = some .reservedSpr := by decide

/-! ## Prefixes -/

/-- X1, X5. -/
theorem test_pre :
    after (exec (.pre 0x123#12) State.reset) (fun t => (t.pfx.preHave, t.pfx.preData, t.pc)) = some (true, 0x123#12, 0x102#32)
      ∧ after (exec (.pre 2#12) (withPre 1#12 State.reset)) (fun t => (t.pfx.preHave, t.pc)) = some (false, 0x102#32) := by decide

/-- X2, X6, X7. -/
theorem test_lpre :
    after (exec (.lpre 0x91A2B3#27) State.reset) (fun t => (t.pfx.lpreHave, t.pfx.lpreData, t.pc)) = some (true, 0x91A2B3#27, 0x104#32)
      ∧ after (exec (.lpre 2#27) (withLpre 1#27 State.reset)) (fun t => (t.pfx.lpreHave, t.pc)) = some (false, 0x102#32) := by decide

/-- X1 to X4. -/
theorem test_immediate_values :
    after (exec (.cpyImm 1#4 4#5) (withPre 0x123#12 State.reset)) (fun t => t.reg 1#4) = some (0x2464#32)
      ∧ after (exec (.cpyImm 1#4 0x18#5) (withLpre 0x91A2B3#27 State.reset)) (fun t => t.reg 1#4) = some (0x12345678#32)
      ∧ after (exec (.cpyImm 1#4 0x1F#5) (withPre 0xFFF#12 State.reset)) (fun t => t.reg 1#4) = some (0xFFFFFFFF#32)
      ∧ after (exec (.cpyImm 1#4 0#5) (withPre 0x800#12 State.reset)) (fun t => t.reg 1#4) = some (0xFFFF0000#32) := by decide

/-- X8, X10. -/
theorem test_indexReg :
    after (exec (.indexReg 2#4 3#4) (regs [(2#4, 0x1000#32), (3#4, 0x4#32)])) (fun t => (t.pfx.regSum, t.pfx.idxA, t.pfx.idxB, t.pfx.idxLast)) = some (0x1004#32, 2#4, 3#4, .rr)
      ∧ after (exec (.indexReg 5#4 3#4) (withIndexImm 2#4 4#32 (regs [(2#4, 0x1000#32), (3#4, 0x20#32), (5#4, 0x999#32)]))) (fun t => (t.pfx.regSum, t.pfx.idxA, t.pfx.idxB)) = some (0x1024#32, 5#4, 3#4)
      ∧ after (exec (.indexReg 2#4 3#4) (withIndex 2#4 3#4 (regs [(2#4, 0x1000#32), (3#4, 0x4#32)]))) (fun t => (t.pfx.inEffect, t.pc)) = some (false, 0x102#32) := by decide

/-- X9, X11, X12. -/
theorem test_indexImm :
    after (exec (.indexImm 2#4 0x7C#7) (regs [(2#4, 0x1008#32)])) (fun t => (t.pfx.regSum, t.pfx.idxA, t.pfx.regB, t.pfx.idxLast)) = some (0x1004#32, 2#4, 0xFFFFFFFC#32, .ri)
      ∧ after (exec (.indexImm 5#4 4#7) (withIndex 2#4 3#4 (regs [(2#4, 0x1000#32), (3#4, 0x20#32), (5#4, 0x999#32)]))) (fun t => (t.pfx.regSum, t.pfx.idxA, t.pfx.usedByIndex)) = some (0x1024#32, 5#4, false)
      ∧ after (exec (.indexImm 2#4 0#7) (withPre 1#12 (regs [(2#4, 0xF80#32)]))) (fun t => (t.pfx.regSum, t.pfx.usedByIndex)) = some (0x1000#32, true) := by decide

/-- X16. -/
theorem test_prefix_used_twice :
    refusal (exec (.cpyImm 1#4 0#5) { State.reset with pfx := { State.reset.pfx with usedByIndex := true } }) = some .prefixUsedTwice := by decide

/-! ## Atomics -/

/-- A1. -/
theorem test_xchg :
    after (exec (.xchg 1#4 2#4) (regs [(1#4, 0x5#32), (2#4, 0x9#32)])) (fun t => (t.reg 1#4, t.reg 2#4)) = some (9#32, 5#32) := by decide

/-- A2, A3. -/
theorem test_xchgL :
    after (exec (.xchgL 1#4 2#4) (holding 0x1000 3#32 (regs [(1#4, 0x1000#32), (2#4, 0x7#32)]))) (fun t => (word 0x1000 t, t.reg 2#4, t.stale)) = some (7#32, 3#32, [0x40])
      ∧ after (exec (.xchgL 1#4 1#4) (holding 0x1000 0xCAFE#32 (regs [(1#4, 0x1000#32)]))) (fun t => (word 0x1000 t, t.reg 1#4)) = some (0x1000#32, 0xCAFE#32) := by decide

/-- A4, A5. -/
theorem test_cmpxchg :
    after (exec (.cmpxchg 1#4 2#4) (withIndex 3#4 0#4 ((holding 0x1000 3#32 (regs [(1#4, 0x1000#32), (2#4, 0x7#32), (3#4, 0x3#32)])).setFlags (zcvn 0 1 1 1)))) (fun t => (word 0x1000 t, t.flags, t.reg 2#4)) = some (7#32, zcvn 1 1 1 1, 7#32)
      ∧ after (exec (.cmpxchg 1#4 2#4) (withIndex 3#4 0#4 ((holding 0x1000 4#32 (regs [(1#4, 0x1000#32), (2#4, 0x7#32), (3#4, 0x3#32)])).setFlags (zcvn 1 1 1 1)))) (fun t => (word 0x1000 t, t.flags, t.stale)) = some (4#32, zcvn 0 1 1 1, []) := by decide

/-- A6. -/
theorem test_cmpxchgL :
    after (exec (.cmpxchgL 1#4 2#4) (withIndex 3#4 0#4 ((holding 0x1000 3#32 (regs [(1#4, 0x1000#32), (2#4, 0x7#32), (3#4, 0x3#32)])).setFlags (zcvn 0 1 1 1)))) (fun t => (word 0x1000 t, t.flags)) = some (7#32, zcvn 1 1 1 1)
      ∧ after (exec (.cmpxchgL 1#4 2#4) (withIndex 3#4 0#4 ((holding 0x1000 4#32 (regs [(1#4, 0x1000#32), (2#4, 0x7#32), (3#4, 0x3#32)])).setFlags (zcvn 1 0 0 0)))) (fun t => (word 0x1000 t, t.flags)) = some (4#32, zcvn 0 0 0 0) := by decide

/-! ## Group 1 -/

/-- I1 to I4. -/
theorem test_add_imm :
    after (exec (.addImm 1#4 0x1F#5) State.reset) (fun t => t.reg 1#4) = some (0xFFFFFFFF#32)
      ∧ after (exec (.addPc 1#4 4#5) State.reset) (fun t => t.reg 1#4) = some (0x106#32)
      ∧ after (exec (.addSp 2#4 8#5) (regs [(15#4, 0x8000#32)])) (fun t => t.reg 2#4) = some (0x8008#32)
      ∧ after (exec (.addFp 2#4 0x1C#5) (regs [(14#4, 0x8000#32)])) (fun t => t.reg 2#4) = some (0x7FFC#32) := by decide

/-- I5, I6. -/
theorem test_cmp_imm :
    after (exec (.cmpImm 1#4 5#5) (regs [(1#4, 0x5#32)])) (fun t => t.flags) = some (zcvn 1 1 0 0)
      ∧ after (exec (.cmpImm 1#4 5#5) (regs [(1#4, 0x3#32)])) (fun t => t.flags) = some (zcvn 0 0 0 1) := by decide

/-- I7, I8. -/
theorem test_cmp_imm_signed :
    after (exec (.cmpImm 1#4 5#5) (regs [(1#4, 0x80000000#32)])) (fun t => t.flags) = some (zcvn 0 1 1 0)
      ∧ after (exec (.cmpImm 1#4 5#5) (regs [(1#4, 0xFFFFFFFF#32)])) (fun t => t.flags) = some (zcvn 0 1 0 1) := by decide

/-- I10, I11, I12. -/
theorem test_shift_imm :
    after (exec (.lslImm 1#4 4#5) (regs [(1#4, 0xF00F#32)])) (fun t => t.reg 1#4) = some (0xF00F0#32)
      ∧ after (exec (.lsrImm 1#4 4#5) (regs [(1#4, 0x80000010#32)])) (fun t => t.reg 1#4) = some (0x8000001#32)
      ∧ after (exec (.asrImm 1#4 4#5) (regs [(1#4, 0x80000010#32)])) (fun t => t.reg 1#4) = some (0xF8000001#32) := by decide

/-- X21, X22: an amount of 32. -/
theorem test_shift_imm_32 :
    after (exec (.lslImm 1#4 0#5) (withPre 1#12 (regs [(1#4, 0x1#32)]))) (fun t => t.reg 1#4) = some (0#32)
      ∧ after (exec (.lsrImm 1#4 0#5) (withPre 1#12 (regs [(1#4, 0x80000000#32)]))) (fun t => t.reg 1#4) = some (0#32)
      ∧ after (exec (.asrImm 1#4 0#5) (withPre 1#12 (regs [(1#4, 0x80000000#32)]))) (fun t => t.reg 1#4) = some (0xFFFFFFFF#32) := by decide

/-- I13, I14, I15. -/
theorem test_bitwise_imm :
    after (exec (.andImm 1#4 0xF#5) (regs [(1#4, 0x12345678#32)])) (fun t => t.reg 1#4) = some (0x8#32)
      ∧ after (exec (.orrImm 1#4 1#5) (regs [(1#4, 0x10#32)])) (fun t => t.reg 1#4) = some (0x11#32)
      ∧ after (exec (.xorImm 1#4 0x1F#5) (regs [(1#4, 0xF0F0F0F#32)])) (fun t => t.reg 1#4) = some (0xF0F0F0F0#32) := by decide

/-- I16, I17, I18. -/
theorem test_ze :
    after (exec (.ze 1#4 8#5) (regs [(1#4, 0x12345678#32)])) (fun t => t.reg 1#4) = some (0x78#32)
      ∧ after (exec (.ze 1#4 0#5) (regs [(1#4, 0x12345678#32)])) (fun t => t.reg 1#4) = some (0x0#32)
      ∧ after (exec (.ze 1#4 0x1F#5) (regs [(1#4, 0xFFFFFFFF#32)])) (fun t => t.reg 1#4) = some (0x7FFFFFFF#32) := by decide

/-- I19, I20, I21. -/
theorem test_se :
    after (exec (.se 1#4 7#5) (regs [(1#4, 0x80#32)])) (fun t => t.reg 1#4) = some (0xFFFFFF80#32)
      ∧ after (exec (.se 1#4 7#5) (regs [(1#4, 0x17F#32)])) (fun t => t.reg 1#4) = some (0x7F#32)
      ∧ after (exec (.se 1#4 0#5) (regs [(1#4, 0x1#32)])) (fun t => t.reg 1#4) = some (0xFFFFFFFF#32) := by decide

/-- X24, X25. -/
theorem test_bit_index_refused :
    refusal (exec (.ze 1#4 0#5) (withPre 1#12 State.reset)) = some .bitIndexOutOfRange
      ∧ refusal (exec (.se 1#4 0x1F#5) (withPre 0xFFF#12 State.reset)) = some .bitIndexOutOfRange := by decide

/-- I22. -/
theorem test_swi_reg :
    after (exec (.swiReg 1#4 0#5) { regs [(1#4, 9#32)] with pc := 0x200#32, ids := 0x40#32, ie := true }) (fun t => (t.sty, t.ity, t.ira, t.ie, t.pc)) = some (9#32, true, 0x202#32, false, 0x40#32) := by decide

/-- I23, X27. -/
theorem test_swi :
    after (exec (.swi 3#5) { State.reset with pc := 0x200#32, ids := 0x40#32 }) (fun t => (t.sty, t.ity, t.ira, t.ie, t.pc)) = some (3#32, true, 0x202#32, false, 0x40#32)
      ∧ after (exec (.swi 0#5) (withPre 0x800#12 { State.reset with ids := 0x40#32 })) (fun t => t.sty) = some (0xFFFF0000#32) := by decide

/-! ## Group 2 -/

/-- G1, G2, G3. -/
theorem test_add :
    after (exec (.addF 1#4 2#4) (((regs [(1#4, 0x7FFFFFFF#32), (2#4, 0x1#32)])).setFlags (Flags.ofWord 0#32))) (fun t => (t.reg 1#4, t.flags)) = some (0x80000000#32, zcvn 0 0 1 1)
      ∧ after (exec (.addF 1#4 2#4) (((regs [(1#4, 0xFFFFFFFF#32), (2#4, 0x1#32)])).setFlags (Flags.ofWord 0#32))) (fun t => (t.reg 1#4, t.flags)) = some (0x0#32, zcvn 1 1 0 0)
      ∧ after (exec (.add 1#4 2#4) (((regs [(1#4, 0x7FFFFFFF#32), (2#4, 0x1#32)])).setFlags (Flags.ofWord 1#32))) (fun t => (t.reg 1#4, t.flags)) = some (0x80000000#32, zcvn 1 0 0 0) := by decide

/-- G4, G5, G6. -/
theorem test_sub :
    after (exec (.subF 1#4 2#4) (((regs [(1#4, 0x0#32), (2#4, 0x1#32)])).setFlags (Flags.ofWord 0#32))) (fun t => (t.reg 1#4, t.flags)) = some (0xFFFFFFFF#32, zcvn 0 0 0 1)
      ∧ after (exec (.subF 1#4 2#4) (((regs [(1#4, 0x80000000#32), (2#4, 0x1#32)])).setFlags (Flags.ofWord 0#32))) (fun t => (t.reg 1#4, t.flags)) = some (0x7FFFFFFF#32, zcvn 0 1 1 0)
      ∧ after (exec (.subF 1#4 1#4) (((regs [(1#4, 0x5#32)])).setFlags (Flags.ofWord 0#32))) (fun t => (t.reg 1#4, t.flags)) = some (0x0#32, zcvn 1 1 0 0)
      ∧ after (exec (.sub 1#4 2#4) (((regs [(1#4, 0x0#32), (2#4, 0x1#32)])).setFlags (Flags.ofWord 15#32))) (fun t => (t.reg 1#4, t.flags)) = some (0xFFFFFFFF#32, zcvn 1 1 1 1) := by decide

/-- G7, G8; the flags of R161. -/
theorem test_add_sp_fp :
    after (exec (.addSpReg 1#4 2#4) (regs [(15#4, 0x8000#32), (2#4, 0x10#32)])) (fun t => t.reg 1#4) = some (0x8010#32)
      ∧ after (exec (.addFpReg 1#4 2#4) (regs [(14#4, 0x8000#32), (2#4, 0xFFFFFFFC#32)])) (fun t => t.reg 1#4) = some (0x7FFC#32)
      ∧ after (exec (.addSpRegF 1#4 2#4) (regs [(15#4, 0x80000000#32), (2#4, 0x80000000#32)])) (fun t => (t.reg 1#4, t.flags)) = some (0#32, zcvn 1 1 1 0)
      ∧ after (exec (.addFpRegF 1#4 2#4) (regs [(14#4, 0x80000000#32), (2#4, 0x1#32)])) (fun t => (t.reg 1#4, t.flags)) = some (0x80000001#32, zcvn 0 0 0 1) := by decide

/-- G9, G10, G12. -/
theorem test_cmp :
    after (exec (.cmp 1#4 2#4) (((regs [(1#4, 0x80000000#32), (2#4, 0x1#32)])).setFlags (Flags.ofWord 0#32))) (fun t => (t.reg 1#4, t.flags)) = some (0x80000000#32, zcvn 0 1 1 0)
      ∧ after (exec (.cmp 1#4 2#4) (((regs [(1#4, 0x1#32), (2#4, 0x2#32)])).setFlags (Flags.ofWord 0#32))) (fun t => (t.reg 1#4, t.flags)) = some (0x1#32, zcvn 0 0 0 1)
      ∧ after (exec (.cmp 1#4 2#4) (((regs [(1#4, 0x3#32), (2#4, 0x2#32)])).setFlags (Flags.ofWord 0#32))) (fun t => (t.reg 1#4, t.flags)) = some (0x3#32, zcvn 0 1 0 0) := by decide

/-- G13, G14, G15. -/
theorem test_cpy :
    after (exec (.cpy 1#4 2#4) (((regs [(1#4, 0x0#32), (2#4, 0x7#32)])).setFlags (Flags.ofWord 0#32))) (fun t => (t.reg 1#4, t.flags)) = some (0x7#32, zcvn 0 0 0 0)
      ∧ after (exec (.cpyF 1#4 2#4) (((regs [(1#4, 0x0#32), (2#4, 0x80000000#32)])).setFlags (Flags.ofWord 0#32))) (fun t => (t.reg 1#4, t.flags)) = some (0x80000000#32, zcvn 0 0 0 1)
      ∧ after (exec (.cpyF 1#4 2#4) (((regs [(1#4, 0x5#32), (2#4, 0x0#32)])).setFlags (Flags.ofWord 15#32))) (fun t => (t.reg 1#4, t.flags)) = some (0x0#32, zcvn 1 1 1 0) := by decide

/-- G16, G17, G18. -/
theorem test_lsl :
    after (exec (.lsl 1#4 2#4) (((regs [(1#4, 0x1#32), (2#4, 0x1F#32)])).setFlags (Flags.ofWord 0#32))) (fun t => (t.reg 1#4, t.flags)) = some (0x80000000#32, zcvn 0 0 0 0)
      ∧ after (exec (.lslF 1#4 2#4) (((regs [(1#4, 0x1#32), (2#4, 0x1F#32)])).setFlags (Flags.ofWord 0#32))) (fun t => (t.reg 1#4, t.flags)) = some (0x80000000#32, zcvn 0 0 0 1)
      ∧ after (exec (.lsl 1#4 2#4) (((regs [(1#4, 0x1#32), (2#4, 0x20#32)])).setFlags (Flags.ofWord 0#32))) (fun t => (t.reg 1#4, t.flags)) = some (0x0#32, zcvn 0 0 0 0) := by decide

/-- G19, G20. -/
theorem test_lsr :
    after (exec (.lsr 1#4 2#4) (((regs [(1#4, 0x80000000#32), (2#4, 0x1F#32)])).setFlags (Flags.ofWord 0#32))) (fun t => (t.reg 1#4, t.flags)) = some (0x1#32, zcvn 0 0 0 0)
      ∧ after (exec (.lsrF 1#4 2#4) (((regs [(1#4, 0x80000000#32), (2#4, 0x20#32)])).setFlags (Flags.ofWord 14#32))) (fun t => (t.reg 1#4, t.flags)) = some (0x0#32, zcvn 1 1 1 0) := by decide

/-- G21, G22. -/
theorem test_asr :
    after (exec (.asr 1#4 2#4) (((regs [(1#4, 0x80000000#32), (2#4, 0x1F#32)])).setFlags (Flags.ofWord 0#32))) (fun t => (t.reg 1#4, t.flags)) = some (0xFFFFFFFF#32, zcvn 0 0 0 0)
      ∧ after (exec (.asrF 1#4 2#4) (((regs [(1#4, 0x80000000#32), (2#4, 0xFFFFFFFF#32)])).setFlags (Flags.ofWord 0#32))) (fun t => (t.reg 1#4, t.flags)) = some (0xFFFFFFFF#32, zcvn 0 0 0 1) := by decide

/-- G23 to G26. -/
theorem test_bitwise :
    after (exec (.andF 1#4 2#4) (((regs [(1#4, 0xF0#32), (2#4, 0xF#32)])).setFlags (Flags.ofWord 6#32))) (fun t => (t.reg 1#4, t.flags)) = some (0x0#32, zcvn 1 1 1 0)
      ∧ after (exec (.and 1#4 2#4) (((regs [(1#4, 0xFC#32), (2#4, 0x3F#32)])).setFlags (Flags.ofWord 0#32))) (fun t => (t.reg 1#4, t.flags)) = some (0x3C#32, zcvn 0 0 0 0)
      ∧ after (exec (.orr 1#4 2#4) (((regs [(1#4, 0xF0#32), (2#4, 0xF#32)])).setFlags (Flags.ofWord 0#32))) (fun t => (t.reg 1#4, t.flags)) = some (0xFF#32, zcvn 0 0 0 0)
      ∧ after (exec (.orrF 1#4 2#4) (((regs [(1#4, 0x80000000#32), (2#4, 0x1#32)])).setFlags (Flags.ofWord 6#32))) (fun t => (t.reg 1#4, t.flags)) = some (0x80000001#32, zcvn 0 1 1 1)
      ∧ after (exec (.xor 1#4 2#4) (((regs [(1#4, 0xFF#32), (2#4, 0xF#32)])).setFlags (Flags.ofWord 0#32))) (fun t => (t.reg 1#4, t.flags)) = some (0xF0#32, zcvn 0 0 0 0)
      ∧ after (exec (.xorF 1#4 1#4) (((regs [(1#4, 0xFF#32)])).setFlags (Flags.ofWord 0#32))) (fun t => (t.reg 1#4, t.flags)) = some (0x0#32, zcvn 1 0 0 0) := by decide

/-- G27, G28. -/
theorem test_adc :
    after (exec (.adcF 3#4 4#4) (((regs [(3#4, 0xFFFFFFFF#32), (4#4, 0x0#32)])).setFlags (Flags.ofWord 2#32))) (fun t => (t.reg 3#4, t.flags)) = some (0x0#32, zcvn 1 1 0 0)
      ∧ after (exec (.adc 1#4 2#4) (((regs [(1#4, 0x1#32), (2#4, 0x2#32)])).setFlags (Flags.ofWord 2#32))) (fun t => (t.reg 1#4, t.flags)) = some (0x4#32, zcvn 0 1 0 0) := by decide

/-- G30, G31, G32. -/
theorem test_sbc :
    after (exec (.sbc 1#4 2#4) (((regs [(1#4, 0x5#32), (2#4, 0x3#32)])).setFlags (Flags.ofWord 2#32))) (fun t => (t.reg 1#4, t.flags)) = some (0x2#32, zcvn 0 1 0 0)
      ∧ after (exec (.sbc 1#4 2#4) (((regs [(1#4, 0x5#32), (2#4, 0x3#32)])).setFlags (Flags.ofWord 0#32))) (fun t => (t.reg 1#4, t.flags)) = some (0x1#32, zcvn 0 0 0 0)
      ∧ after (exec (.sbcF 1#4 2#4) (((regs [(1#4, 0x0#32), (2#4, 0x0#32)])).setFlags (Flags.ofWord 0#32))) (fun t => (t.reg 1#4, t.flags)) = some (0xFFFFFFFF#32, zcvn 0 0 0 1) := by decide

/-- G33 to G36. -/
theorem test_cmpbc :
    after (exec (.cmpbc 3#4 4#4) (((regs [(3#4, 0x7#32), (4#4, 0x7#32)])).setFlags (Flags.ofWord 3#32))) (fun t => (t.reg 3#4, t.flags)) = some (0x7#32, zcvn 1 1 0 0)
      ∧ after (exec (.cmpbc 3#4 4#4) (((regs [(3#4, 0x7#32), (4#4, 0x7#32)])).setFlags (Flags.ofWord 2#32))) (fun t => (t.reg 3#4, t.flags)) = some (0x7#32, zcvn 0 1 0 0)
      ∧ after (exec (.cmpbc 3#4 4#4) (((regs [(3#4, 0x7#32), (4#4, 0x8#32)])).setFlags (Flags.ofWord 3#32))) (fun t => (t.reg 3#4, t.flags)) = some (0x7#32, zcvn 0 0 0 1)
      ∧ after (exec (.cmpbc 3#4 4#4) (((regs [(3#4, 0x7#32), (4#4, 0x7#32)])).setFlags (Flags.ofWord 1#32))) (fun t => (t.reg 3#4, t.flags)) = some (0x7#32, zcvn 0 0 0 1) := by decide

/-! ## Branches and jumps -/

/-- Which of the sixteen values of `flags` take a branch, R182 to R196 (the table of 95_test_vectors.md). -/
def takes (mk : BitVec 9 → Instr) : List Nat :=
  (List.range 16).filter fun f =>
    after (exec (mk 4#9) (State.reset.setFlags (Flags.ofWord (BitVec.ofNat 32 f)))) (·.pc) == some 0x106#32

/-- The flag values that take each branch. -/
theorem test_branches_one_flag :
    takes .beq = [1, 3, 5, 7, 9, 11, 13, 15]
      ∧ takes .bne = [0, 2, 4, 6, 8, 10, 12, 14]
      ∧ takes .bmi = [8, 9, 10, 11, 12, 13, 14, 15]
      ∧ takes .bpl = [0, 1, 2, 3, 4, 5, 6, 7]
      ∧ takes .bvs = [4, 5, 6, 7, 12, 13, 14, 15]
      ∧ takes .bvc = [0, 1, 2, 3, 8, 9, 10, 11]
      ∧ takes .bgeu = [2, 3, 6, 7, 10, 11, 14, 15]
      ∧ takes .bltu = [0, 1, 4, 5, 8, 9, 12, 13] := by decide

/-- The flag values that take each branch. -/
theorem test_branches_several_flags :
    takes .bgtu = [2, 6, 10, 14]
      ∧ takes .bleu = [0, 1, 3, 4, 5, 7, 8, 9, 11, 12, 13, 15]
      ∧ takes .bges = [0, 1, 2, 3, 12, 13, 14, 15]
      ∧ takes .blts = [4, 5, 6, 7, 8, 9, 10, 11]
      ∧ takes .bgts = [0, 2, 12, 14]
      ∧ takes .bles = [1, 3, 4, 5, 6, 7, 8, 9, 10, 11, 13, 15] := by decide

/-- B1, B2, B4, X17, X20. -/
theorem test_bra_bl :
    after (exec (.bl 0x10#9) State.reset) (fun t => (t.reg 13#4, t.pc)) = some (0x102#32, 0x112#32)
      ∧ after (exec (.bra 0x1FE#9) (at_ 0x120#32 State.reset)) (fun t => t.pc) = some (0x120#32)
      ∧ after (exec (.bra 0x100#9) State.reset) (fun t => t.pc) = some (2#32)
      ∧ after (exec (.bra 0#9) (withPre 1#12 (at_ 0x102#32 State.reset))) (fun t => t.pc) = some (0x304#32) := by decide

/-- B6. -/
theorem test_branch_odd_refused :
    refusal (exec (.bra 1#9) State.reset) = some .misalignedPc := by decide

/-- J1, J2, J3. -/
theorem test_jl_jmp :
    after (exec (.jl 3#4) (regs [(3#4, 0x400#32)])) (fun t => (t.reg 13#4, t.pc)) = some (0x102#32, 0x400#32)
      ∧ after (exec (.jl 13#4) (regs [(13#4, 0x300#32)])) (fun t => (t.reg 13#4, t.pc)) = some (0x102#32, 0x300#32)
      ∧ after (exec (.jmp 13#4) (regs [(13#4, 0x102#32)])) (fun t => t.pc) = some (0x102#32) := by decide

/-- J4, J5. -/
theorem test_ira_returns :
    after (exec (.jmpIra) { State.reset with ira := 0x202#32 }) (fun t => (t.pc, t.ie)) = some (0x202#32, false)
      ∧ after (exec (.reti) { State.reset with ira := 0x202#32 }) (fun t => (t.pc, t.ie)) = some (0x202#32, true) := by decide

/-- J6. -/
theorem test_ei_di :
    after (exec (.ei) State.reset) (fun t => (t.ie, t.pc)) = some (true, 0x102#32)
      ∧ after (exec (.di) { State.reset with ie := true }) (fun t => (t.ie, t.pc)) = some (false, 0x102#32) := by decide

/-! ## Stack -/

/-- K1, K6. -/
theorem test_push :
    after (exec (.push 1#4 15#4) (regs [(1#4, 0xAABBCCDD#32), (15#4, 0x8000#32)])) (fun t => (word 0x8000 t, t.byte 0x8000, t.reg 15#4)) = some (0xAABBCCDD#32, 0xDD#8, 0x7FFC#32)
      ∧ after (exec (.push 15#4 15#4) (regs [(15#4, 0x8000#32)])) (fun t => (t.reg 15#4, t.mem, t.stale)) = some (0x8000#32, [], []) := by decide

/-- K3. -/
theorem test_push_spr :
    after (exec (.pushSpr .flags 15#4) (((regs [(15#4, 0x7FFC#32)])).setFlags (zcvn 0 1 0 1))) (fun t => (word 0x7FFC t, t.reg 15#4)) = some (0xA#32, 0x7FF8#32) := by decide

/-- K2, K7. -/
theorem test_pop :
    after (exec (.pop 2#4 15#4) (holding 0x8000 0xAABBCCDD#32 (regs [(15#4, 0x7FFC#32)]))) (fun t => (t.reg 2#4, t.reg 15#4)) = some (0xAABBCCDD#32, 0x8000#32)
      ∧ after (exec (.pop 15#4 15#4) (regs [(15#4, 0x8000#32)])) (fun t => (t.reg 15#4, t.pc)) = some (0x8000#32, 0x102#32) := by decide

/-- K4. -/
theorem test_pop_spr :
    after (exec (.popSpr .flags 15#4) (holding 0x7FFC 0xA#32 (regs [(15#4, 0x7FF8#32)]))) (fun t => (t.flags, t.reg 15#4)) = some (zcvn 0 1 0 1, 0x7FFC#32) := by decide

/-- K5. -/
theorem test_pop_pc :
    after (exec (.popPc 15#4) (holding 0x8000 0x102#32 (regs [(15#4, 0x7FFC#32)]))) (fun t => (t.pc, t.reg 15#4)) = some (0x102#32, 0x8000#32) := by decide

/-! ## Multiply and divide -/

/-- M1, M2. -/
theorem test_mul :
    after (exec (.mul 1#4 2#4) (regs [(1#4, 0x10000#32), (2#4, 0x10000#32)])) (fun t => t.reg 1#4) = some (0x0#32)
      ∧ after (exec (.mul 1#4 2#4) (regs [(1#4, 0xFFFFFFFF#32), (2#4, 0x3#32)])) (fun t => t.reg 1#4) = some (0xFFFFFFFD#32) := by decide

/-- M3, M5. -/
theorem test_udiv :
    after (exec (.udiv 1#4 2#4) (regs [(1#4, 0x7#32), (2#4, 0x2#32)])) (fun t => t.reg 1#4) = some (0x3#32)
      ∧ after (exec (.udiv 1#4 2#4) (withIndex 3#4 0#4 (regs [(1#4, 0x7#32), (2#4, 0x2#32)]))) (fun t => (t.reg 1#4, t.reg 3#4)) = some (3#32, 1#32) := by decide

/-- M6, M7. -/
theorem test_sdiv :
    after (exec (.sdiv 1#4 2#4) (withIndex 3#4 0#4 (regs [(1#4, 0xFFFFFFF9#32), (2#4, 0x2#32)]))) (fun t => (t.reg 1#4, t.reg 3#4)) = some (0xFFFFFFFD#32, 0xFFFFFFFF#32)
      ∧ after (exec (.sdiv 1#4 2#4) (withIndex 3#4 0#4 (regs [(1#4, 0x7#32), (2#4, 0xFFFFFFFE#32)]))) (fun t => (t.reg 1#4, t.reg 3#4)) = some (0xFFFFFFFD#32, 1#32) := by decide

/-- M8, M9: whatever the free value, the run goes on. -/
theorem test_divide_completes :
    after (exec (.udiv 1#4 2#4) (regs [(1#4, 0x7#32)])) (fun t => t.pc) = some (0x102#32)
      ∧ after (exec (.sdiv 1#4 2#4) (regs [(1#4, 0x80000000#32), (2#4, 0xFFFFFFFF#32)])) (fun t => t.pc) = some (0x102#32) := by decide

/-- M11, M14. -/
theorem test_lumul :
    after (exec (.lumul 3#4 2#4) (regs [(3#4, 0xFFFFFFFF#32), (2#4, 0xFFFFFFFF#32)])) (fun t => (t.reg 0#4, t.reg 1#4)) = some (0xFFFFFFFE#32, 1#32)
      ∧ after (exec (.lumul 3#4 2#4) (withIndex 6#4 7#4 (regs [(3#4, 0x12345678#32), (2#4, 0x9ABCDEF0#32)]))) (fun t => (t.reg 6#4, t.reg 7#4, t.reg 0#4)) = some (0x0B00EA4E#32, 0x242D2080#32, 0#32) := by decide

/-- M12, M13. -/
theorem test_lsmul :
    after (exec (.lsmul 3#4 2#4) (regs [(3#4, 0xFFFFFFFF#32), (2#4, 0xFFFFFFFF#32)])) (fun t => (t.reg 0#4, t.reg 1#4)) = some (0#32, 1#32)
      ∧ after (exec (.lsmul 3#4 2#4) (regs [(3#4, 0xFFFFFFFF#32), (2#4, 0x2#32)])) (fun t => (t.reg 0#4, t.reg 1#4)) = some (0xFFFFFFFF#32, 0xFFFFFFFE#32) := by decide

/-- M17, M18. -/
theorem test_udiv64 :
    after (exec (.udiv64 3#4 5#4) (regs [(2#4, 0x1#32), (5#4, 0x3#32)])) (fun t => (t.reg 2#4, t.reg 3#4)) = some (0#32, 0x55555555#32)
      ∧ after (exec (.udiv64 2#4 4#4) (withIndex 6#4 7#4 (regs [(2#4, 0x1#32), (5#4, 0x3#32)]))) (fun t => (t.reg 2#4, t.reg 3#4, t.reg 6#4, t.reg 7#4)) = some (0#32, 0x55555555#32, 0#32, 1#32) := by decide

/-- M19. -/
theorem test_sdiv64 :
    after (exec (.sdiv64 2#4 4#4) (withIndex 6#4 7#4 (regs [(2#4, 0xFFFFFFFF#32), (3#4, 0xFFFFFFF9#32), (5#4, 0x2#32)]))) (fun t => (t.reg 2#4, t.reg 3#4, t.reg 6#4, t.reg 7#4)) = some (0xFFFFFFFF#32, 0xFFFFFFFD#32, 0xFFFFFFFF#32, 0xFFFFFFFF#32) := by decide

/-- M10, M15. -/
theorem test_mul_div_refused :
    refusal (exec (.udiv 1#4 2#4) (withIndex 1#4 0#4 (regs [(1#4, 0x7#32), (2#4, 0x2#32)]))) = some .destinationOverlap
      ∧ refusal (exec (.lumul 1#4 2#4) (withIndexImm 4#4 0#32 State.reset)) = some .noIndexRegB := by decide

/-! ## Loads and stores -/

/-- L1 to L4. -/
theorem test_narrow_loads :
    after (exec (.ldub 1#4 2#4) (holding 0x1000 0x12349280#32 (regs [(2#4, 0x1000#32)]))) (fun t => t.reg 1#4) = some (0x80#32)
      ∧ after (exec (.ldsb 1#4 2#4) (holding 0x1000 0x12349280#32 (regs [(2#4, 0x1000#32)]))) (fun t => t.reg 1#4) = some (0xFFFFFF80#32)
      ∧ after (exec (.lduh 1#4 2#4) (holding 0x1000 0x12349280#32 (regs [(2#4, 0x1000#32)]))) (fun t => t.reg 1#4) = some (0x9280#32)
      ∧ after (exec (.ldsh 1#4 2#4) (holding 0x1000 0x12349280#32 (regs [(2#4, 0x1000#32)]))) (fun t => t.reg 1#4) = some (0xFFFF9280#32) := by decide

/-- L5, L8. -/
theorem test_ldr :
    after (exec (.ldr 1#4 2#4) (holding 0x1000 0x12349280#32 (regs [(2#4, 0x1000#32)]))) (fun t => t.reg 1#4) = some (0x12349280#32)
      ∧ after (exec (.ldr 1#4 2#4) (holding 0x1004 0x12345678#32 (withIndex 2#4 3#4 (regs [(2#4, 0x1000#32), (3#4, 0x4#32)])))) (fun t => t.reg 1#4) = some (0x12345678#32) := by decide

/-- L14. -/
theorem test_misaligned_refused :
    refusal (exec (.ldr 1#4 2#4) (regs [(2#4, 0x1002#32)])) = some .misalignedData := by decide

/-- L10, L11, L12. -/
theorem test_stores :
    after (exec (.stb 1#4 2#4) (regs [(1#4, 0x12345678#32), (2#4, 0x2000#32)])) (fun t => (word 0x2000 t, t.stale)) = some (0x78#32, [0x80])
      ∧ after (exec (.sth 1#4 2#4) (regs [(1#4, 0x12345678#32), (2#4, 0x2000#32)])) (fun t => (word 0x2000 t, t.stale)) = some (0x5678#32, [0x80])
      ∧ after (exec (.str 1#4 2#4) (regs [(1#4, 0x12345678#32), (2#4, 0x2000#32)])) (fun t => (word 0x2000 t, t.stale)) = some (0x12345678#32, [0x80]) := by decide

/-- L13. -/
theorem test_str_indexed :
    after (exec (.str 1#4 2#4) (withIndex 2#4 3#4 (regs [(1#4, 0x12345678#32), (2#4, 0x2000#32), (3#4, 0x8#32)]))) (fun t => (word 0x2008 t, word 0x2000 t)) = some (0x12345678#32, 0#32) := by decide

/-! ## Special-purpose registers -/

/-- P1, P2, P5. -/
theorem test_spr_copies :
    after (exec (.cpyFromSpr 1#4 .flags) (State.reset.setFlags (zcvn 0 1 1 0))) (fun t => t.reg 1#4) = some (6#32)
      ∧ after (exec (.cpyToSpr .ids 1#4) (regs [(1#4, 0x200#32)])) (fun t => t.ids) = some (0x200#32)
      ∧ after (exec (.cpySprSpr .ira .flags) (State.reset.setFlags (zcvn 1 0 1 0))) (fun t => t.ira) = some (5#32) := by decide

/-- P3, P4. -/
theorem test_spr_held_bits :
    after (exec (.cpyToSpr .flags 1#4) (regs [(1#4, 0xFFFFFFFF#32)])) (fun t => (t.flags, t.spr .flags)) = some (zcvn 1 1 1 1, 0xF#32)
      ∧ after (exec (.cpyToSpr .ie 1#4) (regs [(1#4, 0xFFFFFFFE#32)])) (fun t => t.ie) = some (false) := by decide

/-- H12, H13. -/
theorem test_spr_loads :
    after (exec (.ldrSpr .ids 2#4) (holding 0x3000 0x200#32 (regs [(2#4, 0x3000#32)]))) (fun t => t.ids) = some (0x200#32)
      ∧ after (exec (.ldrSprSpr .flags .ira) (holding 0x3000 5#32 { State.reset with ira := 0x3000#32 })) (fun t => t.flags) = some (zcvn 1 0 1 0) := by decide

/-- H14, H15. -/
theorem test_spr_stores :
    after (exec (.strSpr .ira 3#4) { regs [(3#4, 0x3000#32)] with ira := 0x202#32 }) (fun t => word 0x3000 t) = some (0x202#32)
      ∧ after (exec (.strSprSpr .flags .ids) { State.reset with ids := 0x200#32, flags := zcvn 0 1 0 1 }) (fun t => word 0x200 t) = some (0xA#32) := by decide

/-! ## Group 7 -/

/-- H1 to H4. -/
theorem test_cmpb_cmph :
    after (exec (.cmpb 1#4 2#4) (regs [(1#4, 0x12345680#32), (2#4, 0x1#32)])) (fun t => t.flags) = some (zcvn 0 1 1 0)
      ∧ after (exec (.cmpb 1#4 2#4) (regs [(1#4, 0x0#32), (2#4, 0x1#32)])) (fun t => t.flags) = some (zcvn 0 0 0 1)
      ∧ after (exec (.cmph 1#4 2#4) (regs [(1#4, 0xAAAA0005#32), (2#4, 0xBBBB0005#32)])) (fun t => t.flags) = some (zcvn 1 1 0 0)
      ∧ after (exec (.cmph 1#4 2#4) (regs [(1#4, 0x7FFF#32), (2#4, 0xFFFF#32)])) (fun t => t.flags) = some (zcvn 0 0 1 1) := by decide

/-- The state with SUBWORD_SHIFT_WRITE = merge. -/
def merging (s : State) : State := { s with plat := { s.plat with subwordWrite := .merge } }

/-- H5, H6. -/
theorem test_subword_shifts_logical :
    after (exec (.lsrb 1#4 2#4) (regs [(1#4, 0x123456F0#32), (2#4, 0x4#32)])) (fun t => t.reg 1#4) = some (0xF#32)
      ∧ after (exec (.lsrb 1#4 2#4) (merging (regs [(1#4, 0x123456F0#32), (2#4, 0x4#32)]))) (fun t => t.reg 1#4) = some (0x1234560F#32)
      ∧ after (exec (.lsrh 1#4 2#4) (regs [(1#4, 0x1234F000#32), (2#4, 0x4#32)])) (fun t => t.reg 1#4) = some (0xF00#32)
      ∧ after (exec (.lsrh 1#4 2#4) (merging (regs [(1#4, 0x1234F000#32), (2#4, 0x4#32)]))) (fun t => t.reg 1#4) = some (0x12340F00#32) := by decide

/-- H7, H8, H10. -/
theorem test_subword_shifts_arithmetic :
    after (exec (.asrb 1#4 2#4) (regs [(1#4, 0x123456F0#32), (2#4, 0x4#32)])) (fun t => t.reg 1#4) = some (0xFFFFFFFF#32)
      ∧ after (exec (.asrb 1#4 2#4) (merging (regs [(1#4, 0x123456F0#32), (2#4, 0x4#32)]))) (fun t => t.reg 1#4) = some (0x123456FF#32)
      ∧ after (exec (.asrh 1#4 2#4) (regs [(1#4, 0x1234F000#32), (2#4, 0x4#32)])) (fun t => t.reg 1#4) = some (0xFFFFFF00#32)
      ∧ after (exec (.asrh 1#4 2#4) (merging (regs [(1#4, 0x1234F000#32), (2#4, 0x4#32)]))) (fun t => t.reg 1#4) = some (0x1234FF00#32)
      ∧ after (exec (.asrb 1#4 2#4) (regs [(1#4, 0x123456F0#32), (2#4, 0x8#32)])) (fun t => t.reg 1#4) = some (0xFFFFFFFF#32)
      ∧ after (exec (.asrb 1#4 2#4) (merging (regs [(1#4, 0x123456F0#32), (2#4, 0x8#32)]))) (fun t => t.reg 1#4) = some (0x123456FF#32) := by decide

/-- H16, H18. -/
theorem test_icreload :
    after (exec (.icreload 1#4 0#5) { regs [(1#4, 0x1234#32)] with stale := [0x47, 0x48, 0x49] }) (fun t => t.stale) = some ([0x47, 0x49])
      ∧ after (exec (.icreload 1#4 4#5) (withIndex 1#4 2#4 { regs [(1#4, 0x1200#32), (2#4, 0x100#32)] with stale := [0x47, 0x4C, 0x4D] })) (fun t => t.stale) = some ([0x47, 0x4D]) := by decide

/-- H19. -/
theorem test_icflush :
    after (exec (.icflush) { State.reset with stale := [0x47, 0x4C] }) (fun t => (t.stale, t.pc)) = some ([], 0x102#32) := by decide

/-! ## Interrupts -/

/-- E1, E3. -/
theorem test_irq_entry :
    after (step { State.reset with ie := true, ids := 0x40#32, sty := 9#32, ity := true, irqLine := [⟨true, true⟩] })
      (fun t => (t.ity, t.sty, t.ira, t.ie, t.pc)) = some (false, 9#32, 0x100#32, false, 0x40#32)
      ∧ after (step { State.reset with ids := 0x40#32, irqLine := [⟨true, true⟩] }) (fun t => (t.pc, t.ie)) = some (0x102#32, false) := by decide

/-! ## The end of a run -/

/-- R340: the unit 0x7FE1 is the end of a run with `ie` = 0; with `ie` = 1 it is none while an IRQ can come. -/
theorem test_endOfRun :
    (State.reset.withFetchWord 16 0x7FE1).endOfRun = true
      ∧ ({ State.reset with ie := true }.withFetchWord 16 0x7FE1).endOfRun = true
      ∧ ({ State.reset with ie := true, irqLine := [⟨true, true⟩] }.withFetchWord 16 0x7FE1).endOfRun = false := by decide

/-- R340, R99: after `lpre` (all ones) and `index rA, #simm` the same unit is refused, and is no end of a run. -/
theorem test_endOfRun_refused_branch :
    (let s := { State.reset with pfx := { PrefixState.reset with
        lpreHave := true, lpreData := 0x7FFFFFF#27, riHave := true, idxLast := .ri, usedByIndex := true } }.withFetchWord 16 0x7FE1;
      s.endOfRun = false ∧ step s = .refused .prefixUsedTwice) := ⟨by decide, rfl⟩

/-! ## A state and operands for the hypotheses of every statement that has some, clause by clause -/

/-- Another MEMORY_MAP. -/
def mapped (m : List Region) (s : State) : State := { s with plat := { s.plat with memMap := m } }

/-- MISALIGNED_DATA = perform. -/
def performing (s : State) : State := { s with plat := { s.plat with misaligned := .perform } }

/-- The base of the witnesses: `r1` to `r4` at addresses at the ends of memory, `r5` a word. -/
def ends : State := regs [(1#4, 0xFFFFFFFC#32), (2#4, 0xFFFFFFFE#32), (3#4, 0xFFFFFFFF#32), (4#4, 0#32), (5#4, 0x89ABCDEF#32)]

/-- An IRQ that will be served at this boundary. -/
def irqNow (ids : Word) : State := { State.reset with ie := true, ids := ids, irqLine := [⟨true, true⟩] }

/-- The state with the prefix used by an index immediate. -/
def usedPrefix : State :=
  { State.reset with pfx := { PrefixState.reset with preHave := true, riHave := true, idxLast := .ri, usedByIndex := true } }

theorem witness_DecodeOfEncode :
    (Instr.xchg 15#4 15#4).readWhen false = true ∧ (Instr.cmpxchgL 0#4 15#4).readWhen true = true
      ∧ (Instr.lpre 0x7FFFFFF#27).readWhen true = true := by decide

theorem witness_EncodeOfDecode :
    decodeUnits .refuse true 0x19FF#16 0#16 = .ok (.cmpxchgL 15#4 15#4)
      ∧ decodeUnits .refuse false 0x17FF#16 0xFFFF#16 = .ok (.lpre 0x7FFFFFF#27) ∧ isLpre 0x17FF#16 = true := by decide

/-- The ends of every range of R103, and the units beside them. -/
theorem witness_ReservedEncodings :
    [0x1A00#16, 0x1FFF#16, 0x4F00#16, 0x5FFF#16, 0x97FF#16, 0x9B00#16, 0x9FFF#16, 0xA100#16, 0xAFFF#16, 0xB800#16, 0xDFFF#16,
        0xE300#16, 0xE7FF#16, 0xEE01#16, 0xEEFF#16, 0xEF00#16, 0xFFFF#16].all
          (fun u => reads u == .error .reservedEncoding) = true
      ∧ [0x19FF#16, 0x2000#16, 0x4EFF#16, 0x5000#16, 0x5EFF#16, 0x96FF#16, 0x9800#16, 0x9AFF#16, 0x9C00#16, 0xA000#16, 0xA0FF#16,
        0xB000#16, 0xB7FF#16, 0xE000#16, 0xE2FF#16, 0xE400#16, 0xE6FF#16, 0xE800#16, 0xEDFF#16, 0xEE00#16].all
          (fun u => reads u != .error .reservedEncoding) = true := by decide

/-- Fields of 5 and 6, in every place that holds one. -/
theorem witness_ReservedSprFields :
    [0x8706#16, 0x890F#16, 0x9D06#16, 0xE806#16, 0xEA06#16, 0x9C60#16, 0x9CF0#16, 0x9E06#16, 0x9E60#16, 0xE906#16, 0xE960#16,
        0xEB06#16, 0xEB60#16].all (fun u => reads u == .error .reservedSpr) = true
      ∧ [0x87F5#16, 0x89F5#16, 0x9DF5#16, 0xE8F5#16, 0xEAF5#16, 0x9C5F#16, 0x9E55#16, 0xE955#16, 0xEB55#16].all
          (fun u => reads u != .error .reservedSpr) = true := by decide

/-- One unit at the ordinary `pc`; an `lpre` whose second unit is at address 0. -/
theorem witness_StepRunsDecoded :
    (State.reset.withFetchWord 16 0x2551).irqTaken = false
      ∧ (State.reset.withFetchWord 16 0x2551).canFetch 0x100#32
      ∧ isLpre 0x2551#16 = false
      ∧ decodeUnits .ignore false 0x2551#16 0#16 = .ok (.cpyImm 1#4 5#5)
      ∧ ((at_ 0xFFFFFFFE#32 State.reset).withFetchWord 32 0xA2B31091).irqTaken = false
      ∧ ((at_ 0xFFFFFFFE#32 State.reset).withFetchWord 32 0xA2B31091).canFetch 0xFFFFFFFE#32
      ∧ ((at_ 0xFFFFFFFE#32 State.reset).withFetchWord 32 0xA2B31091).canFetch (0xFFFFFFFE#32 + 2#32)
      ∧ decodeUnits .ignore false 0x1091#16 0xA2B3#16 = .ok (.lpre 0x91A2B3#27) :=
  ⟨by decide, ⟨by decide, by decide, by decide, by decide⟩, by decide, by decide, by decide,
    ⟨by decide, by decide, by decide, by decide⟩, ⟨by decide, by decide, by decide, by decide⟩, by decide⟩

/-- The steps at these states, one for each way a first unit is refused, and what refuses it. -/
theorem witness_StepRefusesFetch :
    step (at_ 0x101#32 State.reset) = .refused .misalignedPc
      ∧ step (mapped [] State.reset) = .fault .unbackedAddress
      ∧ step (mapped [⟨0x100, 1, .device⟩] State.reset) = .refused .deviceAccess
      ∧ step (mapped [⟨0x100, 1, .memory⟩] State.reset) = .fault .unbackedAddress
      ∧ step (mapped [⟨0x100, 1, .memory⟩, ⟨0x101, 1, .device⟩] State.reset) = .refused .deviceAccess
      ∧ step { State.reset with stale := [4] } = .refused .staleFetch
      ∧ step (State.reset.withFetchWord 16 0xEE01) = .refused .reservedEncoding
      ∧ step (State.reset.withFetchWord 16 0x9C61) = .refused .reservedSpr :=
  ⟨rfl, rfl, rfl, rfl, rfl, rfl, rfl, rfl⟩

/-- The same for the second unit of an `lpre` at 0x13E, in the next line. -/
theorem witness_StepRefusesFetch_second :
    (let s := (at_ 0x13E#32 State.reset).withFetchWord 32 0x1000;
      step (mapped [⟨0x13E, 2, .memory⟩] s) = .fault .unbackedAddress
        ∧ step (mapped [⟨0x13E, 2, .memory⟩, ⟨0x140, 2, .device⟩] s) = .refused .deviceAccess
        ∧ step (mapped [⟨0x13E, 3, .memory⟩] s) = .fault .unbackedAddress
        ∧ step (mapped [⟨0x13E, 3, .memory⟩, ⟨0x141, 1, .device⟩] s) = .refused .deviceAccess
        ∧ step { s with stale := [5] } = .refused .staleFetch) :=
  ⟨rfl, rfl, rfl, rfl, rfl⟩

theorem witness_StepTakesIrq :
    (irqNow 0x40#32).irqTaken = true ∧ (irqNow 0x40#32).ids.getLsbD 0 = false
      ∧ (irqNow 0x41#32).irqTaken = true ∧ (irqNow 0x41#32).ids.getLsbD 0 = true := by decide

/-- A store; the last unit of memory, after which `pc` wraps. -/
theorem witness_StepKeepsInvariant :
    (ends.withFetchWord 16 0x9A15).inv = true ∧ (∃ t, step (ends.withFetchWord 16 0x9A15) = .next t)
      ∧ (at_ 0xFFFFFFFE#32 State.reset).inv = true ∧ ∃ t, step (at_ 0xFFFFFFFE#32 State.reset) = .next t :=
  ⟨by decide, ⟨_, rfl⟩, by decide, ⟨_, rfl⟩⟩

theorem witness_WhoWritesFlagsAndMemory :
    (Instr.add 1#4 2#4).writesFlags = false ∧ (Instr.add 1#4 2#4).storesMemory = false
      ∧ (∃ t, exec (.add 1#4 2#4) State.reset = .next t)
      ∧ (Instr.str 5#4 1#4).writesFlags = false ∧ (∃ t, exec (.str 5#4 1#4) ends = .next t)
      ∧ (Instr.cmp 1#4 2#4).storesMemory = false ∧ ∃ t, exec (.cmp 1#4 2#4) ends = .next t :=
  ⟨rfl, rfl, ⟨_, rfl⟩, rfl, ⟨_, rfl⟩, rfl, ⟨_, rfl⟩⟩

theorem witness_NonPrefixEndsPrefixes :
    (Instr.add 1#4 2#4).isPrefix = false ∧ (withPre 5#12 State.reset).pfx.inEffect = true
      ∧ ∃ t, exec (.add 1#4 2#4) (withPre 5#12 State.reset) = .next t :=
  ⟨rfl, rfl, ⟨_, rfl⟩⟩

/-- The empty memory is a run of `pre #0`: every second one is invalid. -/
theorem witness_PrefixRunIsBounded :
    ∃ t1 t2 t3 t4, step State.reset = .next t1 ∧ step t1 = .next t2 ∧ step t2 = .next t3 ∧ step t3 = .next t4 :=
  ⟨_, _, _, _, rfl, rfl, rfl, rfl⟩

theorem witness_PrefixUsedTwice : usedPrefix.pfx.usedByIndex = true ∧ usedPrefix.inv = true := by decide

theorem witness_PreAndLpreLatch :
    State.reset.pfx.immInEffect = false ∧ (withIndex 1#4 2#4 State.reset).pfx.immInEffect = false := by decide

theorem witness_IndexLatches :
    State.reset.pfx.rrHave = false ∧ State.reset.pfx.riHave = false
      ∧ (withIndexImm 1#4 4#32 State.reset).pfx.rrHave = false ∧ (withIndex 1#4 2#4 State.reset).pfx.riHave = false := by
  decide

theorem witness_RepeatedPrefixIsNop :
    (withPre 1#12 State.reset).pfx.preHave = true ∧ (withLpre 1#27 State.reset).pfx.lpreHave = true
      ∧ (withIndex 1#4 2#4 State.reset).pfx.rrHave = true ∧ (withIndexImm 1#4 4#32 State.reset).pfx.riHave = true := by
  decide

theorem witness_NoPrefix : NoPrefix State.reset := ⟨rfl, rfl⟩

theorem witness_PrefixesCombine : NoPrefix ends := ⟨rfl, rfl⟩

theorem witness_ImmediateExpansion :
    (withLpre 0x4000000#27 State.reset).pfx.lpreHave = true
      ∧ (withPre 0x800#12 State.reset).pfx.lpreHave = false ∧ (withPre 0x800#12 State.reset).pfx.preHave = true
      ∧ State.reset.pfx.immInEffect = false := by decide

/-- The last word of memory, and the first. -/
theorem witness_Exchange :
    Memory.wf ends.mem = true ∧ ends.canAccess (ends.reg 1#4) 4 ∧ ends.canAccess (ends.reg 4#4) 4 :=
  ⟨by decide, rfl, rfl⟩

theorem witness_CompareExchange :
    Memory.wf ends.mem = true ∧ ends.canAccess (ends.reg 1#4) 4
      ∧ ends.wordAt (ends.reg 1#4) = ends.pfx.idxAval
      ∧ (withIndex 5#4 0#4 ends).canAccess ((withIndex 5#4 0#4 ends).reg 1#4) 4
      ∧ (withIndex 5#4 0#4 ends).wordAt ((withIndex 5#4 0#4 ends).reg 1#4) ≠ (withIndex 5#4 0#4 ends).pfx.idxAval :=
  ⟨by decide, rfl, by decide, rfl, by decide⟩

theorem witness_CpyImmediate : State.reset.pfx.usedByIndex = false ∧ NoPrefix State.reset := ⟨rfl, rfl, rfl⟩

theorem witness_BitwiseImmediate :
    ends.pfx.usedByIndex = false ∧ ends.immS 0x1F#5 = BitVec.allOnes 32 := by decide

theorem witness_AddAndShiftImmediate : (withLpre 1#27 ends).pfx.usedByIndex = false := by decide

theorem witness_ExtendFromBit :
    ends.pfx.usedByIndex = false ∧ (ends.immU 31#5).toNat < 32 ∧ (ends.immU 0#5).toNat < 32
      ∧ (withPre 1#12 ends).pfx.usedByIndex = false ∧ 32 ≤ ((withPre 1#12 ends).immU 0#5).toNat := by decide

theorem witness_SoftwareInterrupt :
    (irqNow 0x40#32).pfx.usedByIndex = false ∧ (irqNow 0x40#32).ids.getLsbD 0 = false
      ∧ (irqNow 0x41#32).ids.getLsbD 0 = true := by decide

theorem witness_CompareFlags : ends.pfx.usedByIndex = false := by decide

/-- An even offset; with the flags at reset and with every flag set, each branch is once taken and once not. -/
theorem witness_BranchesOnOneFlag :
    (let s := State.reset;
      let t := State.reset.setFlags (zcvn 1 1 1 1);
      s.pfx.usedByIndex = false ∧ t.pfx.usedByIndex = false
        ∧ (s.pc + s.immS 0x100#9 + 2#32).getLsbD 0 = false ∧ (t.pc + t.immS 0xFE#9 + 2#32).getLsbD 0 = false
        ∧ s.flags = zcvn 0 0 0 0 ∧ t.flags = zcvn 1 1 1 1) := by decide

/-- Each of the six conditions once met and once not. -/
theorem witness_BranchesOnSeveralFlags :
    (let s := State.reset.setFlags (zcvn 0 1 0 0);
      let t := State.reset.setFlags (zcvn 1 0 0 1);
      s.pfx.usedByIndex = false ∧ (s.pc + s.immS 0x1FE#9 + 2#32).getLsbD 0 = false
        ∧ t.pfx.usedByIndex = false ∧ (t.pc + t.immS 0x1FE#9 + 2#32).getLsbD 0 = false
        ∧ (s.flags.c = true ∧ s.flags.z = false) ∧ s.flags.n = s.flags.v
        ∧ (t.flags.c = false ∧ t.flags.z = true) ∧ t.flags.n ≠ t.flags.v) := by decide

theorem witness_CompareThenBranch :
    State.reset.pc.getLsbD 0 = false ∧ evenOffset 0x100#9 = true ∧ evenOffset 0xFE#9 = true := by decide

theorem witness_CallsAndJumps :
    ends.pfx.usedByIndex = false ∧ (ends.pc + ends.immS 0x100#9 + 2#32).getLsbD 0 = false
      ∧ (ends.reg 2#4).getLsbD 0 = false ∧ ends.ira.getLsbD 0 = false := by decide

/-- Odd targets: of a branch, a register, `ira`, and a popped word (at the last word of memory). -/
theorem witness_OddTargetsRefused :
    (let s := holding 0xFFFFFFFC 0x103#32 { regs [(3#4, 0xFFFFFFFF#32), (4#4, 0xFFFFFFF8#32)] with ira := 1#32 };
      s.pfx.usedByIndex = false ∧ (s.pc + s.immS 1#9 + 2#32).getLsbD 0 = true ∧ (s.reg 3#4).getLsbD 0 = true
        ∧ s.ira.getLsbD 0 = true ∧ s.canAccess (s.reg 4#4 + 4#32) 4 ∧ (s.wordAt (s.reg 4#4 + 4#32)).getLsbD 0 = true) :=
  ⟨by decide, by decide, by decide, by decide, rfl, by decide⟩

theorem witness_EnableAndDisable :
    (irqNow 0x40#32).irqLine = ⟨true, true⟩ :: [] ∧ (irqNow 0x40#32).ids.getLsbD 0 = false := by decide

/-- The last word of memory and the first. -/
theorem witness_PushStoresAndDecrements :
    Memory.wf ends.mem = true ∧ ends.canAccess (ends.reg 1#4) 4 ∧ ends.canAccess (ends.reg 4#4) 4 ∧ (5#4 : RegNum) ≠ 1#4 :=
  ⟨by decide, rfl, rfl, by decide⟩

/-- The word after the last one is the first; an even word to go to. -/
theorem witness_PopIncrementsAndLoads :
    ends.canAccess (ends.reg 1#4 + 4#32) 4 ∧ (5#4 : RegNum) ≠ 1#4
      ∧ (ends.wordAt (ends.reg 1#4 + 4#32)).getLsbD 0 = false := ⟨rfl, by decide, by decide⟩

theorem witness_TwoWordArithmetic : (1#4 : RegNum) ≠ 0#4 ∧ (1#4 : RegNum) ≠ 2#4 := by decide

/-- No index; the later index names two registers, of which none is `r2`, `r3`. -/
theorem witness_MultiplyAndDivide :
    (let s := withIndex 6#4 7#4 ends;
      ends.pfx.indexInEffect = false ∧ s.pfx.indexInEffect = true ∧ s.pfx.idxLast = .rr ∧ s.pfx.idxA ≠ s.pfx.idxB
        ∧ s.pfx.idxA ≠ 2#4 ∧ s.pfx.idxA ≠ (2#4 &&& 0xE#4) ∧ s.pfx.idxA ≠ (2#4 ||| 1#4)
        ∧ s.pfx.idxB ≠ (2#4 &&& 0xE#4) ∧ s.pfx.idxB ≠ (2#4 ||| 1#4)) := by decide

/-- The most negative value by 1 and by -1, and a zero divisor, fall under different clauses. -/
theorem witness_DivisionValues :
    ((1#32 : Word) ≠ 0#32 ∧ ¬((0x80000000#32 : Word) = 0x80000000#32 ∧ (1#32 : Word) = 0xFFFFFFFF#32))
      ∧ ((0xFFFFFFFF#32 : Word) ≠ 0#32 ∧ ¬((0x80000001#32 : Word) = 0x80000000#32 ∧ (0xFFFFFFFF#32 : Word) = 0xFFFFFFFF#32))
      ∧ ((1#64 : DWord) ≠ 0#64 ∧ ¬((0x8000000000000000#64 : DWord) = 0x8000000000000000#64 ∧ (1#64 : DWord) = 0xFFFFFFFFFFFFFFFF#64)) := by
  decide

/-- One clause a line: one destination, an immediate second destination, equal destinations, an overlap with a pair. -/
theorem witness_MultiplyDivideStops :
    ((withIndex 2#4 7#4 ends).pfx.indexInEffect = true ∧ (withIndex 2#4 7#4 ends).pfx.idxA = 2#4)
      ∧ ((withIndexImm 6#4 4#32 ends).pfx.indexInEffect = true ∧ (withIndexImm 6#4 4#32 ends).pfx.idxLast = .ri)
      ∧ ((withIndex 6#4 6#4 ends).pfx.idxLast = .rr ∧ (withIndex 6#4 6#4 ends).pfx.idxA = (withIndex 6#4 6#4 ends).pfx.idxB)
      ∧ ((withIndex 3#4 7#4 ends).pfx.idxA = (2#4 ||| 1#4) ∧ (withIndex 7#4 2#4 ends).pfx.idxB = (2#4 &&& 0xE#4)) := by
  decide

/-- The last byte, half and word of memory, at addresses that index registers and none. -/
theorem witness_NarrowLoads :
    ends.canAccess (ends.ea 3#4) 1 ∧ ends.canAccess (ends.ea 2#4) 2 ∧ (withIndex 1#4 4#4 ends).canAccess ((withIndex 1#4 4#4 ends).ea 5#4) 2 :=
  ⟨rfl, rfl, rfl⟩

theorem witness_WordLoads :
    ends.canAccess (ends.ea 1#4) 4 ∧ ends.canAccess (ends.reg 1#4) 4 ∧ ends.canAccess (ends.spr .ids) 4 := ⟨rfl, rfl, rfl⟩

theorem witness_Stores :
    Memory.wf ends.mem = true ∧ ends.canAccess (ends.ea 3#4) 1 ∧ ends.canAccess (ends.ea 2#4) 2 ∧ ends.canAccess (ends.ea 1#4) 4 :=
  ⟨by decide, rfl, rfl, rfl⟩

theorem witness_SprStores :
    Memory.wf ends.mem = true ∧ ends.canAccess (ends.reg 1#4) 4 ∧ ends.canAccess (ends.spr .sty) 4 := ⟨by decide, rfl, rfl⟩

/-- Every store of the statement completes, the exchanges with the expected value in memory; the stored line's last unit is a
fetch that is refused. -/
theorem witness_StoresMarkLines :
    (∃ t, exec (.stb 5#4 3#4) ends = .next t) ∧ (∃ t, exec (.sth 5#4 2#4) ends = .next t)
      ∧ (∃ t, exec (.str 5#4 1#4) ends = .next t) ∧ (∃ t, exec (.push 5#4 1#4) ends = .next t)
      ∧ (∃ t, exec (.pushSpr .sty 1#4) ends = .next t) ∧ (∃ t, exec (.strSpr .ids 1#4) ends = .next t)
      ∧ (∃ t, exec (.strSprSpr .ids .sty) ends = .next t) ∧ (∃ t, exec (.xchgL 1#4 5#4) ends = .next t)
      ∧ ends.wordAt (ends.reg 1#4) = ends.pfx.idxAval
      ∧ (∃ t, exec (.cmpxchg 1#4 5#4) ends = .next t) ∧ (∃ t, exec (.cmpxchgL 1#4 5#4) ends = .next t)
      ∧ checkBacked ends.plat.memMap 0xFFFFFFFE 2 = .ok () ∧ (0xFFFFFFFE#32 : Word).toNat / lineBytes = (ends.reg 1#4).toNat / lineBytes :=
  ⟨⟨_, rfl⟩, ⟨_, rfl⟩, ⟨_, rfl⟩, ⟨_, rfl⟩, ⟨_, rfl⟩, ⟨_, rfl⟩, ⟨_, rfl⟩, ⟨_, rfl⟩, by decide, ⟨_, rfl⟩, ⟨_, rfl⟩, rfl, by decide⟩

/-- The line of a store's last byte: under MISALIGNED_DATA = perform a word at 0x13E ends in the line of 0x140. -/
theorem witness_StoresMarkLines_second :
    (∃ t, exec (.str 5#4 1#4) (performing (regs [(1#4, 0x13E#32)])) = .next t)
      ∧ (0x140#32 : Word).getLsbD 0 = false ∧ checkBacked Config.wholeSpace 0x140 2 = .ok ()
      ∧ (0x140#32 : Word).toNat / lineBytes = ((0x13E#32 : Word).toNat + 4 - 1) / lineBytes
      ∧ (0x140#32 : Word).toNat / lineBytes ≠ (0x13E#32 : Word).toNat / lineBytes :=
  ⟨⟨_, rfl⟩, by decide, rfl, by decide, by decide⟩

/-- The last word: read back whole through `r1`, its byte 3 through `r3`; a push there and its pop. -/
theorem witness_LoadAfterStore :
    Memory.wf ends.mem = true
      ∧ (∃ t, exec (.str 5#4 1#4) ends = .next t ∧ t.reg 1#4 = ends.ea 1#4 ∧ t.reg 3#4 = ends.ea 1#4 + BitVec.ofNat 32 3)
      ∧ ∃ t, exec (.push 5#4 1#4) ends = .next t :=
  ⟨by decide, ⟨_, rfl, by decide, by decide⟩, ⟨_, rfl⟩⟩

/-- A misaligned word; under the other policy one that wraps (its first 3 bytes do not) and the last that does not; the last
byte of an access unbacked, and on a device. -/
theorem witness_AccessStops :
    refusal (exec (.ldr 5#4 3#4) ends) = some .misalignedData
      ∧ exec (.ldr 5#4 1#4) (performing (regs [(1#4, 0xFFFFFFFD#32)])) = .fault .accessWraps
      ∧ (performing ends).canAccess 0xFFFFFFFB#32 4
      ∧ exec (.ldr 5#4 1#4) (mapped [⟨0xFFFFFFFC, 3, .memory⟩] ends) = .fault .unbackedAddress
      ∧ exec (.ldr 5#4 1#4) (mapped [⟨0xFFFFFFFC, 3, .memory⟩, ⟨0xFFFFFFFF, 1, .device⟩] ends) = .refused .deviceAccess
      ∧ exec (.stb 5#4 3#4) (mapped [⟨0xFFFFFFFF, 1, .device⟩] ends) = .refused .deviceAccess :=
  ⟨by decide, rfl, rfl, rfl, rfl, rfl⟩

theorem witness_SubwordShifts : ends.plat.subwordWrite = .extend ∧ (merging ends).plat.subwordWrite = .merge := by decide

/-- The last line of memory (`r1` is in it), whole, and with its last byte unbacked or a device. -/
theorem witness_InstructionCache :
    ends.pfx.usedByIndex = false
      ∧ checkBacked ends.plat.memMap 0xFFFFFFC0 64 = .ok ()
      ∧ checkBacked (mapped [⟨0xFFFFFFC0, 63, .memory⟩] ends).plat.memMap 0xFFFFFFC0 64 = .error (.fault .unbackedAddress)
      ∧ checkBacked (mapped [⟨0xFFFFFFC0, 63, .memory⟩, ⟨0xFFFFFFFF, 1, .device⟩] ends).plat.memMap 0xFFFFFFC0 64
          = .error (.refused .deviceAccess) := ⟨by decide, rfl, rfl, rfl⟩

end Sys2Proof.Tests
end

section
/-! How an instruction ends, said once for all of them (R120 step 4): `exec_ends` reads off `exec` what its body may
change and which of the four endings follows. The rules about every instruction and about every step rest on it. -/

namespace Sys2Proof.Machine

/-! ## What the body of an instruction may change -/

/-- What instruction `i` may have done to the state, `s` before and `u` after, when it comes to its end: `pc` and
`pfx` are still those of the start, `flags` and memory change only where R35 and R56 list `i`, and memory and the
stale lines are kept canonical. -/
structure BodyEffect (i : Instr) (s u : State) : Prop where
  pc : u.pc = s.pc
  pfx : u.pfx = s.pfx
  flags : i.writesFlags = false → u.flags = s.flags
  mem : i.storesMemory = false → u.mem = s.mem
  memWf : Memory.wf s.mem = true → Memory.wf u.mem = true
  staleWf : Stale.wf s.stale = true → Stale.wf u.stale = true

namespace BodyEffect

variable {i : Instr} {s u : State}

theorem refl (i : Instr) (s : State) : BodyEffect i s s :=
  ⟨rfl, rfl, fun _ => rfl, fun _ => rfl, id, id⟩

theorem setReg (h : BodyEffect i s u) (r : RegNum) (v : Word) : BodyEffect i s (u.setReg r v) :=
  ⟨h.pc, h.pfx, h.flags, h.mem, h.memWf, h.staleWf⟩

theorem setPair (h : BodyEffect i s u) (hi lo : RegNum) (v : DWord) : BodyEffect i s (u.setPair hi lo v) :=
  (h.setReg _ _).setReg _ _

theorem setIe (h : BodyEffect i s u) (b : Bool) : BodyEffect i s (u.setIe b) :=
  ⟨h.pc, h.pfx, h.flags, h.mem, h.memWf, h.staleWf⟩

/-- A write of `flags` by an instruction of R35's table. -/
theorem setFlags (h : BodyEffect i s u) (hw : i.writesFlags = true) (f : Flags) : BodyEffect i s (u.setFlags f) :=
  ⟨h.pc, h.pfx, fun hn => absurd (hw.symm.trans hn) (by decide), h.mem, h.memWf, h.staleWf⟩

/-- The write of a special-purpose register is in R35's table exactly when the register is `flags`. -/
theorem setSpr (h : BodyEffect i s u) {q : Spr} (hw : i.writesFlags = (q == .flags)) (v : Word) :
    BodyEffect i s (u.setSpr q v) where
  pc := by simpa using h.pc
  pfx := by simpa using h.pfx
  flags hn := by
    have hq : q ≠ .flags := by simpa using hw.symm.trans hn
    have hf := u.spr_setSpr_other q .flags v hq.symm
    exact (Flags.toWord_inj.mp hf).trans (h.flags hn)
  mem hn := by simpa using h.mem hn
  memWf hm := by simpa using h.memWf hm
  staleWf hs := by simpa using h.staleWf hs

/-- A store that is performed, by an instruction of R56's list. -/
theorem stored (h : BodyEffect i s u) (hw : i.storesMemory = true) {a : Word} {n : Nat} (hn : 0 < n)
    (hc : u.checkData a n = .ok ()) (v : Word) : BodyEffect i s (u.stored a n v) :=
  ⟨h.pc, h.pfx, h.flags, fun hf => absurd (hw.symm.trans hf) (by decide),
    fun hm => State.stored_mem_wf hc (h.memWf hm), fun hs => State.stored_stale_wf hn hc (h.staleWf hs)⟩

/-- Another list of stale lines, as canonical as the old one. -/
theorem withStale (h : BodyEffect i s u) {ls : List Nat} (hl : Stale.wf u.stale = true → Stale.wf ls = true) :
    BodyEffect i s { u with stale := ls } :=
  ⟨h.pc, h.pfx, h.flags, h.mem, h.memWf, fun hs => hl (h.staleWf hs)⟩

end BodyEffect

/-! ## The four endings -/

/-- Instruction `i`, started in `s`, ends in the given state: at the next unit (R120), at an even target (R55), at the
interrupt handler (R306), or with `pfx` latched, past units of an even length and with a new `pfx` that is as
well formed as the old one (R121, R122, R124). -/
inductive Ends (i : Instr) (s : State) : State → Prop where
  | retired {u : State} (h : BodyEffect i s u) : Ends i s u.retired
  | jumped {u : State} {target : Word} (h : BodyEffect i s u) (ht : target.getLsbD 0 = false) :
      Ends i s (u.jumped target)
  | interrupted {cause : Interrupt} {ret : Word} (hids : s.ids.getLsbD 0 = false) : Ends i s (s.interrupted cause ret)
  | latched {p : PrefixState} {bytes : Word} (hi : i.isPrefix = true) (hb : bytes.getLsbD 0 = false)
      (hp : s.pfx.wf = true → p.wf = true) : Ends i s { s with pfx := p, pc := s.pc + bytes }

/-! ## The ending of each shared operation -/

section SharedOperations

variable {i : Instr} {s t u : State}

theorem ends_retire (hu : BodyEffect i s u) (h : retire u = .next t) : Ends i s t :=
  retire_next.mp h ▸ .retired hu

theorem ends_jumpTo {target : Word} (hu : BodyEffect i s u) (h : jumpTo target u = .next t) : Ends i s t := by
  obtain ⟨ht, rfl⟩ := jumpTo_next.mp h
  exact .jumped hu ht

theorem ends_takeInterrupt {cause : Interrupt} {ret : Word} (h : takeInterrupt cause ret s = .next t) : Ends i s t := by
  obtain ⟨hids, rfl⟩ := takeInterrupt_next.mp h
  exact .interrupted hids

theorem ends_immediateResult {a : RegNum} {v : Word} (h : immediateResult a v s = .next t) : Ends i s t :=
  ends_retire ((BodyEffect.refl i s).setReg a v) (withImmediate_next.mp h).2

theorem ends_withBitIndex {a : RegNum} {k : Word} {f : Nat → Word}
    (h : withBitIndex k s (fun j => retire (s.setReg a (f j))) = .next t) : Ends i s t := by
  obtain ⟨-, h⟩ := withImmediate_next.mp h
  split at h
  · exact ends_retire ((BodyEffect.refl i s).setReg a _) h
  · cases h

theorem ends_swi {cause : Interrupt} {ret : Word} (h : withImmediate s (takeInterrupt cause ret s) = .next t) :
    Ends i s t :=
  ends_takeInterrupt (withImmediate_next.mp h).2

theorem ends_sumResult {f : Bool} {a : RegNum} {r : Word × Flags} (hw : f = true → i.writesFlags = true)
    (h : sumResult f a r s = .next t) : Ends i s t := by
  have hr := (BodyEffect.refl i s).setReg a r.1
  cases f with
  | false => exact ends_retire hr h
  | true => exact ends_retire (hr.setFlags (hw rfl) r.2) h

theorem ends_bitsResult {f : Bool} {a : RegNum} {r : Word} (hw : f = true → i.writesFlags = true)
    (h : bitsResult f a r s = .next t) : Ends i s t := by
  have hr := (BodyEffect.refl i s).setReg a r
  cases f with
  | false => exact ends_retire hr h
  | true => exact ends_retire (hr.setFlags (hw rfl) _) h

theorem ends_compareResult {f : Flags} (hw : i.writesFlags = true) (h : compareResult f s = .next t) : Ends i s t :=
  ends_retire ((BodyEffect.refl i s).setFlags hw f) h

theorem ends_branchIf {c : Bool} {k : BitVec 9} (h : branchIf c k s = .next t) : Ends i s t := by
  obtain ⟨-, h⟩ := withImmediate_next.mp h
  cases c with
  | false => exact ends_retire (.refl i s) h
  | true => exact ends_jumpTo (.refl i s) h

theorem ends_pushWord {v : Word} {b : RegNum} (hw : i.storesMemory = true) (h : pushWord v b s = .next t) :
    Ends i s t := by
  obtain ⟨u, hu, h⟩ := andThen_next h
  obtain ⟨hc, rfl⟩ := State.store_ok.mp hu
  exact ends_retire (((BodyEffect.refl i s).stored hw (by decide) hc v).setReg b _) h

/-- A pop goes on as its continuation does, on a state whose stack register is moved. -/
theorem ends_popWord {b : RegNum} {k : Word → State → Outcome}
    (hk : ∀ v u, BodyEffect i s u → k v u = .next t → Ends i s t) (h : popWord b s k = .next t) : Ends i s t := by
  obtain ⟨v, -, h⟩ := andThen_next h
  exact hk v _ ((BodyEffect.refl i s).setReg b _) h

theorem ends_divideResult {a : RegNum} {qr : Word × Word} (h : divideResult a qr s = .next t) : Ends i s t := by
  rcases divideResult_next h with ⟨-, rfl⟩ | ⟨-, -, rfl⟩
  · exact .retired ((BodyEffect.refl i s).setReg _ _)
  · exact .retired (((BodyEffect.refl i s).setReg _ _).setReg _ _)

theorem ends_multiplyResult {p : DWord} (h : multiplyResult p s = .next t) : Ends i s t := by
  rcases multiplyResult_next h with ⟨-, rfl⟩ | ⟨-, -, -, rfl⟩
  · exact .retired ((BodyEffect.refl i s).setPair _ _ _)
  · exact .retired ((BodyEffect.refl i s).setPair _ _ _)

theorem ends_divide64Result {a : RegNum} {qr : DWord × DWord} (h : divide64Result a qr s = .next t) : Ends i s t := by
  rcases divide64Result_next h with ⟨-, rfl⟩ | ⟨-, -, -, rfl⟩
  · exact .retired ((BodyEffect.refl i s).setPair _ _ _)
  · exact .retired (((BodyEffect.refl i s).setPair _ _ _).setPair _ _ _)

theorem ends_exchangeWord {a b : RegNum} (hw : i.storesMemory = true) (h : exchangeWord a b s = .next t) :
    Ends i s t := by
  obtain ⟨old, -, h⟩ := andThen_next h
  obtain ⟨u, hu, h⟩ := andThen_next h
  obtain ⟨hc, rfl⟩ := State.store_ok.mp hu
  exact ends_retire (((BodyEffect.refl i s).stored hw (by decide) hc _).setReg b old) h

theorem ends_compareExchangeWord {a b : RegNum} (hm : i.storesMemory = true) (hf : i.writesFlags = true)
    (h : compareExchangeWord a b s = .next t) : Ends i s t := by
  obtain ⟨old, -, h⟩ := andThen_next h
  split at h
  · obtain ⟨u, hu, h⟩ := andThen_next h
    obtain ⟨hc, rfl⟩ := State.store_ok.mp hu
    exact ends_retire (((BodyEffect.refl i s).stored hm (by decide) hc _).setFlags hf _) h
  · exact ends_retire ((BodyEffect.refl i s).setFlags hf _) h

theorem ends_subwordResult {a : RegNum} {n : Nat} {v : Word} (h : subwordResult a n v s = .next t) : Ends i s t :=
  ends_retire ((BodyEffect.refl i s).setReg a _) h

theorem ends_loadInto {a b : RegNum} {n : Nat} {ext : Word → Word} (h : loadInto a b n ext s = .next t) :
    Ends i s t := by
  obtain ⟨v, -, h⟩ := andThen_next h
  exact ends_retire ((BodyEffect.refl i s).setReg a _) h

theorem ends_storeFrom {a b : RegNum} {n : Nat} (hw : i.storesMemory = true) (hn : 0 < n)
    (h : storeFrom a b n s = .next t) : Ends i s t := by
  obtain ⟨u, hu, h⟩ := andThen_next h
  obtain ⟨hc, rfl⟩ := State.store_ok.mp hu
  exact ends_retire ((BodyEffect.refl i s).stored hw hn hc _) h

theorem ends_loadSpr {q : Spr} {addr : Word} (hw : i.writesFlags = (q == .flags)) (h : loadSpr q addr s = .next t) :
    Ends i s t := by
  obtain ⟨v, -, h⟩ := andThen_next h
  exact ends_retire ((BodyEffect.refl i s).setSpr hw v) h

theorem ends_storeSpr {q : Spr} {addr : Word} (hw : i.storesMemory = true) (h : storeSpr q addr s = .next t) :
    Ends i s t := by
  obtain ⟨u, hu, h⟩ := andThen_next h
  obtain ⟨hc, rfl⟩ := State.store_ok.mp hu
  exact ends_retire ((BodyEffect.refl i s).stored hw (by decide) hc _) h

theorem ends_icreload {a : RegNum} {k : BitVec 5} (h : execIcreload a k s = .next t) : Ends i s t := by
  obtain ⟨-, h⟩ := withImmediate_next.mp h
  obtain ⟨-, -, h⟩ := andThen_next h
  exact ends_retire ((BodyEffect.refl i s).withStale Stale.wf_clear) h

end SharedOperations

/-! ## The latches keep `pfx` well formed -/

/-- The invariant of `pfx` as a conjunction (R37, R98, R260, R261). -/
theorem PrefixState.wf_iff {p : PrefixState} : p.wf = true ↔
    ¬(p.preHave = true ∧ p.lpreHave = true)
      ∧ (p.usedByIndex = true → p.riHave = true ∧ p.immInEffect = true)
      ∧ (p.rrHave = true → p.riHave = false → p.idxLast = .rr)
      ∧ (p.riHave = true → p.rrHave = false → p.idxLast = .ri) := by
  simp only [PrefixState.wf]
  grind

/-- A `pre` with no `pre` or `lpre` in effect (R121). -/
theorem PrefixState.wf_latchPre {p : PrefixState} (hi : p.immInEffect = false) (hp : p.wf = true) (k : BitVec 12) :
    { p with preHave := true, preData := k }.wf = true := by
  simp only [PrefixState.wf_iff, PrefixState.immInEffect] at *
  grind

/-- An `lpre` with no `pre` or `lpre` in effect (R122). -/
theorem PrefixState.wf_latchLpre {p : PrefixState} (hi : p.immInEffect = false) (hp : p.wf = true) (k : BitVec 27) :
    { p with lpreHave := true, lpreData := k }.wf = true := by
  simp only [PrefixState.wf_iff, PrefixState.immInEffect] at *
  grind

/-- An `index rA, rB` names its own kind in `idxLast` (R260). -/
theorem PrefixState.wf_latchIndexReg {p : PrefixState} (hp : p.wf = true) (sum val v : Word) (a b : RegNum) :
    { p with
      regSum := sum, idxA := a, idxAval := val, idxB := b, regB := v, idxLast := .rr, rrHave := true }.wf = true := by
  simp only [PrefixState.wf_iff, PrefixState.immInEffect] at *
  grind

/-- An `index rA, #simm` names its own kind in `idxLast` and notes the `pre` or `lpre` that expands it, which stays in
effect (R261). -/
theorem PrefixState.wf_latchIndexImm {p : PrefixState} (hp : p.wf = true) (sum val v : Word) (a : RegNum) :
    { p with
      usedByIndex := p.usedByIndex || p.immInEffect
      regSum := sum, idxA := a, idxAval := val, regB := v, idxLast := .ri, riHave := true }.wf = true := by
  simp only [PrefixState.wf_iff, PrefixState.immInEffect] at *
  grind

/-- With nothing in effect (R125) the invariant of `pfx` asks nothing. -/
theorem PrefixState.cleared_wf (p : PrefixState) : p.cleared.wf = true := by
  simp [PrefixState.wf_iff]

section Latches

variable {i : Instr} {s t : State}

theorem ends_latch {p : PrefixState} {bytes : Word} (hi : i.isPrefix = true) (hb : bytes.getLsbD 0 = false)
    (hp : s.pfx.wf = true → p.wf = true) (h : latch p bytes s = .next t) : Ends i s t :=
  latch_next.mp h ▸ .latched hi hb hp

theorem ends_invalidPrefix (h : invalidPrefix s = .next t) : Ends i s t :=
  invalidPrefix_next.mp h ▸ .retired (.refl i s)

theorem ends_execPre {k : BitVec 12} (hi : i.isPrefix = true) (h : execPre k s = .next t) : Ends i s t := by
  unfold execPre at h
  split at h
  · exact ends_invalidPrefix h
  · next hn => exact ends_latch hi (by decide) (PrefixState.wf_latchPre (Bool.eq_false_iff.mpr hn) · k) h

theorem ends_execLpre {k : BitVec 27} (hi : i.isPrefix = true) (h : execLpre k s = .next t) : Ends i s t := by
  unfold execLpre at h
  split at h
  · exact ends_invalidPrefix h
  · next hn => exact ends_latch hi (by decide) (PrefixState.wf_latchLpre (Bool.eq_false_iff.mpr hn) · k) h

theorem ends_execIndexReg {a b : RegNum} (hi : i.isPrefix = true) (h : execIndexReg a b s = .next t) : Ends i s t := by
  unfold execIndexReg at h
  split at h
  · exact ends_invalidPrefix h
  · exact ends_latch hi (by decide) (PrefixState.wf_latchIndexReg · _ _ _ a b) h

theorem ends_execIndexImm {a : RegNum} {k : BitVec 7} (hi : i.isPrefix = true) (h : execIndexImm a k s = .next t) :
    Ends i s t := by
  unfold execIndexImm at h
  split at h
  · exact ends_invalidPrefix h
  · exact ends_latch hi (by decide) (PrefixState.wf_latchIndexImm · _ _ _ a) h

end Latches

/-! ## Every instruction -/

/-- How each instruction ends, by the shared operation its meaning is made of. -/
theorem exec_ends {i : Instr} {s t : State} (h : exec i s = .next t) : Ends i s t := by
  cases i with
  | pre k => exact ends_execPre rfl h
  | lpre k => exact ends_execLpre rfl h
  | indexReg a b => exact ends_execIndexReg rfl h
  | indexImm a k => exact ends_execIndexImm rfl h
  | xchg a b => exact ends_retire (((BodyEffect.refl _ s).setReg a _).setReg b _) h
  | xchgL a b => exact ends_exchangeWord rfl h
  | cmpxchg a b | cmpxchgL a b => exact ends_compareExchangeWord rfl rfl h
  | addImm a k | addPc a k | addSp a k | addFp a k | cpyImm a k | lslImm a k | lsrImm a k | asrImm a k | andImm a k
  | orrImm a k | xorImm a k => exact ends_immediateResult h
  | cmpImm a k => exact ends_retire ((BodyEffect.refl _ s).setFlags rfl _) (withImmediate_next.mp h).2
  | ze a k => exact ends_withBitIndex (f := zeroFrom (s.reg a)) h
  | se a k => exact ends_withBitIndex (f := signFrom (s.reg a)) h
  | swiReg a k | swi k => exact ends_swi h
  | add a b | sub a b | addSpReg a b | addFpReg a b | adc a b | sbc a b => exact ends_sumResult (f := false) nofun h
  | addF a b | subF a b | addSpRegF a b | addFpRegF a b | adcF a b | sbcF a b =>
    exact ends_sumResult (fun _ => rfl) h
  | cpy a b | lsl a b | lsr a b | asr a b | and a b | orr a b | xor a b => exact ends_bitsResult (f := false) nofun h
  | cpyF a b | lslF a b | lsrF a b | asrF a b | andF a b | orrF a b | xorF a b =>
    exact ends_bitsResult (fun _ => rfl) h
  | cmp a b | cmpbc a b | cmpb a b | cmph a b => exact ends_compareResult rfl h
  | bl k => exact ends_jumpTo ((BodyEffect.refl _ s).setReg lr _) (withImmediate_next.mp h).2
  | bra k | beq k | bne k | bmi k | bpl k | bvs k | bvc k | bgeu k | bltu k | bgtu k | bleu k | bges k | blts k
  | bgts k | bles k => exact ends_branchIf h
  | jl a => exact ends_jumpTo ((BodyEffect.refl _ s).setReg lr _) h
  | jmp a | jmpIra => exact ends_jumpTo (.refl _ s) h
  | reti => exact ends_jumpTo ((BodyEffect.refl _ s).setIe true) h
  | ei | di => exact ends_retire ((BodyEffect.refl _ s).setIe _) h
  | push a b =>
    change (if a = b then retire s else pushWord (s.reg a) b s) = .next t at h
    split at h
    · exact ends_retire (.refl _ s) h
    · exact ends_pushWord rfl h
  | pushSpr q b => exact ends_pushWord rfl h
  | pop a b =>
    change (if a = b then retire s else popWord b s fun v u => retire (u.setReg a v)) = .next t at h
    split at h
    · exact ends_retire (.refl _ s) h
    · exact ends_popWord (fun v _ hu => ends_retire (hu.setReg a v)) h
  | popSpr q b => exact ends_popWord (fun v _ hu => ends_retire (hu.setSpr rfl v)) h
  | popPc b => exact ends_popWord (fun _ _ hu => ends_jumpTo hu) h
  | mul a b => exact ends_retire ((BodyEffect.refl _ s).setReg a _) h
  | udiv a b | sdiv a b => exact ends_divideResult h
  | lumul a b | lsmul a b => exact ends_multiplyResult h
  | udiv64 a b | sdiv64 a b => exact ends_divide64Result h
  | ldub a b | ldsb a b | lduh a b | ldsh a b | ldr a b => exact ends_loadInto h
  | stb a b | sth a b | str a b => exact ends_storeFrom rfl (by decide) h
  | cpyFromSpr a q => exact ends_retire ((BodyEffect.refl _ s).setReg a _) h
  | cpyToSpr q b | cpySprSpr q r => exact ends_retire ((BodyEffect.refl _ s).setSpr rfl _) h
  | lsrb a b | asrb a b | lsrh a b | asrh a b => exact ends_subwordResult h
  | ldrSpr q b | ldrSprSpr q r => exact ends_loadSpr rfl h
  | strSpr q b | strSprSpr q r => exact ends_storeSpr rfl h
  | icreload a k => exact ends_icreload h
  | icflush => exact ends_retire ((BodyEffect.refl _ s).withStale fun _ => rfl) h

end Sys2Proof.Machine
end

section
/-! The rules about every instruction and every step: who writes flags and memory, and the invariant of the machine. -/

namespace Sys2Proof.Machine

/-- Settles O12, from the endings of `exec_ends`: an instruction changes `flags` and memory in its body alone. -/
theorem whoWritesFlagsAndMemory : Obligations.WhoWritesFlagsAndMemory := by
  intro i s t h
  cases exec_ends h with
  | retired hu => exact ⟨hu.flags, fun hs a => congrArg (Memory.read · a) (hu.mem hs)⟩
  | jumped hu _ => exact ⟨hu.flags, fun hs a => congrArg (Memory.read · a) (hu.mem hs)⟩
  | interrupted _ => exact ⟨fun _ => rfl, fun _ _ => rfl⟩
  | latched _ _ _ => exact ⟨fun _ => rfl, fun _ _ => rfl⟩

/-! ## The invariant -/

/-- Bit 0 of a sum has no carry in. -/
theorem getLsbD_zero_add (a b : Word) : (a + b).getLsbD 0 = (a.getLsbD 0 ^^ b.getLsbD 0) := by
  rw [BitVec.getLsbD_add (by decide), BitVec.carry_zero, Bool.xor_false]

/-- The invariant's four parts. -/
theorem State.inv_iff {s : State} : s.inv = true ↔
    Memory.wf s.mem = true ∧ Stale.wf s.stale = true ∧ s.pc.getLsbD 0 = false ∧ s.pfx.wf = true := by
  simp [State.inv, and_assoc]

/-- Interrupt entry to an even `ids` keeps the invariant (R306). -/
theorem State.interrupted_inv {s : State} (hs : s.inv = true) (hids : s.ids.getLsbD 0 = false) (cause : Interrupt)
    (ret : Word) : (s.interrupted cause ret).inv = true := by
  obtain ⟨hm, hl, -, -⟩ := State.inv_iff.mp hs
  exact State.inv_iff.mpr ⟨hm, hl, hids, s.pfx.cleared_wf⟩

/-- Every ending keeps the invariant. -/
theorem Ends.inv {i : Instr} {s t : State} (h : Ends i s t) (hs : s.inv = true) : t.inv = true := by
  obtain ⟨hm, hl, hpc, hp⟩ := State.inv_iff.mp hs
  cases h with
  | @retired u hu =>
    have hnext : (u.pc + 2#32).getLsbD 0 = false := by rw [getLsbD_zero_add, hu.pc, hpc]; rfl
    exact State.inv_iff.mpr ⟨hu.memWf hm, hu.staleWf hl, hnext, u.pfx.cleared_wf⟩
  | @jumped u target hu ht => exact State.inv_iff.mpr ⟨hu.memWf hm, hu.staleWf hl, ht, u.pfx.cleared_wf⟩
  | interrupted hids => exact State.interrupted_inv hs hids _ _
  | @latched p bytes _ hb hp' =>
    have hnext : (s.pc + bytes).getLsbD 0 = false := by rw [getLsbD_zero_add, hpc, hb]; rfl
    exact State.inv_iff.mpr ⟨hm, hl, hnext, hp' hp⟩

/-- What a step that goes on is (R120): an interrupt entry, or an instruction that was fetched, past the boundary. -/
theorem step_next {s t : State} (h : step s = .next t) :
    (s.irqTaken = true ∧ takeInterrupt .irq s.pc s.pastBoundary = .next t)
      ∨ (s.irqTaken = false ∧ ∃ i, s.fetchInstr = .ok i ∧ exec i s.pastBoundary = .next t) := by
  unfold step at h
  split at h
  · exact .inl ⟨‹_›, h⟩
  · exact .inr ⟨Bool.eq_false_iff.mpr ‹_›, andThen_next h⟩

/-- Settles O9: a step is an interrupt entry or an instruction, and each ending keeps the invariant. -/
theorem stepKeepsInvariant : Obligations.StepKeepsInvariant := by
  intro s t hs h
  have hb : s.pastBoundary.inv = true := hs
  rcases step_next h with ⟨-, hirq⟩ | ⟨-, i, -, hi⟩
  · obtain ⟨hids, rfl⟩ := takeInterrupt_next.mp hirq
    exact State.interrupted_inv hb hids _ _
  · exact (exec_ends hi).inv hb

end Sys2Proof.Machine
end

section
/-! The special-purpose registers and the state after reset (R24 to R32, R41), and the units refused for a reserved
special-purpose register (R32). -/

namespace Sys2Proof.Machine

/-- Settles O10: the closed state after reset is evaluated. -/
theorem resetMeetsInvariant : Obligations.ResetMeetsInvariant := by
  unfold Obligations.ResetMeetsInvariant
  decide

theorem State.reset_reg (r : RegNum) : State.reset.reg r = 0#32 := by
  simp [State.reg, State.reset]

theorem State.reset_spr (q : Spr) : State.reset.spr q = 0#32 := by
  cases q <;> rfl

/-- Settles O11, register by register. -/
theorem resetState : Obligations.ResetState :=
  ⟨rfl, ⟨rfl, rfl⟩, rfl, State.reset_reg, State.reset_spr, rfl, fun _ => rfl⟩

/-! ## The special-purpose registers as words -/

/-- Writing back what a special-purpose register reads as changes nothing: it reads as its held bits (R31). -/
theorem State.setSpr_spr (s : State) (q : Spr) : s.setSpr q (s.spr q) = s := by
  cases q <;> simp only [State.setSpr, State.spr, Flags.ofWord_toWord, bitWord_getLsbD_zero]

theorem State.spr_and_heldBits (s : State) (q : Spr) : s.spr q &&& q.heldBits = s.spr q := by
  rw [← State.spr_setSpr_same, State.setSpr_spr]

/-- The bits outside the held ones read as zero (R31). -/
theorem State.spr_and_not_heldBits (s : State) (q : Spr) : s.spr q &&& ~~~q.heldBits = 0#32 := by
  rw [← State.spr_and_heldBits, BitVec.and_assoc, BitVec.and_not_self]
  exact BitVec.and_zero

/-- The places of Z, C, V, N in the word `flags` (R25). -/
theorem Flags.toWord_bits (f : Flags) : f.toWord.getLsbD 0 = f.z ∧ f.toWord.getLsbD 1 = f.c ∧ f.toWord.getLsbD 2 = f.v
    ∧ f.toWord.getLsbD 3 = f.n := by
  have h := Flags.ofWord_toWord f
  exact ⟨congrArg Flags.z h, congrArg Flags.c h, congrArg Flags.v h, congrArg Flags.n h⟩

/-- Settles O56: the reads through the held bits, each copy through the frame of the register it writes. -/
theorem sprCopies : Obligations.SprCopies := by
  intro s a b q r
  obtain ⟨hz, hc, hv, hn⟩ := s.flags.toWord_bits
  refine ⟨s.spr_and_not_heldBits q, hz, hc, hv, hn, ⟨_, rfl, ?_, frame_setReg s a (s.spr r)⟩,
    ⟨_, rfl, ?_, frame_setSpr s q (s.reg b)⟩, ⟨_, rfl, ?_, frame_setSpr s q (s.spr r)⟩⟩
  · simp
  · rw [State.retired_spr, State.spr_setSpr_same]
  · rw [State.retired_spr, State.spr_setSpr_same]

end Sys2Proof.Machine

namespace Sys2Proof

/-! ## Units refused for their special-purpose register (R32) -/

/-- A field is refused exactly when it names none of the six registers. -/
theorem Spr.ofField_error {n : BitVec 4} : Spr.ofField n = .error .reservedSpr ↔ 6 ≤ n.toNat := by
  revert n
  decide

theorem Spr.ofField_eq_error {n : BitVec 4} {e : DecodeError} (h : Spr.ofField n = .error e) : e = .reservedSpr := by
  cases e with
  | reservedSpr => rfl
  | reservedEncoding => revert n; decide

theorem withSpr_refused {n : BitVec 4} {mk : Spr → Instr} :
    withSpr n mk = .error .reservedSpr ↔ 6 ≤ n.toNat := by
  rw [← Spr.ofField_error, withSpr]
  cases Spr.ofField n <;> simp

theorem withSprs_refused {m n : BitVec 4} {mk : Spr → Spr → Instr} :
    withSprs m n mk = .error .reservedSpr ↔ 6 ≤ m.toNat ∨ 6 ≤ n.toNat := by
  cases hm : Spr.ofField m with
  | ok r =>
    have hlt : ¬6 ≤ m.toNat := by rw [← Spr.ofField_error, hm]; simp
    simp [withSprs, hm, withSpr_refused, hlt]
  | error e =>
    obtain rfl := Spr.ofField_eq_error hm
    simp [withSprs, hm, Spr.ofField_error.mp hm]

/-- The high byte of a unit is its group above its bits 12:8. -/
theorem highByte_eq (u : InstrUnit) :
    (u.extractLsb' 8 8).toNat = 32 * (fieldGroup u).toNat + (u.extractLsb' 8 5).toNat := by
  simp only [fieldGroup, BitVec.extractLsb'_toNat, Nat.shiftRight_eq_div_pow]
  omega

/-! Only groups 4 and 7 have special-purpose register fields: the refusals of the others are of reserved encodings. -/

theorem decodeGroup0_ne_reservedSpr (idx : Bool) (u u2 : InstrUnit) : decodeGroup0 idx u u2 ≠ .error .reservedSpr := by
  unfold decodeGroup0
  repeat' split
  all_goals simp

theorem decodeGroup2_ne_reservedSpr (u : InstrUnit) : decodeGroup2 u ≠ .error .reservedSpr := by
  unfold decodeGroup2
  split <;> simp

theorem decodeGroup5_ne_reservedSpr (u : InstrUnit) : decodeGroup5 u ≠ .error .reservedSpr := by
  unfold decodeGroup5
  repeat' split
  all_goals simp

/-- Group 4 (R88): `push`, `pop` and the copies of special-purpose registers. -/
theorem decodeGroup4_refused {u : InstrUnit} {o : BitVec 5} (ho : u.extractLsb' 8 5 = o) :
    decodeGroup4 u = .error .reservedSpr ↔
      ((o = 0x07#5 ∨ o = 0x09#5 ∨ o = 0x1D#5) ∧ 6 ≤ (fieldA u).toNat) ∨ (o = 0x1C#5 ∧ 6 ≤ (fieldB u).toNat)
        ∨ (o = 0x1E#5 ∧ (6 ≤ (fieldA u).toNat ∨ 6 ≤ (fieldB u).toNat)) := by
  unfold decodeGroup4
  rw [ho]
  dsimp only
  split
  case h_30 => simp_all
  all_goals simp [withSpr_refused, withSprs_refused]

/-- Group 7 (R92): the loads and stores of special-purpose registers. -/
theorem decodeGroup7_refused {u : InstrUnit} {o : BitVec 5} (ho : u.extractLsb' 8 5 = o) :
    decodeGroup7 u = .error .reservedSpr ↔
      ((o = 0x08#5 ∨ o = 0x0A#5) ∧ 6 ≤ (fieldA u).toNat)
        ∨ ((o = 0x09#5 ∨ o = 0x0B#5) ∧ (6 ≤ (fieldA u).toNat ∨ 6 ≤ (fieldB u).toNat)) := by
  unfold decodeGroup7
  rw [ho]
  dsimp only
  split
  case h_13 => split <;> simp
  case h_14 => simp_all
  all_goals simp [withSpr_refused, withSprs_refused]

/-- The policy on unused fields adds no refusal for a special-purpose register (R105). -/
theorem decodeUnits_refused (p : UnusedFieldPolicy) (idx : Bool) (u u2 : InstrUnit) :
    decodeUnits p idx u u2 = .error .reservedSpr ↔ decodeBase idx u u2 = .error .reservedSpr := by
  unfold decodeUnits
  cases decodeBase idx u u2 with
  | error e => rfl
  | ok i => dsimp only; split <;> simp

theorem decodeBase_refused (idx : Bool) (u u2 : InstrUnit) :
    decodeBase idx u u2 = .error .reservedSpr ↔
      (fieldGroup u = 4#3 ∧ decodeGroup4 u = .error .reservedSpr)
        ∨ (fieldGroup u = 7#3 ∧ decodeGroup7 u = .error .reservedSpr) := by
  unfold decodeBase
  split
  case h_8 => simp_all
  all_goals simp [decodeGroup0_ne_reservedSpr, decodeGroup2_ne_reservedSpr, decodeGroup5_ne_reservedSpr, *]

/-- Settles O4: the units of groups 4 and 7 with `sA` and `sB` fields, named by their high bytes. -/
theorem reservedSprFields : Obligations.ReservedSprFields := by
  intro p idx u u2
  dsimp only
  rw [decodeUnits_refused, decodeBase_refused, decodeGroup4_refused rfl, decodeGroup7_refused rfl, highByte_eq]
  generalize fieldGroup u = g, u.extractLsb' 8 5 = o, fieldA u = a, fieldB u = b
  bv_omega

end Sys2Proof
end

section
/-! The flags (R33 to R35): what the forms of group 2 and the compares write, as relations of numbers, and what follows for
two-word arithmetic and for a branch after `cmp`. -/

namespace Sys2Proof.Machine

/-! ## One instruction -/

/-- Any instruction that ends by writing a sum and all four flags (R33, R160). -/
theorem sumResult_writes {s : State} {x : Instr} {a : RegNum} {p q : Word} {cin : Bool}
    (hx : exec x s = sumResult true a (addWithCarry p q cin) s) :
    ∃ t, exec x s = .next t ∧ t.reg a = p + q + bitWord cin
      ∧ (t.flags.z = true ↔ t.reg a = 0#32)
      ∧ (t.flags.c = true ↔ 2 ^ 32 ≤ p.toNat + q.toNat + cin.toNat)
      ∧ (t.flags.v = true ↔ ¬(-2 ^ 31 ≤ p.toInt + q.toInt + cin.toNat ∧ p.toInt + q.toInt + cin.toNat < 2 ^ 31))
      ∧ (t.flags.n = true ↔ (t.reg a).toInt < 0)
      ∧ Frame [a] [.flags] s t ∧ EndsAtNext s t := by
  let r := addWithCarry p q cin
  have hreg : ((s.setReg a r.1).setFlags r.2).retired.reg a = r.1 := by simp
  refine ⟨((s.setReg a r.1).setFlags r.2).retired, hx, ?_, ?_, addWithCarry_c p q cin, addWithCarry_v p q cin, ?_,
    frame_setRegFlags s a r.1 r.2⟩
  · rw [hreg, addWithCarry_result]
  · rw [hreg]; exact addWithCarry_z p q cin
  · rw [hreg]; exact addWithCarry_n p q cin

/-- Settles O30: each form is a sum with its own operands and carry in, a subtraction one with the complement. -/
theorem sumsWithFlags : Obligations.SumsWithFlags := by
  intro s a b
  exact ⟨sumResult_writes rfl, sumResult_writes rfl, sumResult_writes rfl, sumResult_writes rfl, sumResult_writes rfl,
    sumResult_writes rfl⟩

/-- Any instruction that ends by writing a result and Z and N (R34, R160). -/
theorem bitsResult_writes {s : State} {x : Instr} {a : RegNum} {v : Word} (hx : exec x s = bitsResult true a v s) :
    ∃ t, exec x s = .next t ∧ t.reg a = v ∧ (t.flags.z = true ↔ v = 0#32) ∧ (t.flags.n = true ↔ v.toInt < 0)
      ∧ t.flags.c = s.flags.c ∧ t.flags.v = s.flags.v ∧ Frame [a] [.flags] s t ∧ EndsAtNext s t :=
  ⟨_, hx, by simp, beq_iff_eq, msb_iff_toInt_neg v, rfl, rfl, frame_setRegFlags s a v _⟩

/-- Settles O31: each form is a `bitsResult` of its own value. -/
theorem bitsWithFlags : Obligations.BitsWithFlags := by
  intro s a b
  exact ⟨bitsResult_writes rfl, bitsResult_writes rfl, bitsResult_writes rfl, bitsResult_writes rfl,
    bitsResult_writes rfl, bitsResult_writes rfl, bitsResult_writes rfl⟩

/-- Any instruction that ends by writing the flags of a subtraction, at any width (R33, R165, R270, R271). -/
theorem compare_writes {n : Nat} {s : State} {x : Instr} {p q : BitVec (n + 1)}
    (hx : exec x s = compareResult (subtract p q).2 s) :
    ∃ t, exec x s = .next t
      ∧ (t.flags.z = true ↔ p = q)
      ∧ (t.flags.c = true ↔ q.toNat ≤ p.toNat)
      ∧ (t.flags.n ≠ t.flags.v ↔ p.toInt < q.toInt)
      ∧ (t.flags.v = true ↔ ¬(-2 ^ n ≤ p.toInt - q.toInt ∧ p.toInt - q.toInt < 2 ^ n))
      ∧ (t.flags.n = true ↔ (p - q).toInt < 0)
      ∧ Frame [] [.flags] s t ∧ EndsAtNext s t := by
  obtain ⟨hz, hc, hnv, hv, hn⟩ := subtract_flags p q
  exact ⟨_, hx, hz, hc, hnv, hv, hn, frame_setFlags s _⟩

/-- Settles O32: `cmp`, and `cmp` with an immediate where R99 does not refuse it. -/
theorem compareFlags : Obligations.CompareFlags := by
  intro s a b i
  refine ⟨compare_writes (n := 31) rfl, fun hu => compare_writes (n := 31) ?_⟩
  simp only [exec, execCmpImm, withImmediate, hu, compareResult, Bool.false_eq_true, if_false]

/-- Settles O33: R33's four flags of the sum with the complement, Z held together with the old one. -/
theorem compareWithBorrow : Obligations.CompareWithBorrow := by
  intro s a b
  let r := addWithCarry (s.reg a) (~~~s.reg b) s.flags.c
  have hr : r.1 = s.reg a + ~~~s.reg b + bitWord s.flags.c := addWithCarry_result _ _ _
  have hz : (s.flags.z && r.2.z) = true ↔ s.flags.z = true ∧ r.1 = 0#32 := by
    rw [Bool.and_eq_true, addWithCarry_z]
  have hn : r.2.n = true ↔ r.1.toInt < 0 := addWithCarry_n _ _ _
  rw [hr] at hz hn
  exact ⟨_, rfl, hz, addWithCarry_c _ _ _, addWithCarry_v _ _ _, hn, frame_setFlags s _⟩

/-- The compares of sub-words, of which nothing is stated about V alone. -/
theorem subwordCompare_writes {n : Nat} {s : State} {x : Instr} {p q : BitVec (n + 1)}
    (hx : exec x s = compareResult (subtract p q).2 s) :
    ∃ t, exec x s = .next t
      ∧ (t.flags.z = true ↔ p = q)
      ∧ (t.flags.c = true ↔ q.toNat ≤ p.toNat)
      ∧ (t.flags.n ≠ t.flags.v ↔ p.toInt < q.toInt)
      ∧ (t.flags.n = true ↔ (p - q).toInt < 0)
      ∧ Frame [] [.flags] s t ∧ EndsAtNext s t := by
  obtain ⟨t, ht, hz, hc, hnv, -, hn, hframe⟩ := compare_writes hx
  exact ⟨t, ht, hz, hc, hnv, hn, hframe⟩

/-- Settles O57: the same subtraction at 8 and at 16 bits. -/
theorem subwordCompares : Obligations.SubwordCompares := by
  intro s a b
  exact ⟨subwordCompare_writes (n := 7) rfl, subwordCompare_writes (n := 15) rfl⟩

/-! ## Two words -/

theorem toNat_append_words (h l : Word) : (h ++ l : DWord).toNat = 2 ^ 32 * h.toNat + l.toNat := by
  rw [BitVec.toNat_append, ← Nat.shiftLeft_add_eq_or_of_lt l.isLt, Nat.shiftLeft_eq, Nat.mul_comm]

theorem msb_append_words (h l : Word) : (h ++ l : DWord).msb = h.msb :=
  BitVec.msb_append.trans (if_neg (by decide))

/-- The sum of two numbers of two words each is that of the low words, then that of the high words with the low sum's
carry in; C, V and N are those of the high sum, Z is the Z of both (R173 to R175). -/
theorem addWithCarry_append (h k l m : Word) (c : Bool) :
    let lo := addWithCarry l m c
    let hi := addWithCarry h k lo.2.c
    addWithCarry (h ++ l : DWord) (k ++ m : DWord) c = (hi.1 ++ lo.1, { hi.2 with z := lo.2.z && hi.2.z }) := by
  intro lo hi
  let both := addWithCarry (h ++ l : DWord) (k ++ m : DWord) c
  have hlow : lo.1.toNat + 2 ^ 32 * lo.2.c.toNat = l.toNat + m.toNat + c.toNat := by
    have hc : c.toNat ≤ 1 := Bool.toNat_le c
    simp only [lo, addWithCarry, BitVec.toNat_ofNat]
    by_cases ho : 2 ^ 32 ≤ l.toNat + m.toNat + c.toNat
    · simp only [ho, decide_true, Bool.toNat_true]; omega
    · simp only [ho, decide_false, Bool.toNat_false]; omega
  have hsum : both.1 = hi.1 ++ lo.1 := by
    apply BitVec.eq_of_toNat_eq
    rw [toNat_append_words]
    simp only [both, hi, addWithCarry, BitVec.toNat_ofNat, toNat_append_words]
    have := lo.1.isLt
    omega
  have hc : both.2.c = hi.2.c := by
    simp only [both, hi, addWithCarry, toNat_append_words, decide_eq_decide]
    have := lo.1.isLt
    omega
  have hz : both.2.z = (lo.2.z && hi.2.z) := by
    rw [Bool.eq_iff_iff, Bool.and_eq_true, addWithCarry_z, addWithCarry_z, addWithCarry_z]
    change both.1 = 0#64 ↔ lo.1 = 0#32 ∧ hi.1 = 0#32
    rw [hsum]
    simp only [BitVec.toNat_eq, toNat_append_words, BitVec.toNat_ofNat]
    omega
  have hmsb : both.1.msb = hi.1.msb := hsum ▸ msb_append_words hi.1 lo.1
  have hv : both.2.v = hi.2.v := by
    change ((h ++ l : DWord).msb == (k ++ m : DWord).msb && both.1.msb != (h ++ l : DWord).msb) = _
    rw [hmsb, msb_append_words, msb_append_words]
    rfl
  have hn : both.2.n = hi.2.n := hmsb
  change both = _
  exact Prod.ext hsum (by rw [Flags.mk.injEq]; exact ⟨hz, hc, hv, hn⟩)

theorem addWithCarry_sum {w : Nat} (a b : BitVec w) : (addWithCarry a b false).1 = a + b := by
  apply BitVec.eq_of_toNat_eq
  simp [addWithCarry]

theorem subtract_difference {w : Nat} (a b : BitVec w) : (subtract a b).1 = a - b := by
  apply BitVec.eq_of_toNat_eq
  have hb := b.isLt
  simp only [subtract, addWithCarry, BitVec.toNat_ofNat, BitVec.toNat_sub, BitVec.toNat_not, Bool.toNat_true]
  congr 1
  omega

/-- An instruction that writes the low sum to `l` with its flags, then one that writes the high sum to `h` with the carry:
the two registers hold the sum of the two-word numbers. `f` is the identity or, for a difference, the complement. -/
theorem twoWordSum {s : State} {l h k : RegNum} {x y : Instr} {m : Word} {f : Word → Word} {c : Bool} (hlh : l ≠ h)
    (hlk : l ≠ k) (hx : exec x s = sumResult true l (addWithCarry (s.reg l) m c) s)
    (hy : ∀ t : State, exec y t = sumResult false h (addWithCarry (t.reg h) (f (t.reg k)) t.flags.c) t) :
    ∃ t u, exec x s = .next t ∧ exec y t = .next u
      ∧ (u.reg h ++ u.reg l : DWord) = (addWithCarry (s.reg h ++ s.reg l : DWord) (f (s.reg k) ++ m : DWord) c).1 := by
  let lo := addWithCarry (s.reg l) m c
  let t := ((s.setReg l lo.1).setFlags lo.2).retired
  let hi := addWithCarry (t.reg h) (f (t.reg k)) t.flags.c
  have hth : t.reg h = s.reg h := State.reg_setReg_other s l h lo.1 hlh.symm
  have htk : t.reg k = s.reg k := State.reg_setReg_other s l k lo.1 hlk.symm
  have htl : t.reg l = lo.1 := State.reg_setReg_same s l lo.1
  have hul : (t.setReg h hi.1).retired.reg l = lo.1 := (State.reg_setReg_other t h l hi.1 hlh).trans htl
  have huh : (t.setReg h hi.1).retired.reg h = hi.1 := State.reg_setReg_same t h hi.1
  refine ⟨t, (t.setReg h hi.1).retired, hx, hy t, ?_⟩
  rw [hul, huh, addWithCarry_append]
  simp only [hi, hth, htk]
  rfl

/-- `cmp` of the low words, then `cmpbc` of the high words: the flags of the two-word subtraction (R165, R175). -/
theorem compareWithBorrow_subtract (h k l m : Word) :
    (subtract l m).2.compareWithBorrow h k = (subtract (h ++ l : DWord) (k ++ m : DWord)).2 := by
  have hnot : ~~~(k ++ m : DWord) = ~~~k ++ ~~~m := BitVec.not_append
  rw [subtract, subtract, hnot, addWithCarry_append]
  rfl

/-- Settles O34: the low sum's carry makes the two sums one of 64 bits. -/
theorem twoWordArithmetic : Obligations.TwoWordArithmetic := by
  intro s l h m k
  refine ⟨fun hlh hlk => ⟨?_, ?_⟩, ?_⟩
  · rw [← addWithCarry_sum]
    exact twoWordSum (f := id) hlh hlk rfl fun _ => rfl
  · rw [← subtract_difference, subtract, BitVec.not_append]
    exact twoWordSum (f := (~~~·)) hlh hlk rfl fun _ => rfl
  · have hflags := compareWithBorrow_subtract (s.reg h) (s.reg k) (s.reg l) (s.reg m)
    obtain ⟨hz, hc, hnv, -, -⟩ := subtract_flags (n := 63) (s.reg h ++ s.reg l) (s.reg k ++ s.reg m)
    rw [← hflags] at hz hc hnv
    exact ⟨_, _, rfl, rfl, hz, hc, hnv⟩

/-! ## A branch after `cmp` -/

/-- The conditions of the branches after a comparison are the relations their names say, for the unsigned and for the
signed order (R183 to R196). -/
theorem subtract_conditions (p q : Word) :
    let f := (subtract p q).2
    (f.z = true ↔ p = q) ∧ ((!f.z) = true ↔ p ≠ q)
      ∧ (f.c = true ↔ q.toNat ≤ p.toNat) ∧ ((!f.c) = true ↔ p.toNat < q.toNat)
      ∧ (f.higher = true ↔ q.toNat < p.toNat) ∧ ((!f.c || f.z) = true ↔ p.toNat ≤ q.toNat)
      ∧ ((!f.less) = true ↔ q.toInt ≤ p.toInt) ∧ (f.less = true ↔ p.toInt < q.toInt)
      ∧ (f.greater = true ↔ q.toInt < p.toInt) ∧ ((f.less || f.z) = true ↔ p.toInt ≤ q.toInt) := by
  intro f
  obtain ⟨hz, hc, hnv, -, -⟩ := subtract_flags (n := 31) p q
  have hless : f.less = true ↔ p.toInt < q.toInt := by rw [← hnv, Flags.less, bne_iff_ne.symm]
  change (f.z = true ↔ _) at hz
  change (f.c = true ↔ _) at hc
  simp only [Flags.higher, Flags.greater, Bool.and_eq_true, Bool.or_eq_true, Bool.not_eq_true', ← Bool.not_eq_true, hz, hc,
    hless]
  by_cases hpq : p = q
  · simp [hpq]
  · have hnat : p.toNat ≠ q.toNat := mt BitVec.eq_of_toNat_eq hpq
    have hint : p.toInt ≠ q.toInt := mt BitVec.eq_of_toInt_eq hpq
    simp only [hpq, not_false_eq_true, and_true, or_false, true_and]
    omega

/-- The target of a branch by an even offset, from an even address with no `pre` or `lpre` in effect, is even (R54, R180). -/
theorem State.branchTarget_even {t : State} {k : BitVec 9} (hpc : t.pc.getLsbD 0 = false) (hk : evenOffset k = true)
    (hp : t.pfx.immInEffect = false) :
    t.branchTarget k = t.pc + 2#32 + k.signExtend 32 ∧ (t.branchTarget k).getLsbD 0 = false := by
  obtain ⟨hpre, hlpre⟩ : t.pfx.preHave = false ∧ t.pfx.lpreHave = false := by
    simpa [PrefixState.immInEffect] using hp
  have himm : t.immS k = k.signExtend 32 := by simp [State.immS, hpre, hlpre]
  have hbit : (k.signExtend 32).getLsbD 0 = false := by
    simpa [BitVec.getElem_signExtend, evenOffset] using hk
  rw [State.branchTarget, himm]
  refine ⟨by rw [BitVec.add_assoc, BitVec.add_comm (k.signExtend 32), BitVec.add_assoc], ?_⟩
  rw [getLsbD_zero_add, getLsbD_zero_add, hpc, hbit]
  rfl

/-- Any conditional branch in a state that has just ended an instruction, from an even address by an even offset (R180). -/
theorem branchIf_goes {s : State} {k : BitVec 9} (hpc : s.pc.getLsbD 0 = false) (hk : evenOffset k = true) {x : Instr}
    {c : Bool} {cond : Prop} (hx : exec x s.retired = branchIf c k s.retired) (hc : c = true ↔ cond) :
    ∃ u, exec x s.retired = .next u ∧ (cond → u.pc = s.pc + 4#32 + k.signExtend 32) ∧ (¬cond → u.pc = s.pc + 4#32) := by
  have hpc' : s.retired.pc.getLsbD 0 = false := by rw [State.retired_pc, getLsbD_zero_add, hpc]; rfl
  have hnext : s.retired.pc + 2#32 = s.pc + 4#32 := BitVec.add_assoc _ _ _
  obtain ⟨htarget, heven⟩ := State.branchTarget_even hpc' hk rfl
  rw [hx, ← hc]
  cases c with
  | true => exact ⟨_, jumpTo_next.mpr ⟨heven, rfl⟩, fun _ => hnext ▸ htarget, fun h => absurd rfl h⟩
  | false => exact ⟨_, rfl, nofun, fun _ => hnext⟩

/-- Settles O37: each branch reads a condition of `subtract_conditions` off the flags that `cmp` left. -/
theorem compareThenBranch : Obligations.CompareThenBranch := by
  intro s a b k hpc hk
  obtain ⟨heq, hne, hgeu, hltu, hgtu, hleu, hges, hlts, hgts, hles⟩ := subtract_conditions (s.reg a) (s.reg b)
  have goes := @branchIf_goes (s.setFlags (subtract (s.reg a) (s.reg b)).2) k hpc hk
  exact ⟨_, rfl, goes rfl heq, goes rfl hne, goes rfl hgeu, goes rfl hltu, goes rfl hgtu, goes rfl hleu, goes rfl hges,
    goes rfl hlts, goes rfl hgts, goes rfl hles⟩

end Sys2Proof.Machine
end

section
/-! The fetch and the step (R120): what `fetchUnit` answers, in the words of Safety.lean, that a second unit matters to
`lpre` alone, and from both what a step runs and where it stops. -/

namespace Sys2Proof

/-! ## The second unit -/

/-- The unit of an `lpre` by the fields the decoder looks at (R80, R81, R83). -/
theorem isLpre_iff (u : InstrUnit) :
    isLpre u = true ↔ fieldGroup u = 0b000#3 ∧ u.getLsbD 12 = true ∧ u.getLsbD 11 = false := by
  simp only [isLpre, fieldGroup, beq_iff_eq, ← BitVec.toNat_inj, BitVec.extractLsb'_toNat, BitVec.toNat_ofNat,
    Nat.shiftRight_eq_div_pow, BitVec.getLsbD, Nat.testBit_eq_decide_div_mod_eq, decide_eq_true_eq,
    decide_eq_false_iff_not]
  omega

/-- The units of an `lpre` decode under every policy and index state (R83). -/
theorem decodeUnits_lpre {u : InstrUnit} (h : isLpre u = true) (p : UnusedFieldPolicy) (idx : Bool) (u2 : InstrUnit) :
    decodeUnits p idx u u2 = .ok (.lpre ((u.extractLsb' 0 11).setWidth 27 <<< 16 ||| u2.setWidth 27)) := by
  obtain ⟨hg, h12, h11⟩ := (isLpre_iff u).mp h
  have hb : decodeBase idx u u2 = decodeGroup0 idx u u2 := by simp only [decodeBase, hg]
  simp only [decodeUnits, hb, decodeGroup0, h12, h11, Bool.true_eq_false, if_false, if_true, unusedMask,
    BitVec.and_zero, ne_eq, not_true_eq_false, and_false]

/-- Only an `lpre` reads the unit after its own (R80). -/
theorem decodeUnits_second {u : InstrUnit} (h : isLpre u = false) (p : UnusedFieldPolicy) (idx : Bool)
    (u2 : InstrUnit) : decodeUnits p idx u u2 = decodeUnits p idx u 0#16 := by
  have h0 : fieldGroup u = 0b000#3 → decodeGroup0 idx u u2 = decodeGroup0 idx u 0#16 := by
    intro hg
    by_cases h12 : u.getLsbD 12 = true
    · have h11 : u.getLsbD 11 = true := by
        by_contra h11
        exact absurd ((isLpre_iff u).mpr ⟨hg, h12, Bool.eq_false_iff.mpr h11⟩) (by simp [h])
      simp only [decodeGroup0, h12, h11, Bool.true_eq_false, if_false]
    · simp only [decodeGroup0, Bool.eq_false_iff.mpr h12, if_true]
  have hb : decodeBase idx u u2 = decodeBase idx u 0#16 := by
    unfold decodeBase
    split
    · next hg => exact h0 hg
    all_goals rfl
  rw [decodeUnits, hb, ← decodeUnits]

/-- A unit is its two bytes, the one at the lower address in the low half (R51, R53). -/
theorem unitOfBytes_eq_append (lo hi : Byte) : unitOfBytes lo hi = hi ++ lo := by
  rw [unitOfBytes, BitVec.append_def, BitVec.shiftLeftZeroExtend_eq, BitVec.setWidth'_eq]

end Sys2Proof

namespace Sys2Proof.Machine

/-! ## One unit -/

/-- A fetch at an odd address (R55). -/
theorem State.fetchUnit_odd {s : State} {a : Word} (ha : a.getLsbD 0 = true) :
    s.fetchUnit a = .error (.refused .misalignedPc) := by
  simp only [State.fetchUnit, ha, if_true]

/-- A fetch of two bytes that memory does not back (R60). -/
theorem State.fetchUnit_unbacked {s : State} {a : Word} {e : Stop} (ha : a.getLsbD 0 = false)
    (he : checkBacked s.plat.memMap a.toNat 2 = .error e) : s.fetchUnit a = .error e := by
  simp only [State.fetchUnit, ha, he, Bool.false_eq_true, if_false]

/-- A fetch from a possibly stale line (R63). -/
theorem State.fetchUnit_stale {s : State} {a : Word} (ha : a.getLsbD 0 = false)
    (hb : checkBacked s.plat.memMap a.toNat 2 = .ok ()) (hs : a.toNat / lineBytes ∈ s.stale) :
    s.fetchUnit a = .error (.refused .staleFetch) := by
  simp only [State.fetchUnit, ha, hb, List.contains_iff_mem.mpr hs, Bool.false_eq_true, if_false, if_true]

/-- The unit at `a` as its two bytes in memory (R53). -/
def State.unitAt (s : State) (a : Word) : InstrUnit := unitOfBytes (s.byte a.toNat) (s.byte (a.toNat + 1))

/-- Two bytes are backed when each is (R60). -/
theorem checkBacked_two {m : List Region} {a : Nat} (h0 : kindAt m a = some .memory)
    (h1 : kindAt m (a + 1) = some .memory) : checkBacked m a 2 = .ok () := by
  simp [checkBacked, h0, h1]

/-- A fetch that is performed gives the unit at its address (R53). -/
theorem State.fetchUnit_of_canFetch {s : State} {a : Word} (h : s.canFetch a) : s.fetchUnit a = .ok (s.unitAt a) := by
  obtain ⟨ha, h0, h1, hs⟩ := h
  rw [State.unitAt, unitOfBytes_eq_append]
  change _ = Except.ok (s.halfAt a)
  simp only [State.fetchUnit, ha, checkBacked_two h0 h1, List.contains_iff_mem, hs, Bool.false_eq_true, if_false,
    State.halfAt_eq_readLE]

/-! ## The instruction at `pc` -/

/-- The stop of the first unit's fetch is that of the instruction's. -/
theorem State.fetchInstr_first {s : State} {e : Stop} (h : s.fetchUnit s.pc = .error e) : s.fetchInstr = .error e := by
  simp only [State.fetchInstr, h]

/-- The second unit is fetched behind a valid `lpre` (R122). -/
theorem State.fetchSecond_lpre {s : State} {u : InstrUnit} (hu : isLpre u = true) (hi : s.pfx.immInEffect = false) :
    s.fetchSecond u = s.fetchUnit (s.pc + 2#32) := by
  simp [State.fetchSecond, hu, hi]

/-- An instruction of one unit, an invalid `lpre` included, fetches no other (R122). -/
theorem State.fetchSecond_none {s : State} {u : InstrUnit} (h : isLpre u = false ∨ s.pfx.immInEffect = true) :
    s.fetchSecond u = .ok 0#16 := by
  rcases h with h | h <;> simp [State.fetchSecond, h]

/-- The stop of the second unit's fetch is that of the instruction's (R122). -/
theorem State.fetchInstr_second {s : State} {e : Stop} (hf : s.canFetch s.pc)
    (h : s.fetchSecond (s.unitAt s.pc) = .error e) : s.fetchInstr = .error e := by
  simp only [State.fetchInstr, State.fetchUnit_of_canFetch hf, h]

/-- The units that were fetched decode. -/
theorem State.fetchInstr_ok {s : State} {u2 : InstrUnit} {i : Instr} (hf : s.canFetch s.pc)
    (h2 : s.fetchSecond (s.unitAt s.pc) = .ok u2)
    (hd : decodeUnits s.plat.unusedFields s.pfx.indexInEffect (s.unitAt s.pc) u2 = .ok i) : s.fetchInstr = .ok i := by
  simp only [State.fetchInstr, State.fetchUnit_of_canFetch hf, h2, hd]

/-- The units that were fetched are no instruction (R103, R32). -/
theorem State.fetchInstr_undecodable {s : State} {u2 : InstrUnit} {e : DecodeError} (hf : s.canFetch s.pc)
    (h2 : s.fetchSecond (s.unitAt s.pc) = .ok u2)
    (hd : decodeUnits s.plat.unusedFields s.pfx.indexInEffect (s.unitAt s.pc) u2 = .error e) :
    s.fetchInstr = .error (.refused (decodeRefusal e)) := by
  simp only [State.fetchInstr, State.fetchUnit_of_canFetch hf, h2, hd]

/-! ## The step -/

/-- Where no IRQ is taken a step is the instruction at `pc` (R120). -/
theorem step_of_not_taken {s : State} (h : s.irqTaken = false) :
    step s = andThen s.fetchInstr fun i => exec i s.pastBoundary := by
  simp only [step, h, Bool.false_eq_true, if_false, State.fetchInstr_pastBoundary]

/-- An `lpre` with a `pre` or `lpre` in effect is a NOP whatever its constant (R123). -/
theorem exec_lpre_invalid {s : State} (h : s.pfx.immInEffect = true) (c : BitVec 27) :
    exec (.lpre c) s = invalidPrefix s :=
  if_pos h

/-- Settles O6. A second unit counts only where it is fetched: other instructions do not read it, and an invalid `lpre`
is the same NOP for every constant. -/
theorem stepRunsDecoded : Obligations.StepRunsDecoded := by
  intro s i u next u2 hirq hpc hnext hd
  rw [step_of_not_taken hirq]
  cases hl : isLpre u with
  | false =>
    rw [decodeUnits_second hl] at hd
    rw [State.fetchInstr_ok hpc (State.fetchSecond_none (.inl hl)) hd, andThen_ok]
  | true =>
    cases hi : s.pfx.immInEffect with
    | false =>
      have h2 : s.fetchSecond u = .ok u2 :=
        (State.fetchSecond_lpre hl hi).trans (State.fetchUnit_of_canFetch (hnext hl hi))
      rw [State.fetchInstr_ok hpc h2 hd, andThen_ok]
    | true =>
      have h0 := decodeUnits_lpre hl s.plat.unusedFields s.pfx.indexInEffect 0#16
      rw [State.fetchInstr_ok hpc (State.fetchSecond_none (.inr hi)) h0, andThen_ok]
      cases (decodeUnits_lpre hl _ _ _).symm.trans hd
      have hi' : s.pastBoundary.pfx.immInEffect = true := hi
      rw [exec_lpre_invalid hi', exec_lpre_invalid hi']

/-- How a step stops at a fetch from the even address `x` that it comes to: the first byte that memory does not back
decides, and then the line (R60, R63; log 12). -/
theorem step_stops_at_fetch {s : State} {x : Word} (hx : x.getLsbD 0 = false)
    (hstep : ∀ e, s.fetchUnit x = .error e → step s = e.outcome) :
    let kind := kindAt s.plat.memMap
    (kind x.toNat = none → step s = .fault .unbackedAddress)
      ∧ (kind x.toNat = some .device → step s = .refused .deviceAccess)
      ∧ (kind x.toNat = some .memory → kind (x.toNat + 1) = none → step s = .fault .unbackedAddress)
      ∧ (kind x.toNat = some .memory → kind (x.toNat + 1) = some .device → step s = .refused .deviceAccess)
      ∧ (kind x.toNat = some .memory → kind (x.toNat + 1) = some .memory → x.toNat / lineBytes ∈ s.stale →
          step s = .refused .staleFetch) := by
  intro kind
  have stop : ∀ e, checkBacked s.plat.memMap x.toNat 2 = .error e → step s = e.outcome :=
    fun e he => hstep e (State.fetchUnit_unbacked hx he)
  obtain ⟨hnone0, hdev0⟩ := checkBacked_stop s.plat.memMap 2 x.toNat 0 (by decide) nofun
  have second (h0 : kind x.toNat = some .memory) :=
    checkBacked_stop s.plat.memMap 2 x.toNat 1 (by decide) fun j hj => Nat.lt_one_iff.mp hj ▸ h0
  exact ⟨fun h => stop _ (hnone0 h), fun h => stop _ (hdev0 h), fun h0 h => stop _ ((second h0).1 h),
    fun h0 h => stop _ ((second h0).2 h),
    fun h0 h1 hs => hstep _ (State.fetchUnit_stale hx (checkBacked_two h0 h1) hs)⟩

/-- Settles O7, unit by unit: the step stops as the fetch of the first unit, of the second, or the decoding does. -/
theorem stepRefusesFetch : Obligations.StepRefusesFetch := by
  intro s hirq kind u next stopsAt
  have stop : ∀ e, s.fetchInstr = .error e → step s = e.outcome := fun e he => by
    rw [step_of_not_taken hirq, he, andThen_error]
  have undecodable (hf : s.canFetch s.pc) (hl : isLpre u = false) {e : DecodeError}
      (hd : decodeUnits s.plat.unusedFields s.pfx.indexInEffect u 0#16 = .error e) :
      step s = .refused (decodeRefusal e) :=
    stop _ (State.fetchInstr_undecodable hf (State.fetchSecond_none (.inl hl)) hd)
  refine ⟨fun hodd => stop _ (State.fetchInstr_first (State.fetchUnit_odd hodd)),
    fun heven => step_stops_at_fetch heven fun e he => stop e (State.fetchInstr_first he), fun hf hl hi => ?_,
    fun hf hl => ⟨undecodable hf hl, undecodable hf hl⟩⟩
  have heven : next.getLsbD 0 = false := by rw [getLsbD_zero_add, hf.1]; rfl
  exact step_stops_at_fetch heven fun e he =>
    stop e (State.fetchInstr_second hf ((State.fetchSecond_lpre hl hi).trans he))

end Sys2Proof.Machine
end

section
/-! Data memory (20_memory.md R50 to R63): the condition of an access and how each instruction that makes one stops, the
next state of each that is performed, and from these what a store marks and what a later load reads. -/

namespace Sys2Proof.Machine

/-! ## The condition of an access -/

/-- MISALIGNED_DATA lets an access of `n` bytes at `a` through (R57). -/
def State.aligned (s : State) (a : Word) (n : Nat) : Prop := s.plat.misaligned = .perform ∨ a.toNat % n = 0

theorem State.not_aligned_iff {s : State} {a : Word} {n : Nat} :
    ¬s.aligned a n ↔ s.plat.misaligned = .refuse ∧ a.toNat % n ≠ 0 := by
  cases h : s.plat.misaligned <;> simp [State.aligned, h]

theorem State.checkData_misaligned {s : State} {a : Word} {n : Nat} (h : ¬s.aligned a n) :
    s.checkData a n = .error (.refused .misalignedData) :=
  if_pos (State.not_aligned_iff.mp h)

theorem State.checkData_wraps {s : State} {a : Word} {n : Nat} (h : s.aligned a n) (hw : addressSpace < a.toNat + n) :
    s.checkData a n = .error (.fault .accessWraps) := by
  rw [State.checkData, if_neg (mt State.not_aligned_iff.mpr (not_not.mpr h)), if_pos hw]

/-- An aligned access that does not wrap is left to MEMORY_MAP (R60). -/
theorem State.checkData_aligned {s : State} {a : Word} {n : Nat} (h : s.aligned a n)
    (hb : a.toNat + n ≤ addressSpace) : s.checkData a n = checkBacked s.plat.memMap a.toNat n := by
  rw [State.checkData, if_neg (mt State.not_aligned_iff.mpr (not_not.mpr h)), if_neg (not_lt.mpr hb)]

/-- Which accesses are performed (R50, R57, R60). -/
theorem State.canAccess_iff {s : State} {a : Word} {n : Nat} :
    s.canAccess a n ↔ s.aligned a n ∧ a.toNat + n ≤ addressSpace
      ∧ ∀ k, k < n → kindAt s.plat.memMap (a.toNat + k) = some .memory := by
  rw [State.canAccess, ← checkBacked_ok]
  by_cases ha : s.aligned a n
  · by_cases hb : a.toNat + n ≤ addressSpace
    · simp only [State.checkData_aligned ha hb, ha, hb, true_and]
    · simp [State.checkData_wraps ha (not_le.mp hb), hb]
  · simp [State.checkData_misaligned ha, ha]

/-- The access conditions read the parameters alone. -/
theorem State.canAccess_congr {s t : State} (h : t.plat = s.plat) {a : Word} {n : Nat} :
    t.canAccess a n ↔ s.canAccess a n := by
  rw [State.canAccess, State.checkData_congr h, ← State.canAccess]

/-! ## How an instruction stops -/

theorem andThen_load_stop {s : State} {a : Word} {n : Nat} {e : Stop} (h : s.checkData a n = .error e)
    (k : Word → Outcome) : andThen (s.load a n) k = e.outcome := by
  simp only [State.load, h, andThen_error]

theorem andThen_store_stop {s : State} {a : Word} {n : Nat} {e : Stop} (h : s.checkData a n = .error e) (v : Word)
    (k : State → Outcome) : andThen (s.store a n v) k = e.outcome := by
  simp only [State.store, h, andThen_error]

/-- Any instruction whose first act is an access of `n` bytes at `a`: which access is performed, and how the instruction
stops at another (R50, R57, R60, logs 4, 12). -/
theorem access_stops {s : State} {x : Instr} {a : Word} {n : Nat}
    (hx : ∀ e, s.checkData a n = .error e → exec x s = e.outcome) :
    (s.canAccess a n ↔ s.aligned a n ∧ a.toNat + n ≤ 2 ^ 32
        ∧ ∀ k, k < n → kindAt s.plat.memMap (a.toNat + k) = some .memory)
      ∧ (¬s.aligned a n → exec x s = .refused .misalignedData)
      ∧ (s.aligned a n → 2 ^ 32 < a.toNat + n → exec x s = .fault .accessWraps)
      ∧ (s.aligned a n → a.toNat + n ≤ 2 ^ 32 →
          ∀ k, k < n → (∀ j, j < k → kindAt s.plat.memMap (a.toNat + j) = some .memory) →
            (kindAt s.plat.memMap (a.toNat + k) = none → exec x s = .fault .unbackedAddress)
            ∧ (kindAt s.plat.memMap (a.toNat + k) = some .device → exec x s = .refused .deviceAccess)) := by
  refine ⟨State.canAccess_iff, fun h => hx _ (State.checkData_misaligned h),
    fun h hw => hx _ (State.checkData_wraps h hw), fun h hb k hk hj => ?_⟩
  obtain ⟨hnone, hdevice⟩ := checkBacked_stop s.plat.memMap n a.toNat k hk hj
  have hmap := State.checkData_aligned h hb
  exact ⟨fun hkind => hx _ (hmap.trans (hnone hkind)), fun hkind => hx _ (hmap.trans (hdevice hkind))⟩

/-- Settles O55: the first act of each instruction is a load or a store, and its stop is the instruction's. -/
theorem accessStops : Obligations.AccessStops := by
  intro s a b q r kind aligned stops
  have loads {x : Instr} {addr : Word} {n : Nat} {k : Word → Outcome} (hx : exec x s = andThen (s.load addr n) k) :
      stops x addr n :=
    access_stops fun _ he => hx.trans (andThen_load_stop he k)
  have stores {x : Instr} {addr v : Word} {n : Nat} {k : State → Outcome}
      (hx : exec x s = andThen (s.store addr n v) k) : stops x addr n :=
    access_stops fun _ he => hx.trans (andThen_store_stop he v k)
  exact ⟨loads rfl, loads rfl, loads rfl, loads rfl, loads rfl, stores rfl, stores rfl, stores rfl,
    fun hab => ⟨stores (if_neg hab), loads (if_neg hab)⟩, stores rfl, loads rfl, loads rfl, loads rfl, loads rfl,
    stores rfl, stores rfl, loads rfl, loads rfl, loads rfl⟩

/-! ## The instructions that store -/

theorem andThen_store_next {s t : State} {a v : Word} {n : Nat} {k : State → Outcome}
    (h : andThen (s.store a n v) k = .next t) : s.canAccess a n ∧ k (s.stored a n v) = .next t := by
  obtain ⟨u, hu, hk⟩ := andThen_next h
  obtain ⟨hc, rfl⟩ := State.store_ok.mp hu
  exact ⟨hc, hk⟩

theorem storeFrom_next {s t : State} {a b : RegNum} {n : Nat} (h : storeFrom a b n s = .next t) :
    s.canAccess (s.ea b) n ∧ t = (s.stored (s.ea b) n (s.reg a)).retired :=
  (andThen_store_next h).imp_right retire_next.mp

theorem pushWord_next {s t : State} {v : Word} {b : RegNum} (h : pushWord v b s = .next t) :
    s.canAccess (s.reg b) 4 ∧ t = ((s.stored (s.reg b) 4 v).setReg b (s.reg b - 4#32)).retired :=
  (andThen_store_next h).imp_right retire_next.mp

theorem storeSpr_next {s t : State} {q : Spr} {addr : Word} (h : storeSpr q addr s = .next t) :
    s.canAccess addr 4 ∧ t = (s.stored addr 4 (s.spr q)).retired :=
  (andThen_store_next h).imp_right retire_next.mp

/-- The locked exchange stores `x[b]` at `x[a]` and hands the old word to `rB` (R130). -/
theorem exchangeWord_next {s t : State} {a b : RegNum} (h : exchangeWord a b s = .next t) :
    s.canAccess (s.reg a) 4
      ∧ t = ((s.stored (s.reg a) 4 (s.reg b)).setReg b (Memory.readLE s.mem (s.reg a).toNat 4)).retired := by
  obtain ⟨old, hold, hk⟩ := andThen_next h
  obtain ⟨-, rfl⟩ := State.load_ok.mp hold
  exact (andThen_store_next hk).imp_right retire_next.mp

/-- A compare and exchange that finds the expected word stores `x[b]` at `x[a]` and sets Z (R131). -/
theorem compareExchangeWord_next_equal {s t : State} {a b : RegNum} (he : s.wordAt (s.reg a) = s.pfx.idxAval)
    (h : compareExchangeWord a b s = .next t) : s.canAccess (s.reg a) 4
      ∧ t = ((s.stored (s.reg a) 4 (s.reg b)).setFlags { s.flags with z := true }).retired := by
  obtain ⟨old, hold, hk⟩ := andThen_next h
  obtain ⟨-, rfl⟩ := State.load_ok.mp hold
  rw [if_pos ((s.wordAt_eq_readLE _).symm.trans he)] at hk
  exact (andThen_store_next hk).imp_right retire_next.mp

/-- Any state with the stale lines of a store of the `n` bytes from `a`: the lines marked, and the fetch that is refused
from the first and the last of them (R63). -/
theorem marks_of_stored {s t : State} {a v : Word} {n : Nat} (ht : t.stale = (s.stored a n v).stale) :
    MarksLines a n s t
      ∧ ∀ pc : Word, pc.getLsbD 0 = false → checkBacked t.plat.memMap pc.toNat 2 = .ok () →
          (pc.toNat / lineBytes = a.toNat / lineBytes ∨ pc.toNat / lineBytes = (a.toNat + n - 1) / lineBytes) →
            t.fetchUnit pc = .error (.refused .staleFetch) := by
  have hm : MarksLines a n s t := fun l => by rw [ht, State.stored_stale_mem, or_left_comm]
  refine ⟨hm, fun pc hpc hb hl => State.fetchUnit_stale hpc hb ((hm _).mpr ?_)⟩
  exact hl.imp_right .inl

/-- Settles O53: each form ends in a state whose stale lines are those of its store. -/
theorem storesMarkLines : Obligations.StoresMarkLines := by
  intro s t a b q r marks
  have narrow {n : Nat} (h : storeFrom a b n s = .next t) :=
    marks_of_stored (a := s.ea b) (v := s.reg a) (congrArg State.stale (storeFrom_next h).2 :)
  have push {v : Word} (h : pushWord v b s = .next t) :=
    marks_of_stored (a := s.reg b) (v := v) (congrArg State.stale (pushWord_next h).2 :)
  have spr {addr : Word} (h : storeSpr q addr s = .next t) :=
    marks_of_stored (a := addr) (v := s.spr q) (congrArg State.stale (storeSpr_next h).2 :)
  have exchange (h : exchangeWord a b s = .next t) :=
    marks_of_stored (a := s.reg a) (v := s.reg b) (congrArg State.stale (exchangeWord_next h).2 :)
  have compareExchange (he : s.wordAt (s.reg a) = s.pfx.idxAval) (h : compareExchangeWord a b s = .next t) :=
    marks_of_stored (a := s.reg a) (v := s.reg b) (congrArg State.stale (compareExchangeWord_next_equal he h).2 :)
  exact ⟨narrow, narrow, narrow, fun hab h => push ((if_neg hab).symm.trans h), push, spr, spr, exchange,
    fun he => ⟨compareExchange he, compareExchange he⟩⟩

/-! ## Loads behind a store -/

theorem loadInto_of_canAccess {s : State} {a b : RegNum} {n : Nat} {ext : Word → Word} (h : s.canAccess (s.ea b) n) :
    loadInto a b n ext s = .next (s.setReg a (ext (Memory.readLE s.mem (s.ea b).toNat n))).retired := by
  rw [loadInto, State.load_of_canAccess h, andThen_ok, retire]

/-- A pop that is performed hands on the word at the new stack pointer (R208). -/
theorem popWord_of_canAccess {s : State} {b : RegNum} {k : Word → State → Outcome}
    (h : s.canAccess (s.reg b + 4#32) 4) :
    popWord b s k = k (s.wordAt (s.reg b + 4#32)) (s.setReg b (s.reg b + 4#32)) := by
  rw [popWord, State.load_of_canAccess h, andThen_ok, State.wordAt_eq_readLE]

/-- The word of a store that is performed (R52). -/
theorem State.stored_wordAt {s : State} {a v : Word} (hm : Memory.wf s.mem = true) (h : s.canAccess a 4) :
    (s.stored a 4 v).wordAt a = v := by
  rw [State.wordAt_eq_readLE, State.stored_mem, Memory.readLE_writeLE (State.checkData_bound h) hm]

/-- The address of byte `k` of an access that is performed does not wrap (R50). -/
theorem State.canAccess_toNat_add {s : State} {a : Word} {n k : Nat} (h : s.canAccess a n) (hk : k < n) :
    (a + BitVec.ofNat 32 k).toNat = a.toNat + k := by
  have hb := State.checkData_bound h
  rw [addressSpace] at hb
  rw [BitVec.toNat_add, BitVec.toNat_ofNat, Nat.add_mod_mod, Nat.mod_eq_of_lt (by omega)]

/-- Each byte of an access that is performed can be accessed alone (R57, R60). -/
theorem State.canAccess_byte {s : State} {a : Word} {n k : Nat} (h : s.canAccess a n) (hk : k < n) :
    s.canAccess (a + BitVec.ofNat 32 k) 1 := by
  have hadd := State.canAccess_toNat_add h hk
  obtain ⟨-, hb, hmap⟩ := State.canAccess_iff.mp h
  refine State.canAccess_iff.mpr ⟨.inr (Nat.mod_one _), by omega, fun j hj => ?_⟩
  obtain rfl : j = 0 := by omega
  rw [hadd]
  exact hmap k hk

/-- A read of one byte, as `ldub` extends it (R231). -/
theorem Memory.readLE_one (m : List Host.Cell) (a : Nat) :
    ((Memory.readLE m a 1).setWidth 8).setWidth 32 = (Memory.read m a).setWidth 32 := by
  simp [Memory.readLE]

/-- `ldr` behind a store of a word at `a` (R52, R235). -/
theorem ldr_after_store {s : State} {a v : Word} {c d : RegNum} (hm : Memory.wf s.mem = true) (hc : s.canAccess a 4)
    (hd : s.reg d = a) : ∃ u, exec (.ldr c d) (s.stored a 4 v).retired = .next u ∧ u.reg c = v := by
  have hea : (s.stored a 4 v).retired.ea d = a := hd
  have hl : (s.stored a 4 v).retired.canAccess ((s.stored a 4 v).retired.ea d) 4 := by
    rw [hea]
    exact (State.canAccess_congr rfl).mpr hc
  refine ⟨_, loadInto_of_canAccess hl, ?_⟩
  rw [State.retired_reg, State.reg_setReg_same, hea, ← State.wordAt_eq_readLE]
  exact State.stored_wordAt hm hc

/-- `ldub` of byte `k` behind a store of a word at `a` (R52, R231). -/
theorem ldub_after_store {s : State} {a v : Word} {c d : RegNum} {k : Nat} (hm : Memory.wf s.mem = true)
    (hc : s.canAccess a 4) (hk : k < 4) (hd : s.reg d = a + BitVec.ofNat 32 k) :
    ∃ u, exec (.ldub c d) (s.stored a 4 v).retired = .next u ∧ u.reg c = (v.extractLsb' (8 * k) 8).setWidth 32 := by
  have hea : (s.stored a 4 v).retired.ea d = a + BitVec.ofNat 32 k := hd
  have hl : (s.stored a 4 v).retired.canAccess ((s.stored a 4 v).retired.ea d) 1 := by
    rw [hea]
    exact (State.canAccess_congr rfl).mpr (State.canAccess_byte hc hk)
  refine ⟨_, loadInto_of_canAccess hl, ?_⟩
  rw [State.retired_reg, State.reg_setReg_same, hea, State.canAccess_toNat_add hc hk, Memory.readLE_one]
  exact congrArg (BitVec.setWidth 32) (State.stored_byte hc hm hk)

/-- A pop behind a push on the same stack (R206, R208). -/
theorem pop_after_push {s : State} {v : Word} {b c : RegNum} (hm : Memory.wf s.mem = true)
    (hc : s.canAccess (s.reg b) 4) (hcb : c ≠ b) :
    ∃ u, exec (.pop c b) ((s.stored (s.reg b) 4 v).setReg b (s.reg b - 4#32)).retired = .next u
      ∧ u.reg c = v ∧ u.reg b = s.reg b := by
  let t := ((s.stored (s.reg b) 4 v).setReg b (s.reg b - 4#32)).retired
  have hsp : t.reg b + 4#32 = s.reg b := by
    rw [State.retired_reg, State.reg_setReg_same, BitVec.sub_add_cancel]
  have hl : t.canAccess (t.reg b + 4#32) 4 := hsp ▸ (State.canAccess_congr rfl).mpr hc
  have hv : t.wordAt (s.reg b) = v := State.stored_wordAt hm hc
  refine ⟨_, (if_neg hcb).trans (popWord_of_canAccess hl), ?_, ?_⟩
  · rw [State.retired_reg, State.reg_setReg_same, hsp, hv]
  · rw [State.retired_reg, State.reg_setReg_other _ _ _ _ hcb.symm, State.reg_setReg_same, hsp]

/-- Settles O54: the loads and the pop on the state that the store or the push is inverted to. -/
theorem loadAfterStore : Obligations.LoadAfterStore := by
  intro s t a b c d hm
  refine ⟨fun h => ?_, fun hab hcb h => ?_⟩
  · obtain ⟨hc, rfl⟩ := storeFrom_next h
    exact ⟨fun hd => ldr_after_store hm hc hd, fun k hk hd => ldub_after_store hm hc hk hd⟩
  · obtain ⟨hc, rfl⟩ := pushWord_next ((if_neg hab).symm.trans h)
    exact pop_after_push hm hc hcb

end Sys2Proof.Machine
end

section
/-! Control transfers to an odd address (R55, D15). -/

namespace Sys2Proof.Machine

theorem jumpTo_odd {target : Word} (h : target.getLsbD 0 = true) (s : State) :
    jumpTo target s = .refused .misalignedPc :=
  if_pos h

/-- Any instruction that R99 does not refuse and that then goes to an odd address. -/
theorem withImmediate_jumpTo_odd {s u : State} {target : Word} (hu : s.pfx.usedByIndex = false)
    (h : target.getLsbD 0 = true) : withImmediate s (jumpTo target u) = .refused .misalignedPc := by
  simp only [withImmediate, hu, Bool.false_eq_true, if_false, jumpTo_odd h]

/-- Any branch whose condition holds, as the branches of R182 to R196 state it. -/
theorem branchIf_odd {s : State} {i : BitVec 9} {c cond : Bool} (hu : s.pfx.usedByIndex = false)
    (h : (s.branchTarget i).getLsbD 0 = true) (hcond : c = cond) (hc : cond = true) :
    branchIf c i s = .refused .misalignedPc := by
  rw [hcond, hc]
  exact withImmediate_jumpTo_odd hu h

/-- R193 as an equality of N and V. -/
theorem Flags.not_less (f : Flags) : (!f.less) = (f.n == f.v) :=
  Bool.not_not _

/-- Settles O39, control transfer by control transfer. -/
theorem oddTargetsRefused : Obligations.OddTargetsRefused := by
  intro s a b i
  refine ⟨fun hu ht => ?_, fun ha => ⟨jumpTo_odd ha _, jumpTo_odd ha _⟩,
    fun hi => ⟨jumpTo_odd hi _, jumpTo_odd hi _⟩,
    fun hl hv => (popWord_of_canAccess hl).trans (jumpTo_odd hv _)⟩
  have taken {c cond : Bool} (hcond : c = cond) := branchIf_odd hu ht hcond
  have hless := s.flags.not_less
  intro f
  simp only [List.forall_mem_cons]
  refine ⟨fun _ => withImmediate_jumpTo_odd hu ht, fun _ => taken rfl rfl, taken rfl, taken rfl, taken rfl,
    taken rfl, taken rfl, taken rfl, taken rfl, taken rfl, taken rfl, taken rfl, taken hless, taken rfl,
    taken (congrArg (· && !f.z) hless), taken rfl, nofun⟩

end Sys2Proof.Machine
end

section
/-! A unit and its fields (R81 to R94, R100): a unit is rebuilt from its fields, format by format. Decoding read backwards
(R101, R105) rests on it: where unused fields must be zero, a unit is the encoding of what it decodes to. -/

namespace Sys2Proof

/-! ## Fields within a unit -/

/-- A field within a field. -/
theorem extractLsb'_within (u : InstrUnit) {lo n k m : Nat} (h : k + m ≤ n) :
    (u.extractLsb' lo n).extractLsb' k m = u.extractLsb' (lo + k) m := by
  apply BitVec.eq_of_getLsbD_eq
  intro j hj
  have hkj : k + j < n := by omega
  simp only [BitVec.getLsbD_extractLsb', hj, hkj, decide_true, Bool.true_and, Nat.add_assoc]

/-- A field by its top bit and the rest. -/
theorem extractLsb'_eq_cons {u : InstrUnit} {lo n : Nat} {f : Bool} {o : BitVec n} (hf : u.getLsbD (lo + n) = f)
    (ho : u.extractLsb' lo n = o) : u.extractLsb' lo (n + 1) = BitVec.cons f o := by
  subst hf ho
  apply BitVec.eq_of_getLsbD_eq
  intro j hj
  rw [BitVec.getLsbD_cons, BitVec.getLsbD_extractLsb', BitVec.getLsbD_extractLsb']
  by_cases hjn : j = n
  · simp [hjn]
  · have hlt : j < n := by omega
    simp [hjn, hj, hlt]

/-- A unit is its group, its bits 12:8 and its two 4-bit fields (R81, R100). -/
theorem unit_ext {u v : InstrUnit} (hg : fieldGroup u = fieldGroup v) (ho : u.extractLsb' 8 5 = v.extractLsb' 8 5)
    (hb : fieldB u = fieldB v) (ha : fieldA u = fieldA v) : u = v := by
  have parts (x : InstrUnit) : (fieldGroup x ++ (x.extractLsb' 8 5 ++ (fieldB x ++ fieldA x)) : InstrUnit) = x := by
    simp only [fieldGroup, fieldA, fieldB, BitVec.extractLsb'_append_extractLsb'_eq_extractLsb',
      BitVec.extractLsb'_eq_self]
  rw [← parts u, ← parts v, hg, ho, hb, ha]

/-- The same with bits 12:4 as one field (R87). -/
theorem unit_ext_wide {u v : InstrUnit} (hg : fieldGroup u = fieldGroup v)
    (hi : u.extractLsb' 4 9 = v.extractLsb' 4 9) (ha : fieldA u = fieldA v) : u = v := by
  have parts (x : InstrUnit) : (fieldGroup x ++ (x.extractLsb' 4 9 ++ fieldA x) : InstrUnit) = x := by
    simp only [fieldGroup, fieldA, BitVec.extractLsb'_append_extractLsb'_eq_extractLsb', BitVec.extractLsb'_eq_self]
  rw [← parts u, ← parts v, hg, hi, ha]

/-! ## A unit rebuilt, format by format -/

/-- A unit with the group and the bits 12:8 of `base` is `base` with the unit's own fields. -/
theorem unitAB_fields {u base : InstrUnit} {a b : BitVec 4} (hg : fieldGroup u = fieldGroup base)
    (ho : u.extractLsb' 8 5 = base.extractLsb' 8 5) (ha : fieldA u = a) (hb : fieldB u = b)
    (hba : base.extractLsb' 0 4 = 0#4 := by rfl) (hbb : base.extractLsb' 4 4 = 0#4 := by rfl) : unitAB base a b = u :=
  unit_ext ((fieldGroup_unitAB base a b).trans hg.symm) ((extract_unitAB_high base a b (by decide)).trans ho.symm)
    ((fieldB_unitAB base a b hbb).trans hb.symm) ((fieldA_unitAB base a b hba).trans ha.symm)

theorem unitG1_fields {u : InstrUnit} {o a : BitVec 4} (hg : fieldGroup u = 0b001#3) (ho : fieldB u = o)
    (ha : fieldA u = a) : unitG1 o a (u.extractLsb' 8 5) = u :=
  unit_ext (by simp [hg]) (by simp) (by simp [ho]) (by simp [ha])

theorem unitG3_fields {u : InstrUnit} {o : BitVec 4} (hg : fieldGroup u = 0b011#3) (ho : fieldA u = o) :
    unitG3 o (u.extractLsb' 4 9) = u :=
  unit_ext_wide (by simp [hg]) (by simp) (by simp [ho])

theorem unitG5RI_fields {u : InstrUnit} (hg : fieldGroup u = 0b101#3) (h12 : u.getLsbD 12 = true)
    (h11 : u.getLsbD 11 = false) : unitG5RI (fieldA u) (u.extractLsb' 4 7) = u := by
  refine unit_ext_wide (by simp [hg]) ?_ (by simp)
  rw [extractLsb'_eq_cons (n := 8) h12 (extractLsb'_eq_cons (n := 7) h11 rfl),
    extractLsb'_eq_cons (n := 8) (bit12_unitG5RI _ _)
      (extractLsb'_eq_cons (n := 7) (bit11_unitG5RI _ _) (fieldI_unitG5RI _ _))]

theorem fieldB_unitG7C (a : RegNum) (i : BitVec 5) : fieldB (unitG7C a i) = i.extractLsb' 0 4 := by
  rw [fieldB, ← extractLsb'_within (unitG7C a i) (lo := 4) (n := 5) (k := 0) (by decide), fieldI_unitG7C]

theorem unitG7C_fields {u : InstrUnit} (hg : fieldGroup u = 0b111#3)
    (ho : u.extractLsb' 8 5 = 0b01100#5 ∨ u.extractLsb' 8 5 = 0b01101#5) :
    unitG7C (fieldA u) (u.extractLsb' 4 5) = u := by
  have h8 : (u.extractLsb' 4 5).getLsbD 4 = (u.extractLsb' 8 5).getLsbD 0 := by simp
  refine unit_ext (by simp [hg]) ?_ ?_ (by simp)
  · rw [subgroup_unitG7C, h8]
    rcases ho with ho | ho <;> rw [ho] <;> rfl
  · rw [fieldB_unitG7C, extractLsb'_within u (by decide), fieldB]

theorem pre_fields {u : InstrUnit} (hg : fieldGroup u = 0b000#3) (h12 : u.getLsbD 12 = false) :
    (u.extractLsb' 0 12).setWidth 16 = u := by
  apply unit_ext_wide
  · rw [fieldGroup_pre, hg]
  · apply BitVec.eq_of_getLsbD_eq
    intro j hj
    interval_cases j <;> simp_all
  · apply BitVec.eq_of_getLsbD_eq
    intro j hj
    interval_cases j <;> simp [fieldA]

/-- Both units of an `lpre` from its constant (R83). -/
theorem lpre_fields {u u2 : InstrUnit} (hg : fieldGroup u = 0b000#3) (h12 : u.getLsbD 12 = true)
    (h11 : u.getLsbD 11 = false) :
    let i : BitVec 27 := (u.extractLsb' 0 11).setWidth 27 <<< 16 ||| u2.setWidth 27
    0x1000#16 ||| (i.extractLsb' 16 11).setWidth 16 = u ∧ i.extractLsb' 0 16 = u2 := by
  intro i
  constructor
  · apply unit_ext_wide
    · rw [fieldGroup_lpre, hg]
    · apply BitVec.eq_of_getLsbD_eq
      intro j hj
      interval_cases j <;> simp_all [i]
    · apply BitVec.eq_of_getLsbD_eq
      intro j hj
      interval_cases j <;> simp [i, fieldA]
  · apply BitVec.eq_of_getLsbD_eq
    intro j hj
    interval_cases j <;> simp [i]

/-- The one unit of `icflush` (R94). -/
theorem icflush_fields {u : InstrUnit} (hg : fieldGroup u = 0b111#3) (ho : u.extractLsb' 8 5 = 0b01110#5)
    (hlow : u.extractLsb' 0 8 = 0x00#8) : 0xEE00#16 = u := by
  have ha : fieldA u = 0#4 := by
    rw [fieldA, ← extractLsb'_within u (lo := 0) (n := 8) (k := 0) (by decide), hlow]; rfl
  have hb : fieldB u = 0#4 := by
    rw [fieldB, ← extractLsb'_within u (lo := 0) (n := 8) (k := 4) (by decide), hlow]; rfl
  exact unit_ext hg.symm ho.symm hb.symm ha.symm

/-! ## Fields that name a special-purpose register, and unused ones -/

theorem Spr.toField_of_ofField {n : BitVec 4} {r : Spr} (h : Spr.ofField n = .ok r) : n = r.toField := by
  revert n
  cases r <;> decide

theorem withSpr_ok {n : BitVec 4} {mk : Spr → Instr} {i : Instr} (h : withSpr n mk = .ok i) :
    ∃ r : Spr, n = r.toField ∧ i = mk r := by
  unfold withSpr at h
  split at h
  · next r hr => exact ⟨r, Spr.toField_of_ofField hr, (Except.ok.inj h).symm⟩
  · cases h

theorem withSprs_ok {m n : BitVec 4} {mk : Spr → Spr → Instr} {i : Instr} (h : withSprs m n mk = .ok i) :
    ∃ q r : Spr, m = q.toField ∧ n = r.toField ∧ i = mk q r := by
  unfold withSprs at h
  split at h
  · next q hq =>
    obtain ⟨r, hr, hi⟩ := withSpr_ok h
    exact ⟨q, r, Spr.toField_of_ofField hq, hr, hi⟩
  · cases h

/-- A 4-bit field that the mask of unused bits covers is zero where unused bits must be (R105). -/
theorem field_of_unused {u : InstrUnit} (m : InstrUnit) (h : u &&& m = 0#16) (lo : Nat)
    (hm : m.extractLsb' lo 4 = 0xF#4) : u.extractLsb' lo 4 = 0#4 := by
  have hand : u.extractLsb' lo 4 &&& m.extractLsb' lo 4 = (u &&& m).extractLsb' lo 4 := BitVec.extractLsb'_and.symm
  rw [hm, h, BitVec.extractLsb'_zero] at hand
  exact BitVec.and_allOnes.symm.trans hand

theorem fieldA_of_unused {u : InstrUnit} (m : InstrUnit) (h : u &&& m = 0#16)
    (hm : m.extractLsb' 0 4 = 0xF#4 := by rfl) : fieldA u = 0#4 :=
  field_of_unused m h 0 hm

theorem fieldB_of_unused {u : InstrUnit} (m : InstrUnit) (h : u &&& m = 0#16)
    (hm : m.extractLsb' 4 4 = 0xF#4 := by rfl) : fieldB u = 0#4 :=
  field_of_unused m h 4 hm

/-! ## Decoding read backwards -/

/-- This index state reads the instruction (R102), and the unit is the first one of its encoding. -/
def IsReading (idx : Bool) (u : InstrUnit) (i : Instr) : Prop := i.readWhen idx = true ∧ encodeUnit i = u

theorem decodeGroup0_reading {idx : Bool} {u u2 : InstrUnit} {i : Instr} (hg : fieldGroup u = 0b000#3)
    (h : decodeGroup0 idx u u2 = .ok i) : IsReading idx u i := by
  unfold decodeGroup0 at h
  split at h
  case isTrue h12 =>
    cases h
    exact ⟨rfl, pre_fields hg h12⟩
  case isFalse h12 =>
  have h12 := Bool.eq_true_of_not_eq_false h12
  split at h
  case isTrue h11 =>
    cases h
    exact ⟨rfl, (lpre_fields hg h12 h11).1⟩
  case isFalse h11 =>
  have h11 := Bool.eq_true_of_not_eq_false h11
  split at h
  case h_3 => cases h
  all_goals
    rename_i ho
    have hop := extractLsb'_eq_cons h12 (extractLsb'_eq_cons h11 ho)
    cases idx <;> (cases h; exact ⟨rfl, unitAB_fields hg (hop.trans rfl) rfl rfl⟩)

theorem decodeGroup1_reading {idx : Bool} {u : InstrUnit} (hg : fieldGroup u = 0b001#3)
    (hu : u &&& unusedMask (decodeGroup1 u) = 0#16) : IsReading idx u (decodeGroup1 u) := by
  unfold decodeGroup1 at hu ⊢
  dsimp only at hu ⊢
  split at hu
  case h_16 =>
    have ho : fieldB u = 0xF#4 := by
      simp only [imp_false] at *
      bv_omega
    exact ⟨rfl, unitG1_fields hg ho (fieldA_of_unused 0x000F#16 hu)⟩
  all_goals
    rename_i ho
    exact ⟨rfl, unitG1_fields hg ho rfl⟩

theorem decodeGroup2_reading {idx : Bool} {u : InstrUnit} {i : Instr} (hg : fieldGroup u = 0b010#3)
    (h : decodeGroup2 u = .ok i) (hu : u &&& unusedMask i = 0#16) : IsReading idx u i := by
  unfold decodeGroup2 at h
  dsimp only at h
  split at h
  case h_16 => cases h
  case h_5 ho | h_15 ho =>
    cases h
    have hu : u &&& 0x1000#16 = 0#16 := hu
    have hf : u.getLsbD 12 = false := by simpa using congrArg (fun x => x.getLsbD 12) hu
    exact ⟨rfl, unitAB_fields hg ((extractLsb'_eq_cons hf ho).trans rfl) rfl rfl⟩
  all_goals
    rename_i ho
    cases hf : u.getLsbD 12 <;>
      (rw [hf] at h; cases h; exact ⟨rfl, unitAB_fields hg ((extractLsb'_eq_cons hf ho).trans rfl) rfl rfl⟩)

theorem decodeGroup3_reading {idx : Bool} {u : InstrUnit} (hg : fieldGroup u = 0b011#3) :
    IsReading idx u (decodeGroup3 u) := by
  unfold decodeGroup3
  dsimp only
  split
  case h_16 =>
    have ho : fieldA u = 0xF#4 := by
      simp only [imp_false] at *
      bv_omega
    exact ⟨rfl, unitG3_fields hg ho⟩
  all_goals
    rename_i ho
    exact ⟨rfl, unitG3_fields hg ho⟩

theorem decodeGroup4_reading {idx : Bool} {u : InstrUnit} {i : Instr} (hg : fieldGroup u = 0b100#3)
    (h : decodeGroup4 u = .ok i) (hu : u &&& unusedMask i = 0#16) : IsReading idx u i := by
  unfold decodeGroup4 at h
  dsimp only at h
  split at h
  case h_1 ho | h_2 ho =>
    cases h
    exact ⟨rfl, unitAB_fields hg ho rfl (fieldB_of_unused 0x00F0#16 hu)⟩
  case h_3 ho | h_4 ho | h_5 ho | h_6 ho =>
    cases h
    exact ⟨rfl, unitAB_fields hg ho (fieldA_of_unused 0x00FF#16 hu) (fieldB_of_unused 0x00FF#16 hu)⟩
  case h_11 ho =>
    cases h
    exact ⟨rfl, unitAB_fields hg ho (fieldA_of_unused 0x000F#16 hu) rfl⟩
  case h_8 ho | h_10 ho | h_28 ho =>
    obtain ⟨r, hr, rfl⟩ := withSpr_ok h
    exact ⟨rfl, unitAB_fields hg ho hr rfl⟩
  case h_27 ho =>
    obtain ⟨r, hr, rfl⟩ := withSpr_ok h
    exact ⟨rfl, unitAB_fields hg ho rfl hr⟩
  case h_29 ho =>
    obtain ⟨q, r, hq, hr, rfl⟩ := withSprs_ok h
    exact ⟨rfl, unitAB_fields hg ho hq hr⟩
  case h_30 => cases h
  all_goals
    rename_i ho
    cases h
    exact ⟨rfl, unitAB_fields hg ho rfl rfl⟩

theorem decodeGroup5_reading {idx : Bool} {u : InstrUnit} {i : Instr} (hg : fieldGroup u = 0b101#3)
    (h : decodeGroup5 u = .ok i) : IsReading idx u i := by
  unfold decodeGroup5 at h
  split at h
  case isTrue h12 =>
    split at h
    case h_1 ho =>
      cases h
      exact ⟨rfl, unitAB_fields hg ((extractLsb'_eq_cons h12 ho).trans rfl) rfl rfl⟩
    case h_2 => cases h
  case isFalse h12 =>
    split at h
    case isTrue h11 =>
      cases h
      exact ⟨rfl, unitG5RI_fields hg (Bool.eq_true_of_not_eq_false h12) h11⟩
    case isFalse => cases h

theorem decodeGroup7_reading {idx : Bool} {u : InstrUnit} {i : Instr} (hg : fieldGroup u = 0b111#3)
    (h : decodeGroup7 u = .ok i) : IsReading idx u i := by
  unfold decodeGroup7 at h
  dsimp only at h
  split at h
  case h_7 ho | h_9 ho =>
    obtain ⟨r, hr, rfl⟩ := withSpr_ok h
    exact ⟨rfl, unitAB_fields hg ho hr rfl⟩
  case h_8 ho | h_10 ho =>
    obtain ⟨q, r, hq, hr, rfl⟩ := withSprs_ok h
    exact ⟨rfl, unitAB_fields hg ho hq hr⟩
  case h_11 ho =>
    cases h
    exact ⟨rfl, unitG7C_fields hg (.inl ho)⟩
  case h_12 ho =>
    cases h
    exact ⟨rfl, unitG7C_fields hg (.inr ho)⟩
  case h_13 ho =>
    split at h
    case h_1 hlow =>
      cases h
      exact ⟨rfl, icflush_fields hg ho hlow⟩
    case h_2 => cases h
  case h_14 => cases h
  all_goals
    rename_i ho
    cases h
    exact ⟨rfl, unitAB_fields hg ho rfl rfl⟩

theorem decodeBase_reading {idx : Bool} {u u2 : InstrUnit} {i : Instr} (h : decodeBase idx u u2 = .ok i)
    (hu : u &&& unusedMask i = 0#16) : IsReading idx u i := by
  unfold decodeBase at h
  split at h
  case h_1 hg => exact decodeGroup0_reading hg h
  case h_2 hg =>
    cases h
    exact decodeGroup1_reading hg hu
  case h_3 hg => exact decodeGroup2_reading hg h hu
  case h_4 hg =>
    cases h
    exact decodeGroup3_reading hg
  case h_5 hg => exact decodeGroup4_reading hg h hu
  case h_6 hg => exact decodeGroup5_reading hg h
  case h_7 hg => exact decodeGroup7_reading hg h
  case h_8 => cases h

/-- What the strict policy accepts (R105). -/
theorem decodeUnits_refuse_ok {idx : Bool} {u u2 : InstrUnit} {i : Instr} (h : decodeUnits .refuse idx u u2 = .ok i) :
    decodeBase idx u u2 = .ok i ∧ u &&& unusedMask i = 0#16 := by
  unfold decodeUnits at h
  cases hb : decodeBase idx u u2 with
  | error e => simp [hb] at h
  | ok x =>
    simp only [hb] at h
    split at h
    case isTrue => cases h
    case isFalse hu =>
      cases h
      exact ⟨rfl, by simpa using hu⟩

/-- Settles O2, group by group; the second unit is the low half of the constant of an `lpre`. -/
theorem encodeOfDecode : Obligations.EncodeOfDecode := by
  intro idx u u2 i h
  obtain ⟨hb, hu⟩ := decodeUnits_refuse_ok h
  obtain ⟨hidx, henc⟩ := decodeBase_reading hb hu
  refine ⟨hidx, henc, fun hl => ?_⟩
  obtain ⟨hg, h12, h11⟩ := (isLpre_iff u).mp hl
  obtain rfl := Except.ok.inj (h.symm.trans (decodeUnits_lpre hl .refuse idx u2))
  exact (lpre_fields hg h12 h11).2

end Sys2Proof
end

section
/-! Every instruction is read back from its own bytes (R80 to R105): its fields from each format, its units under either
policy, its bytes by the length that the first unit tells. -/

namespace Sys2Proof

theorem getElem_unitAB_high (base : InstrUnit) (a b : BitVec 4) {j : Nat} (h : 8 ≤ j) (hj : j < 16) :
    (unitAB base a b)[j] = base[j] := by
  rw [← BitVec.getLsbD_eq_getElem, getLsbD_unitAB_high base a b h, BitVec.getLsbD_eq_getElem]

/-- The decoder of R101 undoes the encoding, format by format. -/
theorem decodeBase_encode {idx : Bool} {i : Instr} (h : i.readWhen idx = true) :
    decodeBase idx (encodeUnit i) (encodeUnit2 i) = .ok i := by
  cases i with
  | pre k => simp [encodeUnit, encode, decodeBase, decodeGroup0]
  | lpre k => simp [encodeUnit, encodeUnit2, encode, decodeBase, decodeGroup0, fieldGroup_lpre, field_lpre]
  | xchg a b | xchgL a b | cmpxchg a b | cmpxchgL a b =>
    simp only [Instr.readWhen, Bool.not_eq_true'] at h
    simp [encodeUnit, encode, decodeBase, decodeGroup0, fieldGroup, extract_unitAB_high, getElem_unitAB_high,
      fieldA_unitAB, fieldB_unitAB, h]
  | addImm a k | addPc a k | addSp a k | addFp a k | cmpImm a k | cpyImm a k | lslImm a k | lsrImm a k | asrImm a k
  | andImm a k | orrImm a k | xorImm a k | ze a k | se a k | swiReg a k | swi k =>
    simp [encodeUnit, encode, decodeBase, decodeGroup1]
  | bl k | bra k | beq k | bne k | bmi k | bpl k | bvs k | bvc k | bgeu k | bltu k | bgtu k | bleu k | bges k | blts k
  | bgts k | bles k =>
    simp [encodeUnit, encode, decodeBase, decodeGroup3]
  | indexImm a k =>
    simp only [encodeUnit, encode, List.getD_cons_zero, decodeBase, fieldGroup_unitG5RI, decodeGroup5, bit12_unitG5RI,
      bit11_unitG5RI, fieldA_unitG5RI, fieldI_unitG5RI, Bool.true_eq_false, if_true, if_false]
  | icreload a k =>
    simp only [encodeUnit, encode, List.getD_cons_zero, decodeBase, fieldGroup_unitG7C, decodeGroup7, subgroup_unitG7C,
      fieldA_unitG7C, fieldI_unitG7C]
    cases k.getLsbD 4 <;> rfl
  | icflush => rfl
  | _ => -- the formats of groups 2, 4, 5 and 7 with fields `b` and `a`
    simp [encodeUnit, encode, decodeBase, decodeGroup2, decodeGroup4, decodeGroup5, decodeGroup7, fieldGroup,
      extract_unitAB_high, getElem_unitAB_high, fieldA_unitAB, fieldB_unitAB]

/-- Unused fields are written as zero (R105). -/
theorem encodeUnit_and_unusedMask (i : Instr) : encodeUnit i &&& unusedMask i = 0#16 := by
  cases i with
  | jl a => exact unitAB_and_mask 0x8000#16 0x00F0#16 a 0#4 rfl (.inl rfl) (.inr rfl)
  | jmp a => exact unitAB_and_mask 0x8100#16 0x00F0#16 a 0#4 rfl (.inl rfl) (.inr rfl)
  | popPc b => exact unitAB_and_mask 0x8A00#16 0x000F#16 0#4 b rfl (.inr rfl) (.inl rfl)
  | cmp a b => exact unitAB_and_mask 0x4400#16 0x1000#16 a b rfl (.inl rfl) (.inl rfl)
  | cmpbc a b => exact unitAB_and_mask 0x4E00#16 0x1000#16 a b rfl (.inl rfl) (.inl rfl)
  | swi k => exact unitG1_unused 0xF#4 k
  | jmpIra | reti | ei | di => rfl
  | _ => exact BitVec.and_zero

theorem decodeUnits_encode (p : UnusedFieldPolicy) {idx : Bool} {i : Instr} (h : i.readWhen idx = true) :
    decodeUnits p idx (encodeUnit i) (encodeUnit2 i) = .ok i := by
  simp only [decodeUnits, decodeBase_encode h, encodeUnit_and_unusedMask, ne_eq, not_true_eq_false, and_false, if_false]

/-! ## Bytes -/

open Laws.EncodedUnits in
/-- The length of every encoding, which its first unit tells (R80). -/
theorem encodedUnits (i : Instr) : Statement i := by
  cases i with
  | pre k => exact Laws.EncodedUnits.pre k
  | lpre k => exact Laws.EncodedUnits.lpre k
  | addImm | addPc | addSp | addFp | cmpImm | cpyImm | lslImm | lsrImm | asrImm | andImm | orrImm | xorImm | ze | se
  | swiReg | swi | bl | bra | beq | bne | bmi | bpl | bvs | bvc | bgeu | bltu | bgtu | bleu | bges | blts | bgts | bles
  | indexImm | icreload => exact of_one_unit rfl (not_isLpre_of_group (by simp))
  | icflush => exact Laws.EncodedUnits.icflush
  | _ => exact unitAB_units rfl (by decide)

theorem decodeBytes_one {p : UnusedFieldPolicy} {idx : Bool} {u : InstrUnit} {i : Instr} (hl : isLpre u = false)
    (h : decodeUnits p idx u 0#16 = .ok i) (rest : List Byte) :
    decodeBytes p idx (bytesOfUnit u ++ rest) = .ok (i, rest) := by
  simp [decodeBytes, bytesOfUnit, hl, h]

theorem decodeBytes_two {p : UnusedFieldPolicy} {idx : Bool} {u u2 : InstrUnit} {i : Instr} (hl : isLpre u = true)
    (h : decodeUnits p idx u u2 = .ok i) (rest : List Byte) :
    decodeBytes p idx (bytesOfUnit u ++ (bytesOfUnit u2 ++ rest)) = .ok (i, rest) := by
  simp [decodeBytes, bytesOfUnit, hl, h]

/-- Settles O1: the units are read back, and the first one tells how many there are. -/
theorem decodeOfEncode : Obligations.DecodeOfEncode := by
  intro p idx i rest h
  have hu := decodeUnits_encode p h
  obtain ⟨hlen, hl⟩ := encodedUnits i
  unfold encodeUnit at hu hl
  unfold encodeUnit2 at hu
  unfold encodeBytes
  rcases hlen with h1 | h2
  · obtain ⟨u, he⟩ := List.length_eq_one_iff.mp h1
    rw [he] at hu hl ⊢
    have hone : isLpre u = false := by simpa using hl
    simpa using decodeBytes_one hone hu rest
  · obtain ⟨u, u2, he⟩ := List.length_eq_two.mp h2
    rw [he] at hu hl ⊢
    have htwo : isLpre u = true := by simpa using hl
    simpa using decodeBytes_two htwo hu rest

end Sys2Proof
end

section
/-! The reserved encodings (R103, R242), group by group in the bits 12:8 of the unit. -/

namespace Sys2Proof

/-! A reserved special-purpose register is no reserved encoding (R32). -/

theorem withSpr_ne_reservedEncoding (n : BitVec 4) (mk : Spr → Instr) :
    withSpr n mk ≠ .error .reservedEncoding := by
  unfold withSpr
  cases hn : Spr.ofField n with
  | ok r => simp
  | error e => simp [Spr.ofField_eq_error hn]

theorem withSprs_ne_reservedEncoding (m n : BitVec 4) (mk : Spr → Spr → Instr) :
    withSprs m n mk ≠ .error .reservedEncoding := by
  unfold withSprs
  cases hm : Spr.ofField m with
  | ok r => exact withSpr_ne_reservedEncoding n (mk r)
  | error e => simp [Spr.ofField_eq_error hm]

/-! The parts of bits 12:8 that groups 0, 2 and 5 look at. -/

theorem getLsbD_twelve (u : InstrUnit) : u.getLsbD 12 = (u.extractLsb' 8 5).getLsbD 4 := by simp

theorem getLsbD_eleven (u : InstrUnit) : u.getLsbD 11 = (u.extractLsb' 8 5).getLsbD 3 := by simp

theorem extractLsb'_eight_four (u : InstrUnit) : u.extractLsb' 8 4 = (u.extractLsb' 8 5).extractLsb' 0 4 :=
  (extractLsb'_within u (by decide : 0 + 4 ≤ 5)).symm

theorem extractLsb'_eight_three (u : InstrUnit) : u.extractLsb' 8 3 = (u.extractLsb' 8 5).extractLsb' 0 3 :=
  (extractLsb'_within u (by decide : 0 + 3 ≤ 5)).symm

/-- Group 0 (R82 to R84): the words above those of the atomics. -/
theorem decodeGroup0_reserved {idx : Bool} {u u2 : InstrUnit} :
    decodeGroup0 idx u u2 = .error .reservedEncoding ↔ 0x1A ≤ (u.extractLsb' 8 5).toNat := by
  unfold decodeGroup0
  rw [getLsbD_twelve, getLsbD_eleven, extractLsb'_eight_three]
  generalize u.extractLsb' 8 5 = o
  repeat' split
  all_goals
    simp only [reduceCtorEq, false_iff, true_iff]
    revert o
    decide

/-- Group 2 (R86): opcode 0xf with either `f`. -/
theorem decodeGroup2_reserved {u : InstrUnit} :
    decodeGroup2 u = .error .reservedEncoding ↔ u.extractLsb' 8 5 = 0x0F#5 ∨ u.extractLsb' 8 5 = 0x1F#5 := by
  have hop : u.extractLsb' 8 5 = 0x0F#5 ∨ u.extractLsb' 8 5 = 0x1F#5 ↔ u.extractLsb' 8 4 = 0xF#4 := by
    rw [extractLsb'_eight_four]
    generalize u.extractLsb' 8 5 = o
    revert o
    decide
  rw [hop]
  unfold decodeGroup2
  generalize u.extractLsb' 8 4 = o
  dsimp only
  split
  case h_16 =>
    simp only [true_iff, imp_false] at *
    bv_omega
  all_goals simp

/-- Group 4 (R88, R242). -/
theorem decodeGroup4_reserved {u : InstrUnit} :
    decodeGroup4 u = .error .reservedEncoding ↔
      u.extractLsb' 8 5 = 0x17#5 ∨ u.extractLsb' 8 5 = 0x1B#5 ∨ u.extractLsb' 8 5 = 0x1F#5 := by
  unfold decodeGroup4
  generalize u.extractLsb' 8 5 = o
  dsimp only
  split
  case h_30 =>
    simp only [true_iff, imp_false] at *
    bv_omega
  all_goals simp [withSpr_ne_reservedEncoding, withSprs_ne_reservedEncoding]

/-- Group 5 (R89, R90, R104): both forms of `index` have bits that must be zero. -/
theorem decodeGroup5_reserved {u : InstrUnit} :
    decodeGroup5 u = .error .reservedEncoding ↔
      (0x01 ≤ (u.extractLsb' 8 5).toNat ∧ (u.extractLsb' 8 5).toNat ≤ 0x0F) ∨ 0x18 ≤ (u.extractLsb' 8 5).toNat := by
  unfold decodeGroup5
  rw [getLsbD_twelve, getLsbD_eleven, extractLsb'_eight_four]
  generalize u.extractLsb' 8 5 = o
  repeat' split
  all_goals
    simp only [reduceCtorEq, false_iff, true_iff]
    revert o
    decide

/-- Group 7 (R91 to R94): the gaps between the subgroups, and `icflush` with a low byte that is not zero. -/
theorem decodeGroup7_reserved {u : InstrUnit} :
    decodeGroup7 u = .error .reservedEncoding ↔
      u.extractLsb' 8 5 = 0x03#5 ∨ u.extractLsb' 8 5 = 0x07#5
        ∨ (u.extractLsb' 8 5 = 0x0E#5 ∧ u.extractLsb' 0 8 ≠ 0x00#8) ∨ 0x0F ≤ (u.extractLsb' 8 5).toNat := by
  unfold decodeGroup7
  generalize u.extractLsb' 8 5 = o
  dsimp only
  split
  case h_13 => split <;> simp_all
  case h_14 =>
    simp only [true_iff, imp_false] at *
    bv_omega
  all_goals simp [withSpr_ne_reservedEncoding, withSprs_ne_reservedEncoding]

/-- Groups 1 and 3 are full, group 6 is empty (R101). -/
theorem decodeBase_reserved (idx : Bool) (u u2 : InstrUnit) :
    decodeBase idx u u2 = .error .reservedEncoding ↔
      (fieldGroup u = 0#3 ∧ decodeGroup0 idx u u2 = .error .reservedEncoding)
        ∨ (fieldGroup u = 2#3 ∧ decodeGroup2 u = .error .reservedEncoding)
        ∨ (fieldGroup u = 4#3 ∧ decodeGroup4 u = .error .reservedEncoding)
        ∨ (fieldGroup u = 5#3 ∧ decodeGroup5 u = .error .reservedEncoding)
        ∨ fieldGroup u = 6#3
        ∨ (fieldGroup u = 7#3 ∧ decodeGroup7 u = .error .reservedEncoding) := by
  unfold decodeBase
  split
  case h_8 =>
    have hg : fieldGroup u = 6#3 := by
      simp only [imp_false] at *
      bv_omega
    simp [hg]
  all_goals simp [*]

/-- No policy accepts what the decoder refuses (R105). -/
theorem decodeUnits_of_decodeBase_error {idx : Bool} {u u2 : InstrUnit} {e : DecodeError}
    (h : decodeBase idx u u2 = .error e) (p : UnusedFieldPolicy) : decodeUnits p idx u u2 = .error e := by
  simp only [decodeUnits, h]

/-- Where unused fields are ignored nothing else is refused (R105). -/
theorem decodeUnits_ignore (idx : Bool) (u u2 : InstrUnit) :
    decodeUnits .ignore idx u u2 = decodeBase idx u u2 := by
  unfold decodeUnits
  cases decodeBase idx u u2 <;> simp

/-- Settles O3: the reserved words of each group, named by their high bytes. -/
theorem reservedEncodings : Obligations.ReservedEncodings := by
  intro p idx u u2 h undefinedUnit
  have hbase : decodeBase idx u u2 = .error .reservedEncoding ↔ undefinedUnit := by
    rw [decodeBase_reserved, decodeGroup0_reserved, decodeGroup2_reserved, decodeGroup4_reserved,
      decodeGroup5_reserved, decodeGroup7_reserved]
    simp only [undefinedUnit, h, highByte_eq]
    generalize fieldGroup u = g, u.extractLsb' 8 5 = o, u.extractLsb' 0 8 = low
    bv_omega
  exact ⟨fun hu => decodeUnits_of_decodeBase_error (hbase.mpr hu) p,
    fun hd => hbase.mp ((decodeUnits_ignore idx u u2).symm.trans hd)⟩

end Sys2Proof
end

section
/-! Immediates (R95 to R99): their value with and without a `pre` or `lpre`, and the refusal where an index has already
used it. -/

namespace Sys2Proof.Machine

/-! ## The value of an immediate -/

/-- Under `lpre` the field is the low bits and `lpre.data` everything above (R97). -/
theorem PrefixState.immLpre_getLsbD (p : PrefixState) {w : Nat} (i : BitVec w) {j : Nat} (hj : j < 32) :
    (p.immLpre i).getLsbD j = if j < w then i.getLsbD j else p.lpreData.getLsbD (j - w) := by
  by_cases hw : j < w
  · simp [PrefixState.immLpre, hj, hw]
  · have hi : i.getLsbD j = false := BitVec.getLsbD_of_ge _ _ (by omega)
    simp [PrefixState.immLpre, hj, hw, hi]

/-- Under `pre` the value is that of `pre.data` shifted past the field, and the field (R96). -/
theorem PrefixState.immPre_toInt (p : PrefixState) {w : Nat} (i : BitVec w) (hw : 12 + w ≤ 32) :
    (p.immPre i).toInt = p.preData.toInt * 2 ^ w + i.toNat := by
  rw [PrefixState.immPre, BitVec.toInt_signExtend_of_le hw, BitVec.toInt_append, if_neg (by decide), Int.mul_comm]

/-! What the two expansions of R98 are under `lpre`, under `pre` and with neither. -/

theorem State.imm_lpre {s : State} (hl : s.pfx.lpreHave = true) {w : Nat} (i : BitVec w) :
    s.immS i = s.pfx.immLpre i ∧ s.immU i = s.pfx.immLpre i := by
  simp [State.immS, State.immU, hl]

theorem State.imm_pre {s : State} (hl : s.pfx.lpreHave = false) (hp : s.pfx.preHave = true) {w : Nat} (i : BitVec w) :
    s.immS i = s.pfx.immPre i ∧ s.immU i = s.pfx.immPre i := by
  simp [State.immS, State.immU, hl, hp]

theorem State.imm_noPrefix {s : State} (h : s.pfx.immInEffect = false) {w : Nat} (i : BitVec w) :
    s.immS i = i.signExtend 32 ∧ s.immU i = i.setWidth 32 := by
  obtain ⟨hp, hl⟩ : s.pfx.preHave = false ∧ s.pfx.lpreHave = false := Bool.or_eq_false_iff.mp h
  simp [State.immS, State.immU, hl, hp]

/-- Settles O20, for `lpre`, `pre` and neither in turn; the widths matter only in that the field fits below `pre.data`. -/
theorem immediateExpansion : Obligations.ImmediateExpansion := by
  intro s w i hw
  have hfits : 12 + w ≤ 32 := by omega
  refine ⟨fun hl j hj => ?_, fun hl hp => ?_, fun h => ?_⟩
  · obtain ⟨hS, hU⟩ := State.imm_lpre hl i
    rw [hS, hU]
    exact ⟨s.pfx.immLpre_getLsbD i hj, rfl⟩
  · obtain ⟨hS, hU⟩ := State.imm_pre hl hp i
    rw [hS, hU]
    exact ⟨s.pfx.immPre_toInt i hfits, rfl⟩
  · obtain ⟨hS, hU⟩ := State.imm_noPrefix h i
    rw [hS, hU]
    exact ⟨BitVec.toInt_signExtend_of_le (by omega), BitVec.toNat_setWidth_of_le (by omega)⟩

/-! ## A `pre` or `lpre` used twice -/

/-- R99: the refusal comes before anything else the instruction does. -/
theorem withImmediate_used {s : State} (hu : s.pfx.usedByIndex = true) (k : Outcome) :
    withImmediate s k = .refused .prefixUsedTwice :=
  if_pos hu

/-- Settles O15: the meaning of each form is a `withImmediate`. -/
theorem prefixUsedTwice : Obligations.PrefixUsedTwice := by
  intro s a i j hu
  have used := withImmediate_used hu
  simp only [List.forall_mem_cons]
  exact ⟨⟨used _, used _, used _, used _, used _, used _, used _, used _, used _, used _, used _, used _, used _,
    used _, used _, used _, used _, nofun⟩, used _, used _, used _, used _, used _, used _, used _, used _, used _,
    used _, used _, used _, used _, used _, used _, used _, nofun⟩

end Sys2Proof.Machine
end

section
/-! Groups 0 and 5 (40_group0_prefix_atomics.md, 46_group5_index.md): `pre`, `lpre` and `index`, valid and
repeated, how they combine and what ends them, and the atomics. -/

namespace Sys2Proof

/-- Settles O5: the decoder is evaluated on each closed word. -/
theorem writtenWordsDecode : Obligations.WrittenWordsDecode := by
  unfold Obligations.WrittenWordsDecode
  decide

end Sys2Proof

namespace Sys2Proof.Machine

/-! ## What ends `pre`, `lpre` and `index` -/

/-- Every ending but that of a latch leaves none of `pre`, `lpre` and `index` in effect (R125, R306). -/
theorem Ends.noPrefix {i : Instr} {s t : State} (h : Ends i s t) (hi : i.isPrefix = false) : NoPrefix t := by
  cases h with
  | retired _ => exact ⟨rfl, rfl⟩
  | jumped _ _ => exact ⟨rfl, rfl⟩
  | interrupted _ => exact ⟨rfl, rfl⟩
  | latched hp _ _ => exact absurd (hp.symm.trans hi) (by decide)

/-- Settles O13, from the endings of `exec_ends`. -/
theorem nonPrefixEndsPrefixes : Obligations.NonPrefixEndsPrefixes :=
  fun _ _ _ hi h => (exec_ends h).noPrefix hi

/-! ## A valid `pre`, `lpre` or `index` -/

/-- The state behind a latch of `p`, past its units (R121, R122, R124). -/
def State.latched (s : State) (p : PrefixState) (bytes : Word) : State := { s with pfx := p, pc := s.pc + bytes }

@[simp] theorem State.latched_pfx (s : State) (p : PrefixState) (bytes : Word) : (s.latched p bytes).pfx = p := rfl
@[simp] theorem State.latched_reg (s : State) (p : PrefixState) (bytes : Word) (r : RegNum) :
    (s.latched p bytes).reg r = s.reg r := rfl
@[simp] theorem State.latched_spr (s : State) (p : PrefixState) (bytes : Word) (q : Spr) :
    (s.latched p bytes).spr q = s.spr q := by cases q <;> rfl

/-- Of two latches in a row the later one's `pfx` counts. -/
theorem State.latched_latched (s : State) (p q : PrefixState) (m n : Word) :
    (s.latched p m).latched q n = s.latched q (m + n) := by
  simp [State.latched, BitVec.add_assoc]

theorem frame_latched (s : State) (p : PrefixState) (bytes : Word) : Frame [] [] s (s.latched p bytes) :=
  ⟨fun _ _ => rfl, fun q _ => s.latched_spr p bytes q, ⟨fun _ => rfl, rfl⟩, rfl, rfl⟩

/-- `pfx` behind a valid `pre` (R121). -/
def PrefixState.latchPre (p : PrefixState) (c : BitVec 12) : PrefixState := { p with preHave := true, preData := c }

/-- `pfx` behind a valid `lpre` (R122). -/
def PrefixState.latchLpre (p : PrefixState) (c : BitVec 27) : PrefixState := { p with lpreHave := true, lpreData := c }

/-- `pfx` behind a valid `index rA, rB` (R260) whose registers hold `va` and `vb`. -/
def PrefixState.latchIndexReg (p : PrefixState) (a b : RegNum) (va vb : Word) : PrefixState :=
  { p with
    regSum := (if p.riHave then p.regSum else va) + vb
    idxA := a, idxAval := va, idxB := b, regB := vb, idxLast := .rr, rrHave := true }

/-- `pfx` behind a valid `index rA, #simm` (R261) whose register holds `va`, its immediate expanded to `v`. -/
def PrefixState.latchIndexImm (p : PrefixState) (a : RegNum) (va v : Word) : PrefixState :=
  { p with
    usedByIndex := p.usedByIndex || p.immInEffect
    regSum := (if p.rrHave then p.regSum else va) + v
    idxA := a, idxAval := va, regB := v, idxLast := .ri, riHave := true }

section ValidPrefix

variable {s : State} {a b : RegNum}

theorem exec_pre_valid {c : BitVec 12} (h : s.pfx.immInEffect = false) :
    exec (.pre c) s = .next (s.latched (s.pfx.latchPre c) 2#32) :=
  if_neg (Bool.eq_false_iff.mp h)

theorem exec_lpre_valid {c : BitVec 27} (h : s.pfx.immInEffect = false) :
    exec (.lpre c) s = .next (s.latched (s.pfx.latchLpre c) 4#32) :=
  if_neg (Bool.eq_false_iff.mp h)

theorem exec_indexReg_valid (h : s.pfx.rrHave = false) :
    exec (.indexReg a b) s = .next (s.latched (s.pfx.latchIndexReg a b (s.reg a) (s.reg b)) 2#32) :=
  if_neg (Bool.eq_false_iff.mp h)

theorem exec_indexImm_valid {k : BitVec 7} (h : s.pfx.riHave = false) :
    exec (.indexImm a k) s = .next (s.latched (s.pfx.latchIndexImm a (s.reg a) (s.immS k)) 2#32) :=
  if_neg (Bool.eq_false_iff.mp h)

end ValidPrefix

/-- Settles O16, through the `pfx` that each of the two latches. -/
theorem preAndLpreLatch : Obligations.PreAndLpreLatch := by
  intro s c l h
  exact ⟨⟨_, exec_pre_valid h, rfl, rfl, frame_latched s _ _⟩,
    ⟨_, exec_lpre_valid h, rfl, rfl, frame_latched s _ _⟩⟩

/-! ## A repeated `pre`, `lpre` or `index` -/

section RepeatedPrefix

variable {s : State} {a b : RegNum}

theorem exec_pre_invalid {c : BitVec 12} (h : s.pfx.immInEffect = true) : exec (.pre c) s = invalidPrefix s :=
  if_pos h

theorem exec_indexReg_invalid (h : s.pfx.rrHave = true) : exec (.indexReg a b) s = invalidPrefix s :=
  if_pos h

theorem exec_indexImm_invalid {k : BitVec 7} (h : s.pfx.riHave = true) : exec (.indexImm a k) s = invalidPrefix s :=
  if_pos h

/-- What is invalid is a NOP of one unit behind which no `pre`, `lpre` or `index` is in effect (R123). -/
theorem nop_of_invalidPrefix {x : Instr} (hx : exec x s = invalidPrefix s) :
    ∃ t, exec x s = .next t ∧ Frame [] [] s t ∧ EndsAtNext s t :=
  ⟨s.retired, hx, frame_retired s⟩

end RepeatedPrefix

/-- Settles O18: each repetition is an `invalidPrefix`. -/
theorem repeatedPrefixIsNop : Obligations.RepeatedPrefixIsNop := by
  intro s a b c l k nop
  refine ⟨fun h => ?_, fun h => nop_of_invalidPrefix (exec_indexReg_invalid h),
    fun h => nop_of_invalidPrefix (exec_indexImm_invalid h)⟩
  have himm : s.pfx.immInEffect = true := Bool.or_eq_true_iff.mpr h
  exact ⟨nop_of_invalidPrefix (exec_pre_invalid himm), nop_of_invalidPrefix (exec_lpre_invalid himm l)⟩

/-! ## `pre`, `lpre` and `index` together -/

theorem NoPrefix.bits {s : State} (h : NoPrefix s) :
    s.pfx.immInEffect = false ∧ s.pfx.rrHave = false ∧ s.pfx.riHave = false := by
  obtain ⟨himm, hidx⟩ := Bool.or_eq_false_iff.mp h.1
  exact ⟨himm, Bool.or_eq_false_iff.mp hidx⟩

/-- An `index rA, rB` leaves the expansion of immediates as it was (R128). -/
theorem State.immS_latchIndexReg (s : State) (a b : RegNum) (va vb bytes : Word) {w : Nat} (i : BitVec w) :
    (s.latched (s.pfx.latchIndexReg a b va vb) bytes).immS i = s.immS i := rfl

/-- Settles O19. The two kinds of `index` pass the sum on; `pre` or `lpre` and `index rA, rB` latch different fields,
and neither reads what the other latches. -/
theorem prefixesCombine : Obligations.PrefixesCombine := by
  intro s x y z k c l hs
  obtain ⟨himm, hrr, hri⟩ := hs.bits
  have hk : s.immS k = k.signExtend 32 := (State.imm_noPrefix himm k).1
  refine ⟨⟨_, _, exec_indexReg_valid hrr, exec_indexImm_valid hri, ?_⟩,
    ⟨_, _, exec_indexImm_valid hri, exec_indexReg_valid hrr, ?_⟩,
    ⟨_, _, _, exec_pre_valid himm, exec_indexReg_valid hrr, exec_indexReg_valid hrr, ?_⟩,
    ⟨_, _, _, exec_lpre_valid himm, exec_indexReg_valid hrr, exec_indexReg_valid hrr, ?_⟩⟩
  · rw [State.immS_latchIndexReg, hk]
    simp [PrefixState.latchIndexReg, PrefixState.latchIndexImm, hri]
  · simp [PrefixState.latchIndexReg, PrefixState.latchIndexImm, hk, hrr]
  · rw [exec_pre_valid, State.latched_latched, State.latched_latched]
    · rfl
    · exact himm
  · rw [exec_lpre_valid, State.latched_latched, State.latched_latched]
    · rfl
    · exact himm

/-! ## The atomics -/

/-- The write of a pair is the writes of its two words. -/
theorem State.setPair_append (s : State) (h l : RegNum) (v w : Word) :
    s.setPair h l (v ++ w : DWord) = (s.setReg h v).setReg l w := by
  rw [State.setPair, BitVec.extractLsb'_append_eq_left, BitVec.extractLsb'_append_eq_right]

/-- The frame of what follows a store, seen from before the store. -/
theorem Frame.behind_store {rs : List RegNum} {qs : List Spr} {s t : State} {a v : Word} {n : Nat}
    (h : Frame rs qs (s.stored a n v) t) : FrameStore rs qs a n s t := by
  obtain ⟨hregs, hsprs, ⟨hbytes, -⟩, hinputs⟩ := h
  exact ⟨hregs, fun q hq => (hsprs q hq).trans (s.stored_spr a n v q),
    fun k hk => (hbytes k).trans (State.stored_byte_other hk), hinputs⟩

/-- The locked exchange where its word can be accessed (R130). -/
theorem exchangeWord_of_canAccess {s : State} {a b : RegNum} (h : s.canAccess (s.reg a) 4) :
    exchangeWord a b s
      = .next ((s.stored (s.reg a) 4 (s.reg b)).setReg b (s.wordAt (s.reg a))).retired := by
  rw [exchangeWord, State.load_of_canAccess h, andThen_ok, State.store_of_canAccess h, andThen_ok, retire,
    State.wordAt_eq_readLE]

/-- The compare and exchange where its word can be accessed and is the expected one (R131). -/
theorem compareExchangeWord_equal {s : State} {a b : RegNum} (h : s.canAccess (s.reg a) 4)
    (he : s.wordAt (s.reg a) = s.pfx.idxAval) :
    compareExchangeWord a b s
      = .next ((s.stored (s.reg a) 4 (s.reg b)).setFlags { s.flags with z := true }).retired := by
  rw [compareExchangeWord, State.load_of_canAccess h, andThen_ok, ← State.wordAt_eq_readLE, if_pos he,
    State.store_of_canAccess h, andThen_ok, retire]

/-- The compare and exchange where its word can be accessed and is another one (R131). -/
theorem compareExchangeWord_ne {s : State} {a b : RegNum} (h : s.canAccess (s.reg a) 4)
    (hne : s.wordAt (s.reg a) ≠ s.pfx.idxAval) :
    compareExchangeWord a b s = .next (s.setFlags { s.flags with z := false }).retired := by
  rw [compareExchangeWord, State.load_of_canAccess h, andThen_ok, ← State.wordAt_eq_readLE, if_neg hne, retire]

/-- Settles O21: the swap is the write of a pair, the locked exchange a register write behind a store. -/
theorem exchange : Obligations.Exchange := by
  intro s a b
  refine ⟨⟨_, rfl, ?_, ?_, ?_⟩, fun hm hc => ?_⟩
  · by_cases hab : b = a <;> simp [State.reg_setReg, hab]
  · rw [State.retired_reg, State.reg_setReg_same]
  · rw [← State.setPair_append]
    exact frame_pair s a b _
  · obtain ⟨hframe, hends⟩ := frame_setReg (s.stored (s.reg a) 4 (s.reg b)) b (s.wordAt (s.reg a))
    refine ⟨_, exchangeWord_of_canAccess hc, stored_holdsBytes hm hc, ?_, hframe.behind_store, hends⟩
    rw [State.retired_reg, State.reg_setReg_same]

/-- Settles O22: `cmpxchg` and `cmpxchg.l` are one operation, which writes the flags behind a store or alone. -/
theorem compareExchange : Obligations.CompareExchange := by
  intro s a b hm hc x hx
  have hexec : exec x s = compareExchangeWord a b s := by
    rcases List.mem_pair.mp hx with rfl | rfl <;> rfl
  refine ⟨fun he => ?_, fun hne => ?_⟩
  · obtain ⟨hframe, hends⟩ := frame_setFlags (s.stored (s.reg a) 4 (s.reg b)) { s.flags with z := true }
    exact ⟨_, hexec.trans (compareExchangeWord_equal hc he), stored_holdsBytes hm hc, rfl,
      hframe.behind_store, hends⟩
  · exact ⟨_, hexec.trans (compareExchangeWord_ne hc hne), rfl, frame_setFlags s _⟩

end Sys2Proof.Machine
end

section
/-! Group 1, register with 5-bit immediate (41_group1_reg_imm.md): the shared shifts as numbers (R157) and bit
ranges bit by bit (R153, R154), the encoding of the group (R85), and what its instructions write. -/

namespace Sys2Proof.Machine

/-! ## Shifts -/

/-! The cases of R157 for an amount of 32 or more agree with a shift that drops bit after bit. -/

theorem lsl32_eq_shiftLeft (v n : Word) : lsl32 v n = v <<< n.toNat := by
  unfold lsl32
  split
  · next h => exact (BitVec.shiftLeft_eq_zero h).symm
  · rfl

theorem lsr32_eq_ushiftRight (v n : Word) : lsr32 v n = v >>> n.toNat := by
  unfold lsr32
  split
  · next h => exact (BitVec.ushiftRight_eq_zero h).symm
  · rfl

theorem asr32_eq_sshiftRight (v n : Word) : asr32 v n = v.sshiftRight n.toNat := by
  unfold asr32
  split
  · next h =>
    cases hv : v.msb with
    | true => rw [BitVec.sshiftRight_eq_of_msb_true hv, BitVec.ushiftRight_eq_zero h]; rfl
    | false => rw [BitVec.sshiftRight_eq_of_msb_false hv, BitVec.ushiftRight_eq_zero h]; rfl
  · rfl

/-- Settles O28: a shift by `n` is a product or a quotient by `2 ^ n`. -/
theorem shiftValues : Obligations.ShiftValues := by
  intro v n
  rw [lsl32_eq_shiftLeft, lsr32_eq_ushiftRight, asr32_eq_sshiftRight]
  refine ⟨?_, ?_, ?_⟩
  · rw [BitVec.toNat_shiftLeft, Nat.shiftLeft_eq]
  · rw [BitVec.toNat_ushiftRight, Nat.shiftRight_eq_div_pow]
  · rw [BitVec.toInt_sshiftRight, Int.shiftRight_eq_div_pow, Int.natCast_pow]
    rfl

/-! ## Bit ranges -/

theorem getLsbD_zeroFrom (v : Word) (k : Nat) {j : Nat} (hj : j < 32) :
    (zeroFrom v k).getLsbD j = (decide (j < k) && v.getLsbD j) := by
  rw [zeroFrom, BitVec.getLsbD_and, BitVec.getLsbD_ofNat, Nat.testBit_two_pow_sub_one, decide_eq_true hj, Bool.true_and,
    Bool.and_comm]

/-- Bit `k` is the sign of the `k + 1` low bits. -/
theorem getLsbD_signFrom (v : Word) (k : Nat) {j : Nat} (hj : j < 32) :
    (signFrom v k).getLsbD j = v.getLsbD (min j k) := by
  have hsign : (v.setWidth (k + 1)).msb = v.getLsbD k := by simp [BitVec.msb_setWidth]
  rw [signFrom, BitVec.getLsbD_signExtend, hsign, decide_eq_true hj, Bool.true_and]
  by_cases h : j ≤ k
  · have hk : j < k + 1 := by omega
    rw [if_pos hk, BitVec.getLsbD_setWidth, decide_eq_true hk, Bool.true_and, Nat.min_eq_left h]
  · rw [if_neg (by omega), Nat.min_eq_right (by omega)]

/-! ## Encoding -/

/-- Format G1 (R85) with its opcode among the fixed bits `base`. -/
theorem unitG1_of_base {base : InstrUnit} {o : BitVec 4} (hb : base = 0x2000#16 ||| o.setWidth 16 <<< 4) (a : RegNum)
    (i : BitVec 5) : base ||| i.setWidth 16 <<< 8 ||| a.setWidth 16 = unitG1 o a i := by
  rw [hb, unitG1, BitVec.or_assoc (0x2000#16), BitVec.or_comm (o.setWidth 16 <<< 4), ← BitVec.or_assoc]

/-- Any instruction of group 1 is decoded from its unit, whatever unit follows. -/
theorem decodeUnits_group1 {x : Instr} {base : InstrUnit} {o : BitVec 4} {a : RegNum} {i : BitVec 5}
    (hx : encode x = [unitG1 o a i]) (hr : ∀ idx, x.readWhen idx = true)
    (hb : base = 0x2000#16 ||| o.setWidth 16 <<< 4) (p : UnusedFieldPolicy) (idx : Bool) (u2 : InstrUnit) :
    decodeUnits p idx (base ||| i.setWidth 16 <<< 8 ||| a.setWidth 16) u2 = .ok x := by
  have hl : isLpre (unitG1 o a i) = false := Laws.EncodedUnits.not_isLpre_of_group (by simp)
  have hu : encodeUnit x = unitG1 o a i := by rw [encodeUnit, hx]; rfl
  have hu2 : encodeUnit2 x = 0#16 := by rw [encodeUnit2, hx]; rfl
  rw [unitG1_of_base hb, decodeUnits_second hl, ← hu, ← hu2]
  exact decodeUnits_encode p (hr idx)

/-! ## Writes of `rA` -/

/-- R99 refuses nothing while no index has used the `pre` or `lpre`. -/
theorem withImmediate_unused {s : State} (hu : s.pfx.usedByIndex = false) (k : Outcome) : withImmediate s k = k :=
  if_neg (Bool.eq_false_iff.mp hu)

/-- Any instruction that ends by writing `rA` from an immediate (R140). -/
theorem immediateResult_writes {s : State} {x : Instr} {a : RegNum} {v : Word} (hu : s.pfx.usedByIndex = false)
    (hx : exec x s = immediateResult a v s) :
    ∃ t, exec x s = .next t ∧ t.reg a = v ∧ Frame [a] [] s t ∧ EndsAtNext s t := by
  rw [immediateResult, withImmediate_unused hu] at hx
  exact ⟨_, hx, State.reg_setReg_same s a v, frame_setReg s a v⟩

/-- Settles O25: each form is an `immediateResult` of its own value. -/
theorem addAndShiftImmediate : Obligations.AddAndShiftImmediate := by
  intro s a i hu
  have writes {x : Instr} {v : Word} := immediateResult_writes (x := x) (a := a) (v := v) hu
  exact ⟨writes rfl, writes rfl, writes rfl, writes rfl, writes rfl, writes rfl, writes rfl⟩

/-- Settles O24: three units of format G1 and three `immediateResult`s. -/
theorem bitwiseImmediate : Obligations.BitwiseImmediate := by
  intro s a i
  refine ⟨⟨?_, fun hu => immediateResult_writes hu rfl⟩, ⟨?_, fun hu => immediateResult_writes hu rfl⟩,
    ⟨?_, fun hu => immediateResult_writes hu rfl⟩, fun hi => by rw [hi, BitVec.xor_allOnes]⟩
  · exact decodeUnits_group1 (o := 0x9#4) rfl (fun _ => rfl) rfl
  · exact decodeUnits_group1 (o := 0xA#4) rfl (fun _ => rfl) rfl
  · exact decodeUnits_group1 (o := 0xB#4) rfl (fun _ => rfl) rfl

/-- A constant cut at bit 5 into an `lpre` and a 5-bit field is that constant again (R97). -/
theorem PrefixState.immLpre_extract {p : PrefixState} {c : Word} (hp : p.lpreData = c.extractLsb' 5 27) :
    p.immLpre (c.extractLsb' 0 5) = c := by
  apply BitVec.eq_of_getLsbD_eq
  intro j hj
  rw [PrefixState.immLpre_getLsbD _ _ hj, hp, BitVec.getLsbD_extractLsb', BitVec.getLsbD_extractLsb']
  by_cases h : j < 5
  · rw [if_pos h, decide_eq_true h, Bool.true_and, Nat.zero_add]
  · rw [if_neg h, decide_eq_true (by omega), Bool.true_and, Nat.add_sub_cancel' (by omega)]

/-- Settles O23: behind the `lpre` the immediate is the constant, and the two instructions are three units. -/
theorem cpyImmediate : Obligations.CpyImmediate := by
  intro s a i
  refine ⟨decodeUnits_group1 (o := 0x5#4) rfl (fun _ => rfl) rfl, fun hu => immediateResult_writes hu rfl,
    fun hs c => ?_⟩
  let t := s.latched (s.pfx.latchLpre (c.extractLsb' 5 27)) 4#32
  have hc : t.immS (c.extractLsb' 0 5) = c :=
    (State.imm_lpre rfl _).1.trans (PrefixState.immLpre_extract rfl)
  obtain ⟨u, hexec, hreg, -, hpc, -⟩ :=
    immediateResult_writes (s := t) (x := .cpyImm a (c.extractLsb' 0 5)) hs.2 rfl
  exact ⟨t, u, exec_lpre_valid hs.bits.1, hexec, hreg.trans hc, hpc.trans (BitVec.add_assoc s.pc 4#32 2#32)⟩

/-! ## `ze` and `se` -/

/-- Any instruction that ends by writing `rA` from an immediate that names a bit (R153, R154), or is refused (D9). -/
theorem withBitIndex_writes {s : State} {x : Instr} {a : RegNum} {k : Word} {f : Nat → Word}
    (hu : s.pfx.usedByIndex = false) (hx : exec x s = withBitIndex k s fun j => retire (s.setReg a (f j))) :
    (k.toNat < 32 → ∃ t, exec x s = .next t ∧ t.reg a = f k.toNat ∧ Frame [a] [] s t ∧ EndsAtNext s t)
      ∧ (32 ≤ k.toNat → exec x s = .refused .bitIndexOutOfRange) := by
  rw [withBitIndex, withImmediate_unused hu] at hx
  exact ⟨fun hk => ⟨_, hx.trans (if_pos hk), State.reg_setReg_same s a _, frame_setReg s a _⟩,
    fun hk => hx.trans (if_neg (Nat.not_lt.mpr hk))⟩

/-- Settles O26: where the immediate names a bit, `zeroFrom` and `signFrom` are what is written. -/
theorem extendFromBit : Obligations.ExtendFromBit := by
  intro s a i hu
  obtain ⟨zeWrites, zeRefused⟩ := withBitIndex_writes (x := .ze a i) (f := zeroFrom (s.reg a)) hu rfl
  obtain ⟨seWrites, seRefused⟩ := withBitIndex_writes (x := .se a i) (f := signFrom (s.reg a)) hu rfl
  refine ⟨fun hk => ⟨?_, ?_⟩, fun hk => ⟨zeRefused hk, seRefused hk⟩⟩
  · obtain ⟨t, hexec, hreg, hframe⟩ := zeWrites hk
    exact ⟨t, hexec, fun j hj => hreg ▸ getLsbD_zeroFrom _ _ hj, hframe⟩
  · obtain ⟨t, hexec, hreg, hframe⟩ := seWrites hk
    exact ⟨t, hexec, fun j hj => hreg ▸ getLsbD_signFrom _ _ hj, hframe⟩

/-! ## `swi` -/

/-- Interrupt entry writes no special-purpose register but the four of R306. -/
theorem State.interrupted_spr (s : State) (cause : Interrupt) (ret : Word) {q : Spr}
    (hq : q ∉ [Spr.sty, .ity, .ira, .ie]) : (s.interrupted cause ret).spr q = s.spr q := by
  cases q with
  | flags => rfl
  | ids => rfl
  | ira | ie | ity | sty => exact absurd (by decide) hq

/-- The frame of interrupt entry (R306). -/
theorem frame_interrupted (s : State) (cause : Interrupt) (ret : Word) :
    Frame [] [.sty, .ity, .ira, .ie] s (s.interrupted cause ret) ∧ NoPrefix (s.interrupted cause ret) :=
  ⟨⟨fun _ _ => rfl, fun _ hq => s.interrupted_spr cause ret hq, ⟨fun _ => rfl, rfl⟩, rfl, rfl⟩, rfl, rfl⟩

/-- Interrupt entry to an odd address (R55, D15). -/
theorem takeInterrupt_odd {s : State} (h : s.ids.getLsbD 0 = true) (cause : Interrupt) (ret : Word) :
    takeInterrupt cause ret s = .refused .misalignedPc :=
  if_pos h

/-- Settles O27: both forms enter the one `takeInterrupt`, each with its own number. -/
theorem softwareInterrupt : Obligations.SoftwareInterrupt := by
  intro s a i hu enters
  have enters_of_exec {x : Instr} {n : Word}
      (hx : exec x s = withImmediate s (takeInterrupt (.swi n) (s.pc + 2#32) s)) : enters x n := by
    rw [withImmediate_unused hu] at hx
    refine ⟨fun hids => ?_, fun hids => hx.trans (takeInterrupt_odd hids _ _)⟩
    exact ⟨_, hx.trans (takeInterrupt_next.mpr ⟨hids, rfl⟩), rfl, rfl, rfl, rfl, rfl, frame_interrupted s _ _⟩
  exact ⟨enters_of_exec rfl, enters_of_exec rfl⟩

end Sys2Proof.Machine
end

section
/-! Group 2, register with register (42_group2_reg_reg.md): what the plain forms write (R160 to R174). -/

namespace Sys2Proof.Machine

/-- Any instruction that ends by writing one register. -/
theorem setReg_writes {s : State} {x : Instr} {a : RegNum} {v : Word} (hx : exec x s = retire (s.setReg a v)) :
    ∃ t, exec x s = .next t ∧ t.reg a = v ∧ Frame [a] [] s t ∧ EndsAtNext s t :=
  ⟨_, hx, State.reg_setReg_same s a v, frame_setReg s a v⟩

/-- Any plain form that adds or subtracts (R160, R161): of the result `r` the value is written, the flags are dropped. -/
theorem sumResult_writes_plain {s : State} {x : Instr} {a : RegNum} {r : Word × Flags} {v : Word} (hv : r.1 = v)
    (hx : exec x s = sumResult false a r s) :
    ∃ t, exec x s = .next t ∧ t.reg a = v ∧ Frame [a] [] s t ∧ EndsAtNext s t :=
  hv ▸ setReg_writes hx

/-- Settles O29: each form is a plain `sumResult` or `bitsResult` of its own value; `add` is a sum without carry in, `sub`
a `subtract`, `adc` and `sbc` a sum with the carry of the old flags in. -/
theorem plainRegisterForms : Obligations.PlainRegisterForms := by
  intro s a b writes
  have add_writes {x : Instr} {p q : Word} (hx : exec x s = sumResult false a (addWithCarry p q false) s) :
      writes x (p + q) := sumResult_writes_plain (addWithCarry_sum p q) hx
  have sub_writes {x : Instr} {p q : Word} (hx : exec x s = sumResult false a (subtract p q) s) :
      writes x (p - q) := sumResult_writes_plain (subtract_result p q) hx
  have carry_writes {x : Instr} {p q : Word} {c : Bool} (hx : exec x s = sumResult false a (addWithCarry p q c) s) :
      writes x (p + q + bitWord c) := sumResult_writes_plain (addWithCarry_result p q c) hx
  have bits_writes {x : Instr} {v : Word} (hx : exec x s = bitsResult false a v s) : writes x v := setReg_writes hx
  exact ⟨add_writes rfl, sub_writes rfl, add_writes rfl, add_writes rfl, bits_writes rfl, bits_writes rfl,
    bits_writes rfl, bits_writes rfl, bits_writes rfl, bits_writes rfl, bits_writes rfl, carry_writes rfl,
    carry_writes rfl⟩

end Sys2Proof.Machine
end

section
/-! Group 3, relative branches (43_group3_branches.md), and the jumps of group 4 (R200 to R203): the encoding of group 3
(R87), and where a control transfer goes and what it leaves unchanged. -/

namespace Sys2Proof.Machine

/-! ## Jumps -/

/-- An instruction that ends by a control transfer keeps what it keeps where it ends at the next unit. -/
theorem Frame.jumped {rs : List RegNum} {qs : List Spr} {s u : State} (h : Frame rs qs s u.retired) (target : Word) :
    Frame rs qs s (u.jumped target) ∧ NoPrefix (u.jumped target) := by
  obtain ⟨hregs, hsprs, hmem, hinputs⟩ := h
  refine ⟨⟨hregs, fun q hq => ?_, hmem, hinputs⟩, rfl, rfl⟩
  rw [State.jumped_spr, ← State.retired_spr]
  exact hsprs q hq

/-- An instruction that ends after writing `ie`. -/
theorem frame_setIe (s : State) (b : Bool) :
    Frame [] [.ie] s (s.setIe b).retired ∧ EndsAtNext s (s.setIe b).retired := by
  refine ⟨⟨fun _ _ => rfl, fun q hq => ?_, ⟨fun _ => rfl, rfl⟩, rfl, rfl⟩, rfl, rfl, rfl⟩
  rw [State.retired_spr, State.setIe_spr s b q (List.ne_of_not_mem_cons hq)]

section JumpTo

variable {s : State} {x : Instr} {target : Word}

/-- Any instruction that only goes to an even address. -/
theorem jumpTo_goes (ht : target.getLsbD 0 = false) (hx : exec x s = jumpTo target s) :
    ∃ t, exec x s = .next t ∧ t.pc = target ∧ Frame [] [] s t ∧ NoPrefix t :=
  ⟨_, hx.trans (jumpTo_next.mpr ⟨ht, rfl⟩), frame_jumped s target⟩

/-- Any instruction that goes to an even address and links (R181, R200). -/
theorem jumpTo_links (ht : target.getLsbD 0 = false) (hx : exec x s = jumpTo target (s.setReg lr (s.pc + 2#32))) :
    ∃ t, exec x s = .next t ∧ t.pc = target ∧ t.reg 13#4 = s.pc + 2#32 ∧ Frame [13#4] [] s t ∧ NoPrefix t :=
  ⟨_, hx.trans (jumpTo_next.mpr ⟨ht, rfl⟩), rfl, State.reg_setReg_same s lr _, (frame_setReg s lr _).1.jumped target⟩

end JumpTo

/-- Settles O38: `bl` and `jl` link, `jmp` and `jmp ira` only go, and `reti` goes from the state with `ie` set. -/
theorem callsAndJumps : Obligations.CallsAndJumps := by
  intro s a i
  refine ⟨fun hu ht => jumpTo_links ht (withImmediate_unused hu _),
    fun ha => ⟨jumpTo_links ha rfl, jumpTo_goes ha rfl⟩, fun hira => ⟨jumpTo_goes hira rfl, ?_⟩⟩
  exact ⟨_, returnFromInterrupt_next.mpr ⟨hira, rfl⟩, rfl, rfl, (frame_setIe s true).1.jumped s.ira⟩

/-! ## Encoding -/

/-- Format G3 (R87) with its opcode among the fixed bits `base`. -/
theorem unitG3_of_base {base : InstrUnit} {o : BitVec 4} (hb : base = 0x6000#16 ||| o.setWidth 16) (i : BitVec 9) :
    base ||| i.setWidth 16 <<< 4 = unitG3 o i := by
  rw [hb, unitG3, BitVec.or_assoc, BitVec.or_comm (o.setWidth 16), ← BitVec.or_assoc]

/-- Any instruction of one unit, whose word has one reading, is decoded from it, whatever unit follows. -/
theorem decodeUnits_one_unit {x : Instr} {u : InstrUnit} (hx : encode x = [u]) (hl : isLpre u = false)
    (hr : ∀ idx, x.readWhen idx = true) (p : UnusedFieldPolicy) (idx : Bool) (u2 : InstrUnit) :
    decodeUnits p idx u u2 = .ok x := by
  have hu : encodeUnit x = u := by rw [encodeUnit, hx]; rfl
  have hu2 : encodeUnit2 x = 0#16 := by rw [encodeUnit2, hx]; rfl
  rw [decodeUnits_second hl, ← hu, ← hu2]
  exact decodeUnits_encode p (hr idx)

/-- Any instruction of group 3 is decoded from its unit, whatever unit follows. -/
theorem decodeUnits_group3 {x : Instr} {base : InstrUnit} {o : BitVec 4} {i : BitVec 9} (hx : encode x = [unitG3 o i])
    (hb : base = 0x6000#16 ||| o.setWidth 16) (hr : ∀ idx, x.readWhen idx = true) (p : UnusedFieldPolicy) (idx : Bool)
    (u2 : InstrUnit) : decodeUnits p idx (base ||| i.setWidth 16 <<< 4) u2 = .ok x := by
  rw [unitG3_of_base hb]
  exact decodeUnits_one_unit hx (Laws.EncodedUnits.not_isLpre_of_group (by simp)) hr p idx u2

/-! ## Branches -/

/-- Any branch, as R180 says of all of them: its condition decides between the target and the next unit. -/
theorem branchIf_goes_or_retires {s : State} {x : Instr} {i : BitVec 9} {c : Bool} {cond : Prop}
    (hu : s.pfx.usedByIndex = false) (hx : exec x s = branchIf c i s) (hc : c = true ↔ cond) :
    (cond → (s.branchTarget i).getLsbD 0 = false →
          ∃ t, exec x s = .next t ∧ t.pc = s.branchTarget i ∧ Frame [] [] s t ∧ NoPrefix t)
      ∧ (¬cond → ∃ t, exec x s = .next t ∧ Frame [] [] s t ∧ EndsAtNext s t) := by
  rw [branchIf, withImmediate_unused hu] at hx
  refine ⟨fun h ht => ?_, fun h => ?_⟩
  · rw [if_pos (hc.mpr h)] at hx
    exact jumpTo_goes ht hx
  · rw [if_neg (mt hc.mp h)] at hx
    exact ⟨_, hx, frame_retired s⟩

/-- Any branch of group 3: decoded from its unit, and executed as R180 says. -/
theorem group3_branches {s : State} {x : Instr} {i : BitVec 9} {base : InstrUnit} {o : BitVec 4} {c : Bool}
    {cond : Prop} (hu : s.pfx.usedByIndex = false) (he : encode x = [unitG3 o i])
    (hb : base = 0x6000#16 ||| o.setWidth 16) (hr : ∀ idx, x.readWhen idx = true) (hx : exec x s = branchIf c i s)
    (hc : c = true ↔ cond) :
    (∀ p idx u2, decodeUnits p idx (base ||| i.setWidth 16 <<< 4) u2 = .ok x)
      ∧ (cond → (s.branchTarget i).getLsbD 0 = false →
          ∃ t, exec x s = .next t ∧ t.pc = s.branchTarget i ∧ Frame [] [] s t ∧ NoPrefix t)
      ∧ (¬cond → ∃ t, exec x s = .next t ∧ Frame [] [] s t ∧ EndsAtNext s t) :=
  ⟨decodeUnits_group3 he hb hr, branchIf_goes_or_retires hu hx hc⟩

/-- Settles O35: nine units of format G3, each executed as a `branchIf` of its own condition. -/
theorem branchesOnOneFlag : Obligations.BranchesOnOneFlag := by
  intro s i hu target branches
  have branches_of {x : Instr} {base : InstrUnit} {o : BitVec 4} {c : Bool} (he : encode x = [unitG3 o i])
      (hb : base = 0x6000#16 ||| o.setWidth 16) (hr : ∀ idx, x.readWhen idx = true)
      (hx : exec x s = branchIf c i s) : branches x base c := by
    obtain ⟨hdecode, htaken, huntaken⟩ := group3_branches hu he hb hr hx Iff.rfl
    exact ⟨hdecode, htaken, fun hc => huntaken (Bool.eq_false_iff.mp hc)⟩
  refine ⟨?_, ?_, ?_, ?_, ?_, ?_, ?_, ?_, ?_⟩
  all_goals exact branches_of rfl rfl (fun _ => rfl) rfl

/-! ## Conditions on more than one flag -/

section Conditions

variable (f : Flags)

theorem Flags.higher_iff : f.higher = true ↔ f.c = true ∧ f.z = false := by
  rw [Flags.higher, Bool.and_eq_true, Bool.not_eq_true']

theorem Flags.not_higher_iff : (!f.c || f.z) = true ↔ f.c = false ∨ f.z = true := by
  rw [Bool.or_eq_true, Bool.not_eq_true']

theorem Flags.less_iff : f.less = true ↔ f.n ≠ f.v :=
  bne_iff_ne

theorem Flags.not_less_iff : (!f.less) = true ↔ f.n = f.v := by
  rw [f.not_less, beq_iff_eq]

theorem Flags.greater_iff : f.greater = true ↔ f.n = f.v ∧ f.z = false := by
  rw [Flags.greater, Bool.and_eq_true, f.not_less_iff, Bool.not_eq_true']

theorem Flags.not_greater_iff : (f.less || f.z) = true ↔ f.n ≠ f.v ∨ f.z = true := by
  rw [Bool.or_eq_true, f.less_iff]

end Conditions

/-- Settles O36: six units of format G3, and the six conditions as R191 to R196 write them. -/
theorem branchesOnSeveralFlags : Obligations.BranchesOnSeveralFlags := by
  intro s i hu target branches
  have branches_of {x : Instr} {base : InstrUnit} {o : BitVec 4} {c : Bool} {cond : Prop} (hc : c = true ↔ cond)
      (he : encode x = [unitG3 o i]) (hb : base = 0x6000#16 ||| o.setWidth 16) (hr : ∀ idx, x.readWhen idx = true)
      (hx : exec x s = branchIf c i s) : branches x base cond := group3_branches hu he hb hr hx hc
  exact ⟨branches_of s.flags.higher_iff rfl rfl (fun _ => rfl) rfl,
    branches_of s.flags.not_higher_iff rfl rfl (fun _ => rfl) rfl,
    branches_of s.flags.not_less_iff rfl rfl (fun _ => rfl) rfl,
    branches_of s.flags.less_iff rfl rfl (fun _ => rfl) rfl,
    branches_of s.flags.greater_iff rfl rfl (fun _ => rfl) rfl,
    branches_of s.flags.not_greater_iff rfl rfl (fun _ => rfl) rfl⟩

end Sys2Proof.Machine
end

section
/-! Group 4, opcodes 0x04 to 0x0a (44_group4_control_stack_muldiv.md): `ei`, `di` and the IRQ that can follow `ei`
(R204, R205, R304), and the stack (R206 to R210). -/

namespace Sys2Proof.Machine

/-! ## Encoding -/

/-- An unused low byte leaves the fields above it as they are (R105). -/
theorem extract_or_lowByte (base : InstrUnit) (m : BitVec 8) {lo n : Nat} (h : 8 ≤ lo) :
    (base ||| m.setWidth 16).extractLsb' lo n = base.extractLsb' lo n := by
  apply BitVec.eq_of_getLsbD_eq
  intro j _
  have hm : m.getLsbD (lo + j) = false := BitVec.getLsbD_of_ge _ _ (by omega)
  simp only [BitVec.getLsbD_extractLsb', BitVec.getLsbD_or, BitVec.getLsbD_setWidth, hm, Bool.and_false, Bool.or_false]

/-- A unit of group 4 of which the decoder reads bits 12:8 alone (R88). -/
theorem decodeUnits_group4_lowByte {x : Instr} {base : InstrUnit} (hg : fieldGroup base = 0b100#3)
    (hx : ∀ u : InstrUnit, u.extractLsb' 8 5 = base.extractLsb' 8 5 → decodeGroup4 u = .ok x) (idx : Bool)
    (u2 : InstrUnit) (m : BitVec 8) : decodeUnits .ignore idx (base ||| m.setWidth 16) u2 = .ok x := by
  have hgroup : fieldGroup (base ||| m.setWidth 16) = 0b100#3 := (extract_or_lowByte base m (by decide)).trans hg
  rw [decodeUnits_ignore]
  simp only [decodeBase, hgroup]
  exact hx _ (extract_or_lowByte base m (by decide))

/-! ## An IRQ at a boundary -/

/-- A request that the boundary's sample raises and serves, with `ie` set and nothing latched in effect, is taken
(R304). -/
theorem State.irqTaken_of_served {s : State} {rest : List IrqSample} (hl : s.irqLine = ⟨true, true⟩ :: rest)
    (hie : s.ie = true) (hp : s.pfx.inEffect = false) : s.irqTaken = true := by
  simp only [State.irqTaken, State.irqEligible, State.irqSample, State.canServiceIrq, hl, hie, hp, Bool.not_false,
    Bool.and_true]

/-- Where an IRQ is taken a step is its entry (R120, R306). -/
theorem step_of_taken {s : State} (h : s.irqTaken = true) : step s = takeInterrupt .irq s.pc s.pastBoundary :=
  if_pos h

/-- Settles O40: two units of group 4; `ei` leaves `ie` set and nothing latched in effect, as the next
boundary's IRQ asks. -/
theorem enableAndDisable : Obligations.EnableAndDisable := by
  refine ⟨fun idx u2 m => ⟨?_, ?_⟩, fun s => ⟨?_, _, rfl, rfl, frame_setIe s false⟩⟩
  · exact decodeUnits_group4_lowByte rfl (fun u hu => by rw [decodeGroup4, hu]; rfl) idx u2 m
  · exact decodeUnits_group4_lowByte rfl (fun u hu => by rw [decodeGroup4, hu]; rfl) idx u2 m
  · obtain ⟨hframe, hends⟩ := frame_setIe s true
    refine ⟨_, rfl, rfl, hframe, hends, fun rest hl hids => ?_⟩
    have htaken : (s.setIe true).retired.irqTaken = true := State.irqTaken_of_served hl rfl rfl
    exact ⟨_, (step_of_taken htaken).trans (takeInterrupt_next.mpr ⟨hids, rfl⟩), rfl, rfl⟩

/-! ## Frames of several writes -/

/-- A frame may list more registers than are written. -/
theorem Frame.mono {rs rs' : List RegNum} {qs : List Spr} {s t : State} (h : Frame rs qs s t) (hrs : rs ⊆ rs') :
    Frame rs' qs s t :=
  h.imp_left fun hregs r hr => hregs r (mt (hrs ·) hr)

/-- The frame of what follows a register write, seen from before the write. -/
theorem Frame.behind_setReg {rs : List RegNum} {qs : List Spr} {s t : State} {r : RegNum} {v : Word}
    (h : Frame rs qs (s.setReg r v) t) : Frame (r :: rs) qs s t := by
  obtain ⟨hregs, hsprs, hmem, hinputs⟩ := h
  refine ⟨fun q hq => ?_, fun q hq => (hsprs q hq).trans (s.setReg_spr r v q), hmem, hinputs⟩
  exact (hregs q (List.not_mem_of_not_mem_cons hq)).trans (s.reg_setReg_other r q v (List.ne_of_not_mem_cons hq))

/-! ## Push -/

/-- Any instruction that pushes a word where it can be stored (R206, R207). -/
theorem pushWord_pushes {s : State} {x : Instr} {b : RegNum} {v : Word} (hm : Memory.wf s.mem = true)
    (hc : s.canAccess (s.reg b) 4) (hx : exec x s = pushWord v b s) :
    ∃ t, exec x s = .next t ∧ HoldsBytes t (s.reg b) 4 v ∧ t.reg b = s.reg b - 4#32
      ∧ FrameStore [b] [] (s.reg b) 4 s t ∧ EndsAtNext s t := by
  obtain ⟨hframe, hends⟩ := frame_setReg (s.stored (s.reg b) 4 v) b (s.reg b - 4#32)
  rw [pushWord, State.store_of_canAccess hc, andThen_ok] at hx
  exact ⟨_, hx, stored_holdsBytes hm hc, State.reg_setReg_same _ b _, hframe.behind_store, hends⟩

/-- Settles O41: both forms are a `pushWord` of their own word, but for `push rA, rA`. -/
theorem pushStoresAndDecrements : Obligations.PushStoresAndDecrements := by
  intro s a b q hm pushes
  exact ⟨fun hc => ⟨fun hab => pushWord_pushes hm hc (if_neg hab), pushWord_pushes hm hc rfl⟩,
    fun hab => ⟨_, if_pos hab, frame_retired s⟩⟩

/-! ## Pop -/

/-- A pop into a general register is the write of the stack pointer, then of another register (R208). -/
theorem pop_loads {s : State} {a b : RegNum} (hab : a ≠ b) (hc : s.canAccess (s.reg b + 4#32) 4) :
    ∃ t, exec (.pop a b) s = .next t ∧ t.reg a = s.wordAt (s.reg b + 4#32) ∧ t.reg b = s.reg b + 4#32
      ∧ Frame [a, b] [] s t ∧ EndsAtNext s t := by
  let u := s.setReg b (s.reg b + 4#32)
  obtain ⟨hframe, hends⟩ := frame_setReg u a (s.wordAt (s.reg b + 4#32))
  refine ⟨_, (if_neg hab).trans (popWord_of_canAccess hc), State.reg_setReg_same u a _, ?_,
    hframe.behind_setReg.mono (List.Perm.swap a b []).subset, hends⟩
  rw [State.retired_reg, State.reg_setReg_other _ _ _ _ hab.symm, State.reg_setReg_same]

/-- A pop into a special-purpose register keeps the bits that it holds (R209). -/
theorem popSpr_loads {s : State} {q : Spr} {b : RegNum} (hc : s.canAccess (s.reg b + 4#32) 4) :
    ∃ t, exec (.popSpr q b) s = .next t ∧ t.spr q = s.wordAt (s.reg b + 4#32) &&& q.heldBits
      ∧ t.reg b = s.reg b + 4#32 ∧ Frame [b] [q] s t ∧ EndsAtNext s t := by
  obtain ⟨hframe, hpc, hends⟩ := frame_setSpr (s.setReg b (s.reg b + 4#32)) q (s.wordAt (s.reg b + 4#32))
  refine ⟨_, popWord_of_canAccess (k := fun v t => retire (t.setSpr q v)) hc, ?_, ?_, hframe.behind_setReg, hpc, hends⟩
  · rw [State.retired_spr, State.spr_setSpr_same]
  · rw [State.retired_reg, State.setSpr_reg, State.reg_setReg_same]

/-- A pop of an even word into `pc` goes there (R210). -/
theorem popPc_goes {s : State} {b : RegNum} (hc : s.canAccess (s.reg b + 4#32) 4)
    (hv : (s.wordAt (s.reg b + 4#32)).getLsbD 0 = false) :
    ∃ t, exec (.popPc b) s = .next t ∧ t.pc = s.wordAt (s.reg b + 4#32) ∧ t.reg b = s.reg b + 4#32
      ∧ Frame [b] [] s t ∧ NoPrefix t :=
  ⟨_, (popWord_of_canAccess hc).trans (jumpTo_next.mpr ⟨hv, rfl⟩), rfl, State.reg_setReg_same s b _,
    (frame_setReg s b _).1.jumped _⟩

/-- Settles O42, destination by destination. -/
theorem popIncrementsAndLoads : Obligations.PopIncrementsAndLoads := by
  intro s a b q v
  exact ⟨fun hc => ⟨fun hab => pop_loads hab hc, popSpr_loads hc, popPc_goes hc⟩,
    fun hab => ⟨_, if_pos hab, frame_retired s⟩⟩

end Sys2Proof.Machine
end

section
/-! Group 4, opcodes 0x0b to 0x11 (44_group4_control_stack_muldiv.md): the products and quotients as numbers (R211,
R214, R215, R219), the destinations that an index names, and where they are refused (R212 to R217, R220). -/

namespace Sys2Proof.Machine

/-! ## Products -/

theorem unsignedProduct_toNat (v w : Word) : (unsignedProduct v w).toNat = v.toNat * w.toNat := by
  rw [unsignedProduct, BitVec.toNat_ofNat, Nat.mod_eq_of_lt BitVec.toNat_mul_toNat_lt]

theorem signedProduct_toInt (v w : Word) : (signedProduct v w).toInt = v.toInt * w.toInt := by
  have hlow : -2 ^ 62 ≤ v.toInt * w.toInt := BitVec.le_toInt_mul_toInt
  have hhigh : v.toInt * w.toInt ≤ 2 ^ 62 := BitVec.toInt_mul_toInt_le
  exact BitVec.toInt_ofInt_eq_self (by decide) (by omega) (by omega)

/-! ## Quotients and remainders -/

/-- Unsigned division rounds down, at any width (R219); `z` stands for the free value of a zero divisor. -/
theorem unsigned_division {w : Nat} {n d : BitVec w} {qr z : BitVec w × BitVec w}
    (hqr : qr = if d = 0#w then z else (BitVec.ofNat w (n.toNat / d.toNat), BitVec.ofNat w (n.toNat % d.toNat)))
    (hd : d ≠ 0#w) : n.toNat = qr.1.toNat * d.toNat + qr.2.toNat ∧ qr.2.toNat < d.toNat := by
  have hpos : 0 < d.toNat := Nat.pos_of_ne_zero fun h => hd (BitVec.eq_of_toNat_eq h)
  rw [if_neg hd, ← BitVec.toNat_udiv, ← BitVec.toNat_umod, BitVec.ofNat_toNat, BitVec.ofNat_toNat, BitVec.setWidth_eq,
    BitVec.setWidth_eq] at hqr
  rw [hqr, BitVec.toNat_udiv, BitVec.toNat_umod]
  exact ⟨(Nat.div_add_mod' _ _).symm, Nat.mod_lt _ hpos⟩

/-- Signed division truncates toward zero and its remainder has the sign of the dividend, at any width (R219); `z` and
`o` stand for the free values. The one quotient out of range is that of the most negative value by -1. -/
theorem signed_division {w : Nat} {n d : BitVec w} {qr z o : BitVec w × BitVec w}
    (hqr : qr = if d = 0#w then z else if n = BitVec.intMin w ∧ d = BitVec.allOnes w then o
      else (BitVec.ofInt w (n.toInt.tdiv d.toInt), BitVec.ofInt w (n.toInt - n.toInt.tdiv d.toInt * d.toInt)))
    (hd : d ≠ 0#w) (ho : ¬(n = BitVec.intMin w ∧ d = BitVec.allOnes w)) :
    n.toInt = qr.1.toInt * d.toInt + qr.2.toInt ∧ |qr.2.toInt| < |d.toInt|
      ∧ (0 ≤ n.toInt → 0 ≤ qr.2.toInt) ∧ (n.toInt ≤ 0 → qr.2.toInt ≤ 0) := by
  have hd0 : d.toInt ≠ 0 := fun h => hd (BitVec.eq_of_toInt_eq (h.trans BitVec.toInt_zero.symm))
  have hrange : n ≠ BitVec.intMin w ∨ d ≠ -1#w := by
    rw [BitVec.neg_one_eq_allOnes]
    exact not_and_or.mp ho
  have hmod : n.toInt - n.toInt.tdiv d.toInt * d.toInt = n.toInt.tmod d.toInt := by rw [Int.tmod_def, Int.mul_comm]
  rw [if_neg hd, if_neg ho, hmod, ← BitVec.toInt_sdiv_of_ne_or_ne n d hrange, ← BitVec.toInt_srem, BitVec.ofInt_toInt,
    BitVec.ofInt_toInt] at hqr
  rw [hqr, BitVec.toInt_sdiv_of_ne_or_ne n d hrange, BitVec.toInt_srem]
  refine ⟨(Int.tdiv_mul_add_tmod _ _).symm, ?_, Int.tmod_nonneg _, fun hn => ?_⟩
  · rw [Int.abs_eq_natAbs, Int.abs_eq_natAbs, Int.natAbs_tmod, Int.ofNat_lt]
    exact Nat.mod_lt _ (Int.natAbs_pos.mpr hd0)
  · have hneg : 0 ≤ (-n.toInt).tmod d.toInt := Int.tmod_nonneg _ (by omega)
    rw [Int.neg_tmod] at hneg
    omega

/-- Settles O47: at both widths the values are those of `unsigned_division` and `signed_division`, and the free values
stand in the branches before them. -/
theorem divisionValues : Obligations.DivisionValues := by
  refine ⟨fun n d => ⟨unsigned_division rfl, fun hd => ⟨if_pos hd, if_pos hd⟩, fun hn hd => ?_, signed_division rfl⟩,
    fun n d => ⟨unsigned_division rfl, fun hd => ⟨if_pos hd, if_pos hd⟩, fun hn hd => ?_, signed_division rfl⟩⟩
  · subst hn hd
    rfl
  · subst hn hd
    rfl

/-! ## Multiply -/

/-- Any instruction of two fields is decoded from its unit, whatever unit follows (R88). -/
theorem decodeUnits_unitAB {x : Instr} {base : InstrUnit} {a b : BitVec 4} (hx : encode x = [unitAB base a b])
    (hb : isLpre base = false) (hr : ∀ idx, x.readWhen idx = true) (p : UnusedFieldPolicy) (idx : Bool)
    (u2 : InstrUnit) : decodeUnits p idx (base ||| b.setWidth 16 <<< 4 ||| a.setWidth 16) u2 = .ok x :=
  decodeUnits_one_unit hx ((Laws.EncodedUnits.isLpre_unitAB base a b).trans hb) hr p idx u2

/-- Settles O43: the product of words is that of their numbers, unsigned and signed. -/
theorem multiplyLow : Obligations.MultiplyLow := by
  intro s a b
  obtain ⟨t, hexec, hreg, hframe⟩ := setReg_writes (s := s) (x := .mul a b) rfl
  refine ⟨decodeUnits_unitAB rfl rfl fun _ => rfl, t, hexec, ?_, ?_, hframe⟩
  · rw [hreg, BitVec.ofNat_mul, BitVec.ofNat_toNat, BitVec.ofNat_toNat, BitVec.setWidth_eq, BitVec.setWidth_eq]
  · rw [hreg, BitVec.ofInt_mul, BitVec.ofInt_toInt, BitVec.ofInt_toInt]

/-- Any instruction that ends by writing 64 bits to two different registers (R220). -/
theorem setPair_writes {s : State} {x : Instr} {hi lo : RegNum} {v : DWord} (hne : hi ≠ lo)
    (hx : exec x s = retire (s.setPair hi lo v)) :
    ∃ t, exec x s = .next t ∧ (t.reg hi ++ t.reg lo : DWord) = v ∧ Frame [hi, lo] [] s t ∧ EndsAtNext s t :=
  ⟨_, hx, s.setPair_value hi lo v hne, frame_pair s hi lo v⟩

section MultiplyResult

variable {s : State}

theorem multiplyResult_noIndex (h : s.pfx.indexInEffect = false) (p : DWord) :
    multiplyResult p s = retire (s.setPair 0#4 1#4 p) :=
  if_neg (Bool.eq_false_iff.mp h)

theorem multiplyResult_index (h : s.pfx.indexInEffect = true) (hl : s.pfx.idxLast = .rr)
    (hne : s.pfx.idxA ≠ s.pfx.idxB) (p : DWord) :
    multiplyResult p s = retire (s.setPair s.pfx.idxA s.pfx.idxB p) := by
  rw [multiplyResult, if_pos h, if_neg (by simp [hl]), if_neg hne]

theorem multiplyResult_immediate (h : s.pfx.indexInEffect = true) (hl : s.pfx.idxLast = .ri) (p : DWord) :
    multiplyResult p s = .refused .noIndexRegB := by
  rw [multiplyResult, if_pos h, if_pos hl]

theorem multiplyResult_overlap (h : s.pfx.indexInEffect = true) (hl : s.pfx.idxLast = .rr)
    (heq : s.pfx.idxA = s.pfx.idxB) (p : DWord) : multiplyResult p s = .refused .destinationOverlap := by
  rw [multiplyResult, if_pos h, if_neg (by simp [hl]), if_pos heq]

end MultiplyResult

/-- Settles O44: wherever a `multiplyResult` goes, both products go. -/
theorem multiplyLong : Obligations.MultiplyLong := by
  intro s a b into
  have into_of {hi lo : RegNum} (hne : hi ≠ lo) (hp : ∀ p, multiplyResult p s = retire (s.setPair hi lo p)) :
      into hi lo := by
    obtain ⟨t, lumul, hunsigned, htframe⟩ := setPair_writes (x := .lumul a b) hne (hp _)
    obtain ⟨u, lsmul, hsigned, huframe⟩ := setPair_writes (x := .lsmul a b) hne (hp _)
    exact ⟨⟨t, lumul, hunsigned ▸ unsignedProduct_toNat _ _, htframe⟩,
      u, lsmul, hsigned ▸ signedProduct_toInt _ _, huframe⟩
  exact ⟨fun h => into_of (by decide) (multiplyResult_noIndex h),
    fun h hl hne => into_of hne (multiplyResult_index h hl hne)⟩

/-! ## Divide -/

/-- Any instruction that ends as a 32-bit divide (R212, R213). -/
theorem divideResult_writes {s : State} {x : Instr} {a : RegNum} {qr : Word × Word}
    (hx : exec x s = divideResult a qr s) :
    (s.pfx.indexInEffect = false →
        ∃ t, exec x s = .next t ∧ t.reg a = qr.1 ∧ Frame [a] [] s t ∧ EndsAtNext s t)
      ∧ (s.pfx.indexInEffect = true → s.pfx.idxA ≠ a →
        ∃ t, exec x s = .next t ∧ t.reg a = qr.1 ∧ t.reg s.pfx.idxA = qr.2
          ∧ Frame [a, s.pfx.idxA] [] s t ∧ EndsAtNext s t) := by
  refine ⟨fun h => setReg_writes (hx.trans (if_neg (Bool.eq_false_iff.mp h))), fun h hne => ?_⟩
  let u := s.setReg s.pfx.idxA qr.2
  obtain ⟨hframe, hends⟩ := frame_setReg u a qr.1
  rw [divideResult, if_pos h, if_neg hne] at hx
  refine ⟨_, hx, State.reg_setReg_same u a qr.1, ?_, hframe.behind_setReg.mono (List.Perm.swap a _ []).subset, hends⟩
  rw [State.retired_reg, State.reg_setReg_other _ _ _ _ hne, State.reg_setReg_same]

theorem divideResult_overlap {s : State} {a : RegNum} (h : s.pfx.indexInEffect = true) (ha : s.pfx.idxA = a)
    (qr : Word × Word) : divideResult a qr s = .refused .destinationOverlap := by
  rw [divideResult, if_pos h, if_pos ha]

/-- Settles O45: both divides end as a `divideResult` of their own quotient and remainder. -/
theorem divide32 : Obligations.Divide32 := by
  intro s a b divides
  exact ⟨divideResult_writes rfl, divideResult_writes rfl⟩

/-! ## 64-bit divide -/

/-- The odd register of a pair by its bits (R216). -/
theorem pairLow_eq_or (r : RegNum) : pairLow r = r ||| 1#4 := by
  revert r
  decide

/-- A pair's value is its two words (R220). -/
theorem State.pair_eq_append (s : State) (r : RegNum) : s.pair r = s.reg (r &&& 0xE#4) ++ s.reg (r ||| 1#4) := by
  rw [State.pair, pairLow_eq_or, BitVec.append_def, BitVec.shiftLeftZeroExtend_eq, BitVec.setWidth'_eq]
  rfl

/-- Where the remainder's two registers overlap each other or the quotient's (R216). -/
theorem PrefixState.pairOverlap_iff {p : PrefixState} {a : RegNum} : p.pairOverlap a = true ↔
    p.idxA = p.idxB ∨ p.idxA = a &&& 0xE#4 ∨ p.idxA = a ||| 1#4 ∨ p.idxB = a &&& 0xE#4 ∨ p.idxB = a ||| 1#4 := by
  simp only [PrefixState.pairOverlap, Bool.or_eq_true, beq_iff_eq, pairLow_eq_or, pairHigh, or_assoc]

section Divide64Result

variable {s : State} {a : RegNum}

theorem divide64Result_noIndex (h : s.pfx.indexInEffect = false) (qr : DWord × DWord) :
    divide64Result a qr s = retire (s.setPair (pairHigh a) (pairLow a) qr.1) :=
  if_neg (Bool.eq_false_iff.mp h)

theorem divide64Result_index (h : s.pfx.indexInEffect = true) (hl : s.pfx.idxLast = .rr)
    (hn : ¬s.pfx.pairOverlap a = true) (qr : DWord × DWord) : divide64Result a qr s
      = retire ((s.setPair s.pfx.idxA s.pfx.idxB qr.2).setPair (pairHigh a) (pairLow a) qr.1) := by
  rw [divide64Result, if_pos h, if_neg (by simp [hl]), if_neg hn]

theorem divide64Result_immediate (h : s.pfx.indexInEffect = true) (hl : s.pfx.idxLast = .ri) (qr : DWord × DWord) :
    divide64Result a qr s = .refused .noIndexRegB := by
  rw [divide64Result, if_pos h, if_pos hl]

theorem divide64Result_overlap (h : s.pfx.indexInEffect = true) (hl : s.pfx.idxLast = .rr)
    (ho : s.pfx.pairOverlap a = true) (qr : DWord × DWord) : divide64Result a qr s = .refused .destinationOverlap := by
  rw [divide64Result, if_pos h, if_neg (by simp [hl]), if_pos ho]

end Divide64Result

/-- A register outside a pair that is written (R220). -/
theorem State.reg_setPair_other {s : State} {hi lo r : RegNum} {v : DWord} (hhi : r ≠ hi) (hlo : r ≠ lo) :
    (s.setPair hi lo v).reg r = s.reg r := by
  rw [State.reg_setPair, if_neg hlo.symm, if_neg hhi.symm]

/-- Two pairs of four different registers hold what was written to each. -/
theorem frame_twoPairs {s : State} {hi lo ra rb : RegNum} {q r : DWord} (hpair : hi ≠ lo) (hab : ra ≠ rb)
    (hah : ra ≠ hi) (hal : ra ≠ lo) (hbh : rb ≠ hi) (hbl : rb ≠ lo) :
    let t := ((s.setPair ra rb r).setPair hi lo q).retired
    (t.reg hi ++ t.reg lo : DWord) = q ∧ (t.reg ra ++ t.reg rb : DWord) = r
      ∧ Frame [hi, lo, ra, rb] [] s t ∧ EndsAtNext s t := by
  let u := s.setPair ra rb r
  obtain ⟨hframe, hends⟩ := frame_pair u hi lo q
  refine ⟨u.setPair_value hi lo q hpair, ?_, ?_, hends⟩
  · rw [State.retired_reg, State.retired_reg, State.reg_setPair_other hah hal, State.reg_setPair_other hbh hbl]
    exact s.setPair_value ra rb r hab
  · exact hframe.behind_setReg.behind_setReg.mono (List.perm_append_comm (l₁ := [ra, rb])).subset

/-- Settles O46: both divides read their pairs and end as a `divide64Result`, into one pair or two. -/
theorem divide64 : Obligations.Divide64 := by
  intro s a b hi lo n d ra rb divides
  have hlo : pairLow a = lo := pairLow_eq_or a
  have hpair : hi ≠ lo := hlo ▸ pairHigh_ne_pairLow a
  have divides_of {x : Instr} {f : DWord → DWord → DWord × DWord}
      (hx : exec x s = divide64Result a (f (s.pair a) (s.pair b)) s) : divides x (f n d) := by
    rw [State.pair_eq_append, State.pair_eq_append] at hx
    refine ⟨fun h => ?_, fun h hl hab hah hal hbh hbl => ?_⟩
    · rw [divide64Result_noIndex h, hlo] at hx
      exact setPair_writes hpair hx
    · have hn : ¬s.pfx.pairOverlap a = true := by
        rw [PrefixState.pairOverlap_iff]
        exact not_or.mpr ⟨hab, not_or.mpr ⟨hah, not_or.mpr ⟨hal, not_or.mpr ⟨hbh, hbl⟩⟩⟩⟩
      rw [divide64Result_index h hl hn, hlo] at hx
      exact ⟨_, hx, frame_twoPairs hpair hab hah hal hbh hbl⟩
  exact ⟨divides_of rfl, divides_of rfl⟩

/-! ## Where a divide or long multiply is refused -/

/-- Settles O48: the refusals are those of `divideResult`, `multiplyResult` and `divide64Result`. -/
theorem multiplyDivideStops : Obligations.MultiplyDivideStops := by
  intro s a b h
  have long_refused {r : Refusal} (hm : ∀ p, multiplyResult p s = .refused r)
      (hd : ∀ qr, divide64Result a qr s = .refused r) :
      ∀ x ∈ [Instr.lumul a b, .lsmul a b, .udiv64 a b, .sdiv64 a b], exec x s = .refused r := by
    simp only [List.forall_mem_cons]
    exact ⟨hm _, hm _, hd _, hd _, nofun⟩
  refine ⟨fun ha => ?_, fun hl => ?_, fun hl heq => ?_, fun hl ho => ?_⟩
  · exact List.forall_mem_cons.mpr ⟨divideResult_overlap h ha _,
      List.forall_mem_singleton.mpr (divideResult_overlap h ha _)⟩
  · exact long_refused (multiplyResult_immediate h hl) (divide64Result_immediate h hl)
  · exact long_refused (multiplyResult_overlap h hl heq)
      (divide64Result_overlap h hl (PrefixState.pairOverlap_iff.mpr (.inl heq)))
  · have hrefused := divide64Result_overlap h hl (PrefixState.pairOverlap_iff.mpr (.inr ho))
    exact List.forall_mem_cons.mpr ⟨hrefused _, List.forall_mem_singleton.mpr (hrefused _)⟩

end Sys2Proof.Machine
end

section
/-! Group 4, opcodes 0x12 to 0x1a: loads and stores at the effective address (R230 to R238), and the word loads of
special-purpose registers (R276, R277). -/

namespace Sys2Proof.Machine

/-! ## Loads -/

/-- The byte at an address is what the load operation reads (R52). -/
theorem State.byte_eq_readLE (s : State) (a : Nat) : s.byte a = (Memory.readLE s.mem a 1).setWidth 8 := by
  rw [State.byte]
  simp [Memory.readLE]

/-- Any instruction that loads into a general register where its bytes can be accessed (R230). -/
theorem loadInto_loads {s : State} {x : Instr} {a b : RegNum} {n : Nat} {ext : Word → Word} {v : Word}
    (hv : ext (Memory.readLE s.mem (s.ea b).toNat n) = v) (hx : exec x s = loadInto a b n ext s)
    (hc : s.canAccess (s.ea b) n) :
    ∃ t, exec x s = .next t ∧ t.reg a = v ∧ Frame [a] [] s t ∧ EndsAtNext s t := by
  rw [loadInto_of_canAccess hc, hv] at hx
  exact setReg_writes hx

/-- Settles O49: each form is a `loadInto` of its own width and extension, and what `loadInto` reads is the byte or the
half at the effective address. -/
theorem narrowLoads : Obligations.NarrowLoads := by
  intro s a b form
  have form_of {x : Instr} {base : InstrUnit} {n : Nat} {ext : Word → Word} {v : Word}
      (he : encode x = [unitAB base a b]) (hb : isLpre base = false) (hr : ∀ idx, x.readWhen idx = true)
      (hx : exec x s = loadInto a b n ext s) (hv : ext (Memory.readLE s.mem (s.ea b).toNat n) = v) : form x base n v :=
    ⟨decodeUnits_unitAB he hb hr, loadInto_loads hv hx⟩
  have hbyte := (s.byte_eq_readLE (s.ea b).toNat).symm
  have hhalf := (s.halfAt_eq_readLE (s.ea b)).symm
  exact ⟨form_of rfl rfl (fun _ => rfl) rfl (congrArg (BitVec.setWidth 32) hbyte),
    form_of rfl rfl (fun _ => rfl) rfl (congrArg (BitVec.signExtend 32) hbyte),
    form_of rfl rfl (fun _ => rfl) rfl (congrArg (BitVec.setWidth 32) hhalf),
    form_of rfl rfl (fun _ => rfl) rfl (congrArg (BitVec.signExtend 32) hhalf)⟩

/-- Any instruction that loads into a special-purpose register where its word can be accessed keeps the bits that the
register holds (R276, R277). -/
theorem loadSpr_loads {s : State} {x : Instr} {q : Spr} {addr : Word} (hx : exec x s = loadSpr q addr s)
    (hc : s.canAccess addr 4) :
    ∃ t, exec x s = .next t ∧ t.spr q = s.wordAt addr &&& q.heldBits ∧ Frame [] [q] s t ∧ EndsAtNext s t := by
  rw [loadSpr, State.load_of_canAccess hc, andThen_ok, ← State.wordAt_eq_readLE] at hx
  refine ⟨_, hx, ?_, frame_setSpr s q (s.wordAt addr)⟩
  rw [State.retired_spr, State.spr_setSpr_same]

/-- Settles O50: `ldr` is a `loadInto` of a whole word, the other two a `loadSpr` at their own address. -/
theorem wordLoads : Obligations.WordLoads := by
  intro s a b q r
  exact ⟨loadInto_loads (s.wordAt_eq_readLE (s.ea b)).symm rfl, loadSpr_loads rfl, loadSpr_loads rfl⟩

/-! ## Stores -/

/-- Any instruction that stores from a general register where its bytes can be accessed (R230). -/
theorem storeFrom_stores {s : State} {x : Instr} {a b : RegNum} {n : Nat} (hm : Memory.wf s.mem = true)
    (hx : exec x s = storeFrom a b n s) (hc : s.canAccess (s.ea b) n) :
    ∃ t, exec x s = .next t ∧ HoldsBytes t (s.ea b) n (s.reg a) ∧ FrameStore [] [] (s.ea b) n s t
      ∧ EndsAtNext s t := by
  rw [storeFrom, State.store_of_canAccess hc, andThen_ok] at hx
  exact ⟨_, hx, stored_holdsBytes hm hc, frame_stored s (s.ea b) n (s.reg a)⟩

/-- Settles O51: each form is a `storeFrom` of its own width. -/
theorem stores : Obligations.Stores := by
  intro s a b hm form
  have form_of {x : Instr} {base : InstrUnit} {n : Nat} (he : encode x = [unitAB base a b])
      (hb : isLpre base = false) (hr : ∀ idx, x.readWhen idx = true) (hx : exec x s = storeFrom a b n s) :
      form x base n := ⟨decodeUnits_unitAB he hb hr, storeFrom_stores hm hx⟩
  exact ⟨form_of rfl rfl (fun _ => rfl) rfl, form_of rfl rfl (fun _ => rfl) rfl,
    form_of rfl rfl (fun _ => rfl) rfl⟩

end Sys2Proof.Machine
end

section
/-! Group 5 (46_group5_index.md): what a valid `index` latches (R260, R261). -/

namespace Sys2Proof.Machine

/-- An `index rA, #simm` notes a `pre` and an `lpre` alike, beside an earlier note (R261, D5). -/
theorem PrefixState.usedByIndex_latchIndexImm (p : PrefixState) (a : RegNum) (va v : Word) :
    (p.latchIndexImm a va v).usedByIndex = (p.usedByIndex || p.preHave || p.lpreHave) :=
  (Bool.or_assoc p.usedByIndex p.preHave p.lpreHave).symm

/-- Settles O17, through the `pfx` that each kind of `index` latches: that of `index rA, rB` as it stands, that of
`index rA, #simm` with its note of the expanding prefix said for `pre` and `lpre` apart. -/
theorem indexLatches : Obligations.IndexLatches := by
  intro s a b k
  refine ⟨fun hrr => ⟨_, exec_indexReg_valid hrr, rfl, rfl, frame_latched s _ _⟩,
    fun hri => ⟨_, exec_indexImm_valid hri, ?_, rfl, frame_latched s _ _⟩⟩
  rw [State.latched_pfx, ← PrefixState.usedByIndex_latchIndexImm s.pfx a (s.reg a) (s.immS k)]
  rfl

end Sys2Proof.Machine
end

section
/-! Group 7 (47_group7_extra.md): the stores of special-purpose registers (R278, R279), the sub-word shifts (R272 to R275,
R283), and the operations on the instruction cache (R280, R281). -/

namespace Sys2Proof.Machine

/-! ## Stores of special-purpose registers -/

/-- Any instruction that stores a special-purpose register where its word can be accessed (R278, R279). -/
theorem storeSpr_stores {s : State} {x : Instr} {q : Spr} {addr : Word} (hm : Memory.wf s.mem = true)
    (hx : exec x s = storeSpr q addr s) (hc : s.canAccess addr 4) :
    ∃ t, exec x s = .next t ∧ HoldsBytes t addr 4 (s.spr q) ∧ FrameStore [] [] addr 4 s t ∧ EndsAtNext s t := by
  rw [storeSpr, State.store_of_canAccess hc, andThen_ok] at hx
  exact ⟨_, hx, stored_holdsBytes hm hc, frame_stored s addr 4 (s.spr q)⟩

/-- Settles O52: both forms are a `storeSpr` at their own address. -/
theorem sprStores : Obligations.SprStores := by
  intro s b q r hm stores
  exact ⟨storeSpr_stores hm rfl, storeSpr_stores hm rfl⟩

/-! ## Sub-word shifts -/

theorem getLsbD_lowMask (n : Nat) {j : Nat} (hj : j < 32) : (lowMask n).getLsbD j = decide (j < n) := by
  rw [lowMask, BitVec.getLsbD_ofNat, Nat.testBit_two_pow_sub_one, decide_eq_true hj, Bool.true_and]

/-- Under `merge` the low `n` bits are those of the result, the others the old ones (R283). -/
theorem subwordValue_merge_getLsbD (n : Nat) (old t : Word) {j : Nat} (hj : j < 32) :
    (subwordValue .merge n old t).getLsbD j = if j < n then t.getLsbD j else old.getLsbD j := by
  simp only [subwordValue, BitVec.getLsbD_or, BitVec.getLsbD_and, BitVec.getLsbD_not, getLsbD_lowMask n hj, hj,
    decide_true, Bool.true_and]
  by_cases h : j < n <;> simp [h]

theorem subwordValue_merge_high (n : Nat) (old t : Word) : subwordValue .merge n old t >>> n = old >>> n := by
  apply BitVec.eq_of_getLsbD_eq
  intro j _
  rw [BitVec.getLsbD_ushiftRight, BitVec.getLsbD_ushiftRight]
  by_cases hj : n + j < 32
  · rw [subwordValue_merge_getLsbD n old t hj, if_neg (by omega)]
  · rw [BitVec.getLsbD_of_ge _ _ (by omega), BitVec.getLsbD_of_ge _ _ (by omega)]

theorem subwordValue_merge_low {n : Nat} (hn : n ≤ 32) (old t : Word) :
    (subwordValue .merge n old t).setWidth n = t.setWidth n := by
  apply BitVec.eq_of_getLsbD_eq
  intro j hj
  rw [BitVec.getLsbD_setWidth, BitVec.getLsbD_setWidth, subwordValue_merge_getLsbD n old t (by omega), if_pos hj]

/-- Any sub-word shift with result `v`: what it writes under each value of SUBWORD_SHIFT_WRITE (R283). -/
theorem subwordResult_writes {s : State} {x : Instr} {a : RegNum} {w : Nat} {v : Word} {value : Word → Prop}
    (hw : w ≤ 32) (hv : value v) (hx : exec x s = subwordResult a w v s) :
    ∃ t, exec x s = .next t ∧ Frame [a] [] s t ∧ EndsAtNext s t
      ∧ (s.plat.subwordWrite = .extend → value (t.reg a))
      ∧ (s.plat.subwordWrite = .merge → t.reg a >>> w = s.reg a >>> w
          ∧ ∃ u : Word, value u ∧ (t.reg a).setWidth w = u.setWidth w) := by
  obtain ⟨t, hexec, hreg, hframe, hends⟩ := setReg_writes hx
  refine ⟨t, hexec, hframe, hends, fun hp => ?_, fun hp => ?_⟩ <;> rw [hreg, hp]
  · exact hv
  · exact ⟨subwordValue_merge_high w _ v, v, hv, subwordValue_merge_low hw _ v⟩

/-- LSR32 of the low `w` bits is their quotient by a power of two (R157, R272, R273). -/
theorem lsr32_setWidth_toNat (v n : Word) {w : Nat} (hw : w ≤ 32) :
    (lsr32 ((v.setWidth w).setWidth 32) n).toNat = v.toNat % 2 ^ w / 2 ^ n.toNat := by
  obtain ⟨-, hlsr, -⟩ := shiftValues ((v.setWidth w).setWidth 32) n
  rw [hlsr, BitVec.toNat_setWidth_of_le hw, BitVec.toNat_setWidth]

/-- ASR32 of the low `w` bits is their signed quotient by a power of two (R157, R274, R275). -/
theorem asr32_signExtend_toInt (v n : Word) {w : Nat} (hw : w ≤ 32) :
    (asr32 ((v.setWidth w).signExtend 32) n).toInt = (v.setWidth w).toInt / 2 ^ n.toNat := by
  obtain ⟨-, -, hasr⟩ := shiftValues ((v.setWidth w).signExtend 32) n
  rw [hasr, BitVec.toInt_signExtend_of_le hw]

/-- Settles O58: each form is a `subwordResult` of a shift of R157 by `x[b]`. -/
theorem subwordShifts : Obligations.SubwordShifts := by
  intro s a b n shifts
  have lsr_shifts {x : Instr} {w : Nat} (hw : w ≤ 32)
      (hx : exec x s = subwordResult a w (lsr32 (((s.reg a).setWidth w).setWidth 32) (s.reg b)) s) :=
    subwordResult_writes (value := fun v => v.toNat = (s.reg a).toNat % 2 ^ w / 2 ^ n) hw
      (lsr32_setWidth_toNat (s.reg a) (s.reg b) hw) hx
  have asr_shifts {x : Instr} {w : Nat} (hw : w ≤ 32)
      (hx : exec x s = subwordResult a w (asr32 (((s.reg a).setWidth w).signExtend 32) (s.reg b)) s) :=
    subwordResult_writes (value := fun v => v.toInt = ((s.reg a).setWidth w).toInt / 2 ^ n) hw
      (asr32_signExtend_toInt (s.reg a) (s.reg b) hw) hx
  exact ⟨lsr_shifts (by decide) rfl, lsr_shifts (by decide) rfl, asr_shifts (by decide) rfl, asr_shifts (by decide) rfl⟩

/-! ## The instruction cache -/

/-- The frame of an instruction that ends after a change of the stale lines alone. -/
theorem frame_setStale (s : State) (ls : List Nat) :
    let t := { s with stale := ls }.retired
    (∀ k, t.byte k = s.byte k) ∧ KeepsRegs [] s t ∧ KeepsSprs [] s t ∧ KeepsInputs s t ∧ EndsAtNext s t :=
  ⟨fun _ => rfl, fun _ _ => rfl, fun q _ => by cases q <;> rfl, ⟨rfl, rfl⟩, rfl, rfl, rfl⟩

/-- `icreload` where R99 refuses nothing (R280): what the bytes of its line let it do. -/
theorem exec_icreload {s : State} (hu : s.pfx.usedByIndex = false) (a : RegNum) (i : BitVec 5) :
    exec (.icreload a i) s =
      andThen (checkBacked s.plat.memMap (lineBytes * s.reloadLine a i) lineBytes) fun _ =>
        .next { s with stale := Stale.clear s.stale (s.reloadLine a i) }.retired := by
  rw [Nat.mul_comm]
  exact withImmediate_unused hu _

/-- `icreload` of a line that memory backs (R280). -/
theorem icreload_reloads {s : State} {a : RegNum} {i : BitVec 5} (hu : s.pfx.usedByIndex = false)
    (hb : ∀ k, k < lineBytes → kindAt s.plat.memMap (lineBytes * s.reloadLine a i + k) = some .memory) :
    ∃ t, exec (.icreload a i) s = .next t ∧ (∀ l, l ∈ t.stale ↔ l ∈ s.stale ∧ l ≠ s.reloadLine a i)
      ∧ (∀ k, t.byte k = s.byte k) ∧ KeepsRegs [] s t ∧ KeepsSprs [] s t ∧ KeepsInputs s t ∧ EndsAtNext s t := by
  have hexec := exec_icreload hu a i
  rw [(checkBacked_ok _ _ _).mpr hb, andThen_ok] at hexec
  exact ⟨_, hexec, fun _ => Stale.mem_clear, frame_setStale s _⟩

/-- `icreload` of a line with a byte that memory does not back stops at the first such byte (R60, logs 4, 12, 13). -/
theorem icreload_stops {s : State} {a : RegNum} {i : BitVec 5} (hu : s.pfx.usedByIndex = false) {k : Nat}
    (hk : k < lineBytes)
    (hj : ∀ j, j < k → kindAt s.plat.memMap (lineBytes * s.reloadLine a i + j) = some .memory) :
    (kindAt s.plat.memMap (lineBytes * s.reloadLine a i + k) = none →
        exec (.icreload a i) s = .fault .unbackedAddress)
      ∧ (kindAt s.plat.memMap (lineBytes * s.reloadLine a i + k) = some .device →
        exec (.icreload a i) s = .refused .deviceAccess) := by
  obtain ⟨hnone, hdevice⟩ := checkBacked_stop _ _ _ k hk hj
  rw [exec_icreload hu]
  exact ⟨fun h => by rw [hnone h]; rfl, fun h => by rw [hdevice h]; rfl⟩

/-- Settles O59: the line of the statement is `reloadLine`, and the bytes of that line are the first thing `icreload`
looks at. -/
theorem instructionCache : Obligations.InstructionCache := by
  intro s a i ea line kind
  exact ⟨fun hu => ⟨fun hb => icreload_reloads hu hb, fun _ hk hj => icreload_stops hu hk hj⟩,
    _, rfl, rfl, frame_setStale s []⟩

end Sys2Proof.Machine
end

section
/-! Exceptions, reset and hazards (60_exceptions.md, 70_reset_and_hazards.md): when an IRQ is taken and what its entry
does (R304, R306), and how long `pre`, `lpre` and `index` can hold one off (R336). -/

namespace Sys2Proof.Machine

/-! ## The entry of an IRQ -/

/-- The boundary at which an IRQ is taken (R304, D37): only a listed sample that raises and serves it will do. -/
theorem State.irqTaken_iff {s : State} : s.irqTaken = true ↔
    ∃ rest, s.irqLine = ⟨true, true⟩ :: rest ∧ s.ie = true ∧ s.pfx.inEffect = false := by
  refine ⟨fun h => ?_, fun ⟨_, hl, hie, hp⟩ => State.irqTaken_of_served hl hie hp⟩
  obtain ⟨⟨⟨hirq, hie⟩, hp⟩, hserve⟩ :
      ((s.irqSample.irq = true ∧ s.ie = true) ∧ s.pfx.inEffect = false) ∧ s.irqSample.serve = true := by
    simpa only [State.irqTaken, State.irqEligible, State.canServiceIrq, Bool.and_eq_true, Bool.not_eq_true'] using h
  cases hl : s.irqLine with
  | nil => simp [State.irqSample, hl] at hirq
  | cons x rest =>
    obtain ⟨irq, serve⟩ := x
    obtain rfl : irq = true := by simpa only [State.irqSample, hl] using hirq
    obtain rfl : serve = true := by simpa only [State.irqSample, hl] using hserve
    exact ⟨rest, rfl, hie, hp⟩

/-- The entry of an IRQ, unlike that of a `swi`, leaves `sty` alone (R306). -/
theorem State.interrupted_irq_spr (s : State) (ret : Word) {q : Spr} (hq : q ∉ [Spr.ity, .ira, .ie]) :
    (s.interrupted .irq ret).spr q = s.spr q := by
  by_cases hsty : q = .sty
  · subst hsty
    rfl
  · exact s.interrupted_spr .irq ret (List.not_mem_cons_of_ne_of_not_mem hsty hq)

/-- Settles O8: the taken step is `takeInterrupt` past the boundary, where only the sample is gone. -/
theorem stepTakesIrq : Obligations.StepTakesIrq := by
  intro s
  refine ⟨State.irqTaken_iff, fun h hids => ?_, fun h hids => ?_⟩
  · exact (step_of_taken h).trans (takeInterrupt_odd (s := s.pastBoundary) hids .irq s.pc)
  · obtain ⟨⟨hregs, -, hmem, hline, hplat⟩, hnone⟩ := frame_interrupted s.pastBoundary .irq s.pc
    have hsprs : KeepsSprs [.ity, .ira, .ie] s (s.pastBoundary.interrupted .irq s.pc) := fun q hq =>
      (s.pastBoundary.interrupted_irq_spr s.pc hq).trans (s.pastBoundary_spr q)
    exact ⟨_, (step_of_taken h).trans (takeInterrupt_next.mpr ⟨hids, rfl⟩), rfl, rfl, rfl, rfl,
      hregs, hsprs, hmem, hnone, hline, hplat⟩

/-! ## How many kinds are in effect -/

/-- How many of the three kinds are in effect: an immediate one (`pre` or `lpre`), `index rA, rB`, `index rA, #simm`. -/
def PrefixState.kindsInEffect (p : PrefixState) : Nat := p.immInEffect.toNat + p.rrHave.toNat + p.riHave.toNat

theorem PrefixState.kindsInEffect_le (p : PrefixState) : p.kindsInEffect ≤ 3 := by
  have himm := p.immInEffect.toNat_le
  have hrr := p.rrHave.toNat_le
  have hri := p.riHave.toNat_le
  unfold PrefixState.kindsInEffect
  omega

/-! Each valid latch adds its own kind (R121, R122, R260, R261). -/

section LatchedKinds

variable {p : PrefixState}

theorem PrefixState.kindsInEffect_latchPre (h : p.immInEffect = false) (c : BitVec 12) :
    (p.latchPre c).kindsInEffect = p.kindsInEffect + 1 := by
  have hold : p.kindsInEffect = 0 + p.rrHave.toNat + p.riHave.toNat := by rw [kindsInEffect, h, Bool.toNat_false]
  have hnew : (p.latchPre c).kindsInEffect = 1 + p.rrHave.toNat + p.riHave.toNat := rfl
  omega

theorem PrefixState.kindsInEffect_latchLpre (h : p.immInEffect = false) (c : BitVec 27) :
    (p.latchLpre c).kindsInEffect = p.kindsInEffect + 1 := by
  have himm : (p.latchLpre c).immInEffect = true := Bool.or_true p.preHave
  have hold : p.kindsInEffect = 0 + p.rrHave.toNat + p.riHave.toNat := by rw [kindsInEffect, h, Bool.toNat_false]
  have hnew : (p.latchLpre c).kindsInEffect = 1 + p.rrHave.toNat + p.riHave.toNat := by
    rw [kindsInEffect, himm, Bool.toNat_true, latchLpre]
  omega

theorem PrefixState.kindsInEffect_latchIndexReg (h : p.rrHave = false) (a b : RegNum) (va vb : Word) :
    (p.latchIndexReg a b va vb).kindsInEffect = p.kindsInEffect + 1 := by
  have hold : p.kindsInEffect = p.immInEffect.toNat + 0 + p.riHave.toNat := by rw [kindsInEffect, h, Bool.toNat_false]
  have hnew : (p.latchIndexReg a b va vb).kindsInEffect = p.immInEffect.toNat + 1 + p.riHave.toNat := rfl
  omega

theorem PrefixState.kindsInEffect_latchIndexImm (h : p.riHave = false) (a : RegNum) (va v : Word) :
    (p.latchIndexImm a va v).kindsInEffect = p.kindsInEffect + 1 := by
  have hold : p.kindsInEffect = p.immInEffect.toNat + p.rrHave.toNat + 0 := by rw [kindsInEffect, h, Bool.toNat_false]
  have hnew : (p.latchIndexImm a va v).kindsInEffect = p.immInEffect.toNat + p.rrHave.toNat + 1 := rfl
  omega

end LatchedKinds

/-! ## A step ends them all or adds a kind -/

/-- Nothing is in effect in `t`, or one kind more than in `s`. -/
def EndsOrAddsKind (s t : State) : Prop :=
  t.pfx.inEffect = false ∨ t.pfx.kindsInEffect = s.pfx.kindsInEffect + 1

/-- An instruction that is invalid while its kind is `held` and else latches one kind more (R121 to R124). -/
theorem endsOrAddsKind_of_held {x : Instr} {s t : State} (held : Bool) {p : PrefixState} {bytes : Word}
    (hinvalid : held = true → exec x s = invalidPrefix s)
    (hvalid : held = false → exec x s = .next (s.latched p bytes))
    (hkind : held = false → p.kindsInEffect = s.pfx.kindsInEffect + 1) (h : exec x s = .next t) :
    EndsOrAddsKind s t := by
  cases held with
  | true =>
    obtain rfl := invalidPrefix_next.mp ((hinvalid rfl).symm.trans h)
    exact .inl s.pfx.cleared_inEffect
  | false =>
    cases (hvalid rfl).symm.trans h
    exact .inr (hkind rfl)

/-- Every instruction ends all kinds (R123, R125) or is valid and adds its own (R124). -/
theorem exec_endsOrAddsKind {x : Instr} {s t : State} (h : exec x s = .next t) : EndsOrAddsKind s t := by
  cases hx : x.isPrefix with
  | false => exact .inl (nonPrefixEndsPrefixes x s t hx h).1
  | true =>
    cases x with
    | pre c =>
      exact endsOrAddsKind_of_held s.pfx.immInEffect exec_pre_invalid exec_pre_valid
        (PrefixState.kindsInEffect_latchPre · c) h
    | lpre c =>
      exact endsOrAddsKind_of_held s.pfx.immInEffect (exec_lpre_invalid · c) exec_lpre_valid
        (PrefixState.kindsInEffect_latchLpre · c) h
    | indexReg a b =>
      exact endsOrAddsKind_of_held s.pfx.rrHave exec_indexReg_invalid exec_indexReg_valid
        (PrefixState.kindsInEffect_latchIndexReg · a b _ _) h
    | indexImm a k =>
      exact endsOrAddsKind_of_held s.pfx.riHave exec_indexImm_invalid exec_indexImm_valid
        (PrefixState.kindsInEffect_latchIndexImm · a _ _) h
    | _ => cases hx

/-- A step is the entry of an IRQ, which ends all kinds (R306), or an instruction (R120). -/
theorem step_endsOrAddsKind {s t : State} (h : step s = .next t) : EndsOrAddsKind s t := by
  rcases step_next h with ⟨-, hirq⟩ | ⟨-, i, -, hi⟩
  · obtain ⟨-, rfl⟩ := takeInterrupt_next.mp hirq
    exact .inl s.pfx.cleared_inEffect
  · exact exec_endsOrAddsKind (s := s.pastBoundary) hi

/-- Settles O14: four steps that each add a kind would have more in effect than the three there are. -/
theorem prefixRunIsBounded : Obligations.PrefixRunIsBounded := by
  intro s0 s1 s2 s3 s4 h01 h12 h23 h34
  rcases step_endsOrAddsKind h01 with hends | hk1
  · exact .inl hends
  rcases step_endsOrAddsKind h12 with hends | hk2
  · exact .inr (.inl hends)
  rcases step_endsOrAddsKind h23 with hends | hk3
  · exact .inr (.inr (.inl hends))
  rcases step_endsOrAddsKind h34 with hends | hk4
  · exact .inr (.inr (.inr hends))
  have hmax := s4.pfx.kindsInEffect_le
  omega

end Sys2Proof.Machine
end
